-- ==== Sys2Proof/Word.lean ====
section
/-! DEFINITION. The word types of the machine (spec/00_scope.md section 4: data width 8, address width 16). -/

namespace Sys2Proof

/-- A byte: the data width of the block (R60). -/
abbrev Byte := BitVec 8

/-- A byte address, 0x0000 to 0xFFFF (R60). -/
abbrev Addr := BitVec 16

end Sys2Proof
end

