-- ==== Sys2Proof/Machine/Bits.lean ====
section
/-! DEFINITION. Byte order, bit fields and sign extension (spec/00_scope.md section 6, R80, R103). -/

namespace Sys2Proof.Machine

/-- `Word(lo, hi) = hi * 256 + lo`: little-endian (R80, R103). -/
def word (lo hi : Byte) : Addr := hi ++ lo

/-- `a[7:0]`. -/
def loByte (a : Addr) : Byte := a.extractLsb' 0 8

/-- `a[15:8]`, the page of an address. -/
def hiByte (a : Addr) : Byte := a.extractLsb' 8 8

/-- `zext_8`: a byte as an address in page zero (R103). -/
def zeroPage (b : Byte) : Addr := b.setWidth 16

/-- `sext_8`: a byte as a signed offset (R103, R135). -/
def signedOffset (b : Byte) : Addr := b.signExtend 16

/-- Whether two addresses lie in different pages (R125). -/
def pageCrossed (a b : Addr) : Bool := hiByte a != hiByte b

end Sys2Proof.Machine
end

