-- ==== Sys2Proof/Syntax.lean ====
section
/-! DEFINITION. The instructions as syntax: one constructor per assigned row of spec/opcode_table.json (151 opcodes, R104), and
one constructor for its 105 ILLEGAL rows, which carries the unassigned opcode byte (R107; log 15). A constructor is
its mnemonic and, where the mnemonic has several formats, its format (R101); its argument is the row's operand. -/

namespace Sys2Proof

/-- The instructions (R104, R107). Operands: `imm` and `zp` are byte 1, `addr` and `ptr` are bytes 1 and 2 as a
little-endian word, `off` is byte 1 read as signed (R103). -/
inductive Instr where
  -- Load, store and transfer (R150 to R161)
  | ldaImm (imm : Byte)
  | ldaZp (zp : Byte)
  | ldaZpx (zp : Byte)
  | ldaAbs (addr : Addr)
  | ldaAbsx (addr : Addr)
  | ldaAbsy (addr : Addr)
  | ldaIndx (zp : Byte)
  | ldaIndy (zp : Byte)
  | ldxImm (imm : Byte)
  | ldxZp (zp : Byte)
  | ldxZpy (zp : Byte)
  | ldxAbs (addr : Addr)
  | ldxAbsy (addr : Addr)
  | ldyImm (imm : Byte)
  | ldyZp (zp : Byte)
  | ldyZpx (zp : Byte)
  | ldyAbs (addr : Addr)
  | ldyAbsx (addr : Addr)
  | staZp (zp : Byte)
  | staZpx (zp : Byte)
  | staAbs (addr : Addr)
  | staAbsx (addr : Addr)
  | staAbsy (addr : Addr)
  | staIndx (zp : Byte)
  | staIndy (zp : Byte)
  | stxZp (zp : Byte)
  | stxZpy (zp : Byte)
  | stxAbs (addr : Addr)
  | styZp (zp : Byte)
  | styZpx (zp : Byte)
  | styAbs (addr : Addr)
  | tax
  | tay
  | txa
  | tya
  | tsx
  | txs
  -- Arithmetic (R171, R172)
  | adcImm (imm : Byte)
  | adcZp (zp : Byte)
  | adcZpx (zp : Byte)
  | adcAbs (addr : Addr)
  | adcAbsx (addr : Addr)
  | adcAbsy (addr : Addr)
  | adcIndx (zp : Byte)
  | adcIndy (zp : Byte)
  | sbcImm (imm : Byte)
  | sbcZp (zp : Byte)
  | sbcZpx (zp : Byte)
  | sbcAbs (addr : Addr)
  | sbcAbsx (addr : Addr)
  | sbcAbsy (addr : Addr)
  | sbcIndx (zp : Byte)
  | sbcIndy (zp : Byte)
  -- Logical (R180 to R183)
  | oraImm (imm : Byte)
  | oraZp (zp : Byte)
  | oraZpx (zp : Byte)
  | oraAbs (addr : Addr)
  | oraAbsx (addr : Addr)
  | oraAbsy (addr : Addr)
  | oraIndx (zp : Byte)
  | oraIndy (zp : Byte)
  | andImm (imm : Byte)
  | andZp (zp : Byte)
  | andZpx (zp : Byte)
  | andAbs (addr : Addr)
  | andAbsx (addr : Addr)
  | andAbsy (addr : Addr)
  | andIndx (zp : Byte)
  | andIndy (zp : Byte)
  | eorImm (imm : Byte)
  | eorZp (zp : Byte)
  | eorZpx (zp : Byte)
  | eorAbs (addr : Addr)
  | eorAbsx (addr : Addr)
  | eorAbsy (addr : Addr)
  | eorIndx (zp : Byte)
  | eorIndy (zp : Byte)
  | bitZp (zp : Byte)
  | bitAbs (addr : Addr)
  -- Shift and rotate (R191 to R194)
  | aslAcc
  | aslZp (zp : Byte)
  | aslZpx (zp : Byte)
  | aslAbs (addr : Addr)
  | aslAbsx (addr : Addr)
  | lsrAcc
  | lsrZp (zp : Byte)
  | lsrZpx (zp : Byte)
  | lsrAbs (addr : Addr)
  | lsrAbsx (addr : Addr)
  | rolAcc
  | rolZp (zp : Byte)
  | rolZpx (zp : Byte)
  | rolAbs (addr : Addr)
  | rolAbsx (addr : Addr)
  | rorAcc
  | rorZp (zp : Byte)
  | rorZpx (zp : Byte)
  | rorAbs (addr : Addr)
  | rorAbsx (addr : Addr)
  -- Compare (R201 to R203)
  | cmpImm (imm : Byte)
  | cmpZp (zp : Byte)
  | cmpZpx (zp : Byte)
  | cmpAbs (addr : Addr)
  | cmpAbsx (addr : Addr)
  | cmpAbsy (addr : Addr)
  | cmpIndx (zp : Byte)
  | cmpIndy (zp : Byte)
  | cpxImm (imm : Byte)
  | cpxZp (zp : Byte)
  | cpxAbs (addr : Addr)
  | cpyImm (imm : Byte)
  | cpyZp (zp : Byte)
  | cpyAbs (addr : Addr)
  -- Stack and subroutine (R210 to R215)
  | pha
  | pla
  | php
  | plp
  | jsr (addr : Addr)
  | rts
  -- Branch and jump (R221 to R230)
  | bpl (off : Byte)
  | bmi (off : Byte)
  | bvc (off : Byte)
  | bvs (off : Byte)
  | bcc (off : Byte)
  | bcs (off : Byte)
  | bne (off : Byte)
  | beq (off : Byte)
  | jmpAbs (addr : Addr)
  | jmpInd (ptr : Addr)
  -- Flag set and clear, increment and decrement (R240 to R255)
  | clc
  | sec
  | cli
  | sei
  | clv
  | cld
  | sed
  | incZp (zp : Byte)
  | incZpx (zp : Byte)
  | incAbs (addr : Addr)
  | incAbsx (addr : Addr)
  | decZp (zp : Byte)
  | decZpx (zp : Byte)
  | decAbs (addr : Addr)
  | decAbsx (addr : Addr)
  | inx
  | iny
  | dex
  | dey
  -- System (R260 to R262)
  | brk
  | rti
  | nop
  -- Unassigned opcodes (R263)
  | illegal (op : Byte)
deriving DecidableEq, Repr

end Sys2Proof
end

