-- ==== Sys2Proof/Machine/Formats.lean ====
section
/-! DEFINITION. The rows of spec/opcode_table.json read off a constructor: its opcode byte and mnemonic (R104), and its format
with the operand (R101), by the access pattern that uses it (R137). -/

namespace Sys2Proof

/-- The memory formats of R101 that have an effective address (R127 to R134). -/
inductive EaMode where
  | zp (zp : Byte)
  | zpx (zp : Byte)
  | zpy (zp : Byte)
  | abs (addr : Addr)
  | absx (addr : Addr)
  | absy (addr : Addr)
  | indx (zp : Byte)
  | indy (zp : Byte)
deriving DecidableEq, Repr

/-- The operand of a reading instruction, `ReadOperand` of R137: IMM or a memory format. -/
inductive Operand where
  | imm (imm : Byte)
  | mem (mode : EaMode)
deriving DecidableEq, Repr

/-- The memory formats of the read-modify-write instructions (R104). -/
inductive ModMode where
  | zp (zp : Byte)
  | zpx (zp : Byte)
  | abs (addr : Addr)
  | absx (addr : Addr)
deriving DecidableEq, Repr

/-- The operand of a read-modify-write instruction, `ModifyOperand` of R137: ACC or a memory format. -/
inductive Target where
  | acc
  | mem (mode : ModMode)
deriving DecidableEq, Repr

/-- A row's format with its operand, by access pattern (R101, R137). -/
inductive Form where
  | implied
  | read (operand : Operand)
  | store (mode : EaMode)
  | modify (target : Target)
  | relative (off : Byte)
  | absolute (addr : Addr)
  | indirect (ptr : Addr)
deriving DecidableEq, Repr

/-- The 56 mnemonics of R104 and the table's ILLEGAL. -/
inductive Mnemonic where
  | lda | ldx | ldy | sta | stx | sty | tax | tay
  | txa | tya | tsx | txs
  | adc | sbc
  | ora | and | eor | bit
  | asl | lsr | rol | ror
  | cmp | cpx | cpy
  | pha | pla | php | plp | jsr | rts
  | bpl | bmi | bvc | bvs | bcc | bcs | bne | beq
  | jmp
  | clc | sec | cli | sei | clv | cld | sed | inc
  | dec | inx | iny | dex | dey
  | brk | rti | nop
  | illegal
deriving DecidableEq, Repr

/-- A read-modify-write format as the effective-address format it is. -/
def ModMode.ea : ModMode → EaMode
  | .zp z => .zp z
  | .zpx z => .zpx z
  | .abs w => .abs w
  | .absx w => .absx w

/-- The opcode byte of a row (R104). -/
def Instr.opcode : Instr → Byte
  | .ldaImm _ => 0xA9#8
  | .ldaZp _ => 0xA5#8
  | .ldaZpx _ => 0xB5#8
  | .ldaAbs _ => 0xAD#8
  | .ldaAbsx _ => 0xBD#8
  | .ldaAbsy _ => 0xB9#8
  | .ldaIndx _ => 0xA1#8
  | .ldaIndy _ => 0xB1#8
  | .ldxImm _ => 0xA2#8
  | .ldxZp _ => 0xA6#8
  | .ldxZpy _ => 0xB6#8
  | .ldxAbs _ => 0xAE#8
  | .ldxAbsy _ => 0xBE#8
  | .ldyImm _ => 0xA0#8
  | .ldyZp _ => 0xA4#8
  | .ldyZpx _ => 0xB4#8
  | .ldyAbs _ => 0xAC#8
  | .ldyAbsx _ => 0xBC#8
  | .staZp _ => 0x85#8
  | .staZpx _ => 0x95#8
  | .staAbs _ => 0x8D#8
  | .staAbsx _ => 0x9D#8
  | .staAbsy _ => 0x99#8
  | .staIndx _ => 0x81#8
  | .staIndy _ => 0x91#8
  | .stxZp _ => 0x86#8
  | .stxZpy _ => 0x96#8
  | .stxAbs _ => 0x8E#8
  | .styZp _ => 0x84#8
  | .styZpx _ => 0x94#8
  | .styAbs _ => 0x8C#8
  | .tax => 0xAA#8
  | .tay => 0xA8#8
  | .txa => 0x8A#8
  | .tya => 0x98#8
  | .tsx => 0xBA#8
  | .txs => 0x9A#8
  | .adcImm _ => 0x69#8
  | .adcZp _ => 0x65#8
  | .adcZpx _ => 0x75#8
  | .adcAbs _ => 0x6D#8
  | .adcAbsx _ => 0x7D#8
  | .adcAbsy _ => 0x79#8
  | .adcIndx _ => 0x61#8
  | .adcIndy _ => 0x71#8
  | .sbcImm _ => 0xE9#8
  | .sbcZp _ => 0xE5#8
  | .sbcZpx _ => 0xF5#8
  | .sbcAbs _ => 0xED#8
  | .sbcAbsx _ => 0xFD#8
  | .sbcAbsy _ => 0xF9#8
  | .sbcIndx _ => 0xE1#8
  | .sbcIndy _ => 0xF1#8
  | .oraImm _ => 0x09#8
  | .oraZp _ => 0x05#8
  | .oraZpx _ => 0x15#8
  | .oraAbs _ => 0x0D#8
  | .oraAbsx _ => 0x1D#8
  | .oraAbsy _ => 0x19#8
  | .oraIndx _ => 0x01#8
  | .oraIndy _ => 0x11#8
  | .andImm _ => 0x29#8
  | .andZp _ => 0x25#8
  | .andZpx _ => 0x35#8
  | .andAbs _ => 0x2D#8
  | .andAbsx _ => 0x3D#8
  | .andAbsy _ => 0x39#8
  | .andIndx _ => 0x21#8
  | .andIndy _ => 0x31#8
  | .eorImm _ => 0x49#8
  | .eorZp _ => 0x45#8
  | .eorZpx _ => 0x55#8
  | .eorAbs _ => 0x4D#8
  | .eorAbsx _ => 0x5D#8
  | .eorAbsy _ => 0x59#8
  | .eorIndx _ => 0x41#8
  | .eorIndy _ => 0x51#8
  | .bitZp _ => 0x24#8
  | .bitAbs _ => 0x2C#8
  | .aslAcc => 0x0A#8
  | .aslZp _ => 0x06#8
  | .aslZpx _ => 0x16#8
  | .aslAbs _ => 0x0E#8
  | .aslAbsx _ => 0x1E#8
  | .lsrAcc => 0x4A#8
  | .lsrZp _ => 0x46#8
  | .lsrZpx _ => 0x56#8
  | .lsrAbs _ => 0x4E#8
  | .lsrAbsx _ => 0x5E#8
  | .rolAcc => 0x2A#8
  | .rolZp _ => 0x26#8
  | .rolZpx _ => 0x36#8
  | .rolAbs _ => 0x2E#8
  | .rolAbsx _ => 0x3E#8
  | .rorAcc => 0x6A#8
  | .rorZp _ => 0x66#8
  | .rorZpx _ => 0x76#8
  | .rorAbs _ => 0x6E#8
  | .rorAbsx _ => 0x7E#8
  | .cmpImm _ => 0xC9#8
  | .cmpZp _ => 0xC5#8
  | .cmpZpx _ => 0xD5#8
  | .cmpAbs _ => 0xCD#8
  | .cmpAbsx _ => 0xDD#8
  | .cmpAbsy _ => 0xD9#8
  | .cmpIndx _ => 0xC1#8
  | .cmpIndy _ => 0xD1#8
  | .cpxImm _ => 0xE0#8
  | .cpxZp _ => 0xE4#8
  | .cpxAbs _ => 0xEC#8
  | .cpyImm _ => 0xC0#8
  | .cpyZp _ => 0xC4#8
  | .cpyAbs _ => 0xCC#8
  | .pha => 0x48#8
  | .pla => 0x68#8
  | .php => 0x08#8
  | .plp => 0x28#8
  | .jsr _ => 0x20#8
  | .rts => 0x60#8
  | .bpl _ => 0x10#8
  | .bmi _ => 0x30#8
  | .bvc _ => 0x50#8
  | .bvs _ => 0x70#8
  | .bcc _ => 0x90#8
  | .bcs _ => 0xB0#8
  | .bne _ => 0xD0#8
  | .beq _ => 0xF0#8
  | .jmpAbs _ => 0x4C#8
  | .jmpInd _ => 0x6C#8
  | .clc => 0x18#8
  | .sec => 0x38#8
  | .cli => 0x58#8
  | .sei => 0x78#8
  | .clv => 0xB8#8
  | .cld => 0xD8#8
  | .sed => 0xF8#8
  | .incZp _ => 0xE6#8
  | .incZpx _ => 0xF6#8
  | .incAbs _ => 0xEE#8
  | .incAbsx _ => 0xFE#8
  | .decZp _ => 0xC6#8
  | .decZpx _ => 0xD6#8
  | .decAbs _ => 0xCE#8
  | .decAbsx _ => 0xDE#8
  | .inx => 0xE8#8
  | .iny => 0xC8#8
  | .dex => 0xCA#8
  | .dey => 0x88#8
  | .brk => 0x00#8
  | .rti => 0x40#8
  | .nop => 0xEA#8
  | .illegal op => op

/-- The mnemonic of a row (R104). -/
def Instr.mnemonic : Instr → Mnemonic
  | .ldaImm _ => .lda
  | .ldaZp _ => .lda
  | .ldaZpx _ => .lda
  | .ldaAbs _ => .lda
  | .ldaAbsx _ => .lda
  | .ldaAbsy _ => .lda
  | .ldaIndx _ => .lda
  | .ldaIndy _ => .lda
  | .ldxImm _ => .ldx
  | .ldxZp _ => .ldx
  | .ldxZpy _ => .ldx
  | .ldxAbs _ => .ldx
  | .ldxAbsy _ => .ldx
  | .ldyImm _ => .ldy
  | .ldyZp _ => .ldy
  | .ldyZpx _ => .ldy
  | .ldyAbs _ => .ldy
  | .ldyAbsx _ => .ldy
  | .staZp _ => .sta
  | .staZpx _ => .sta
  | .staAbs _ => .sta
  | .staAbsx _ => .sta
  | .staAbsy _ => .sta
  | .staIndx _ => .sta
  | .staIndy _ => .sta
  | .stxZp _ => .stx
  | .stxZpy _ => .stx
  | .stxAbs _ => .stx
  | .styZp _ => .sty
  | .styZpx _ => .sty
  | .styAbs _ => .sty
  | .tax => .tax
  | .tay => .tay
  | .txa => .txa
  | .tya => .tya
  | .tsx => .tsx
  | .txs => .txs
  | .adcImm _ => .adc
  | .adcZp _ => .adc
  | .adcZpx _ => .adc
  | .adcAbs _ => .adc
  | .adcAbsx _ => .adc
  | .adcAbsy _ => .adc
  | .adcIndx _ => .adc
  | .adcIndy _ => .adc
  | .sbcImm _ => .sbc
  | .sbcZp _ => .sbc
  | .sbcZpx _ => .sbc
  | .sbcAbs _ => .sbc
  | .sbcAbsx _ => .sbc
  | .sbcAbsy _ => .sbc
  | .sbcIndx _ => .sbc
  | .sbcIndy _ => .sbc
  | .oraImm _ => .ora
  | .oraZp _ => .ora
  | .oraZpx _ => .ora
  | .oraAbs _ => .ora
  | .oraAbsx _ => .ora
  | .oraAbsy _ => .ora
  | .oraIndx _ => .ora
  | .oraIndy _ => .ora
  | .andImm _ => .and
  | .andZp _ => .and
  | .andZpx _ => .and
  | .andAbs _ => .and
  | .andAbsx _ => .and
  | .andAbsy _ => .and
  | .andIndx _ => .and
  | .andIndy _ => .and
  | .eorImm _ => .eor
  | .eorZp _ => .eor
  | .eorZpx _ => .eor
  | .eorAbs _ => .eor
  | .eorAbsx _ => .eor
  | .eorAbsy _ => .eor
  | .eorIndx _ => .eor
  | .eorIndy _ => .eor
  | .bitZp _ => .bit
  | .bitAbs _ => .bit
  | .aslAcc => .asl
  | .aslZp _ => .asl
  | .aslZpx _ => .asl
  | .aslAbs _ => .asl
  | .aslAbsx _ => .asl
  | .lsrAcc => .lsr
  | .lsrZp _ => .lsr
  | .lsrZpx _ => .lsr
  | .lsrAbs _ => .lsr
  | .lsrAbsx _ => .lsr
  | .rolAcc => .rol
  | .rolZp _ => .rol
  | .rolZpx _ => .rol
  | .rolAbs _ => .rol
  | .rolAbsx _ => .rol
  | .rorAcc => .ror
  | .rorZp _ => .ror
  | .rorZpx _ => .ror
  | .rorAbs _ => .ror
  | .rorAbsx _ => .ror
  | .cmpImm _ => .cmp
  | .cmpZp _ => .cmp
  | .cmpZpx _ => .cmp
  | .cmpAbs _ => .cmp
  | .cmpAbsx _ => .cmp
  | .cmpAbsy _ => .cmp
  | .cmpIndx _ => .cmp
  | .cmpIndy _ => .cmp
  | .cpxImm _ => .cpx
  | .cpxZp _ => .cpx
  | .cpxAbs _ => .cpx
  | .cpyImm _ => .cpy
  | .cpyZp _ => .cpy
  | .cpyAbs _ => .cpy
  | .pha => .pha
  | .pla => .pla
  | .php => .php
  | .plp => .plp
  | .jsr _ => .jsr
  | .rts => .rts
  | .bpl _ => .bpl
  | .bmi _ => .bmi
  | .bvc _ => .bvc
  | .bvs _ => .bvs
  | .bcc _ => .bcc
  | .bcs _ => .bcs
  | .bne _ => .bne
  | .beq _ => .beq
  | .jmpAbs _ => .jmp
  | .jmpInd _ => .jmp
  | .clc => .clc
  | .sec => .sec
  | .cli => .cli
  | .sei => .sei
  | .clv => .clv
  | .cld => .cld
  | .sed => .sed
  | .incZp _ => .inc
  | .incZpx _ => .inc
  | .incAbs _ => .inc
  | .incAbsx _ => .inc
  | .decZp _ => .dec
  | .decZpx _ => .dec
  | .decAbs _ => .dec
  | .decAbsx _ => .dec
  | .inx => .inx
  | .iny => .iny
  | .dex => .dex
  | .dey => .dey
  | .brk => .brk
  | .rti => .rti
  | .nop => .nop
  | .illegal _ => .illegal

/-- The format of a row with its operand (R101, R104). -/
def Instr.form : Instr → Form
  | .ldaImm imm => .read (.imm imm)
  | .ldaZp zp => .read (.mem (.zp zp))
  | .ldaZpx zp => .read (.mem (.zpx zp))
  | .ldaAbs addr => .read (.mem (.abs addr))
  | .ldaAbsx addr => .read (.mem (.absx addr))
  | .ldaAbsy addr => .read (.mem (.absy addr))
  | .ldaIndx zp => .read (.mem (.indx zp))
  | .ldaIndy zp => .read (.mem (.indy zp))
  | .ldxImm imm => .read (.imm imm)
  | .ldxZp zp => .read (.mem (.zp zp))
  | .ldxZpy zp => .read (.mem (.zpy zp))
  | .ldxAbs addr => .read (.mem (.abs addr))
  | .ldxAbsy addr => .read (.mem (.absy addr))
  | .ldyImm imm => .read (.imm imm)
  | .ldyZp zp => .read (.mem (.zp zp))
  | .ldyZpx zp => .read (.mem (.zpx zp))
  | .ldyAbs addr => .read (.mem (.abs addr))
  | .ldyAbsx addr => .read (.mem (.absx addr))
  | .staZp zp => .store (.zp zp)
  | .staZpx zp => .store (.zpx zp)
  | .staAbs addr => .store (.abs addr)
  | .staAbsx addr => .store (.absx addr)
  | .staAbsy addr => .store (.absy addr)
  | .staIndx zp => .store (.indx zp)
  | .staIndy zp => .store (.indy zp)
  | .stxZp zp => .store (.zp zp)
  | .stxZpy zp => .store (.zpy zp)
  | .stxAbs addr => .store (.abs addr)
  | .styZp zp => .store (.zp zp)
  | .styZpx zp => .store (.zpx zp)
  | .styAbs addr => .store (.abs addr)
  | .tax => .implied
  | .tay => .implied
  | .txa => .implied
  | .tya => .implied
  | .tsx => .implied
  | .txs => .implied
  | .adcImm imm => .read (.imm imm)
  | .adcZp zp => .read (.mem (.zp zp))
  | .adcZpx zp => .read (.mem (.zpx zp))
  | .adcAbs addr => .read (.mem (.abs addr))
  | .adcAbsx addr => .read (.mem (.absx addr))
  | .adcAbsy addr => .read (.mem (.absy addr))
  | .adcIndx zp => .read (.mem (.indx zp))
  | .adcIndy zp => .read (.mem (.indy zp))
  | .sbcImm imm => .read (.imm imm)
  | .sbcZp zp => .read (.mem (.zp zp))
  | .sbcZpx zp => .read (.mem (.zpx zp))
  | .sbcAbs addr => .read (.mem (.abs addr))
  | .sbcAbsx addr => .read (.mem (.absx addr))
  | .sbcAbsy addr => .read (.mem (.absy addr))
  | .sbcIndx zp => .read (.mem (.indx zp))
  | .sbcIndy zp => .read (.mem (.indy zp))
  | .oraImm imm => .read (.imm imm)
  | .oraZp zp => .read (.mem (.zp zp))
  | .oraZpx zp => .read (.mem (.zpx zp))
  | .oraAbs addr => .read (.mem (.abs addr))
  | .oraAbsx addr => .read (.mem (.absx addr))
  | .oraAbsy addr => .read (.mem (.absy addr))
  | .oraIndx zp => .read (.mem (.indx zp))
  | .oraIndy zp => .read (.mem (.indy zp))
  | .andImm imm => .read (.imm imm)
  | .andZp zp => .read (.mem (.zp zp))
  | .andZpx zp => .read (.mem (.zpx zp))
  | .andAbs addr => .read (.mem (.abs addr))
  | .andAbsx addr => .read (.mem (.absx addr))
  | .andAbsy addr => .read (.mem (.absy addr))
  | .andIndx zp => .read (.mem (.indx zp))
  | .andIndy zp => .read (.mem (.indy zp))
  | .eorImm imm => .read (.imm imm)
  | .eorZp zp => .read (.mem (.zp zp))
  | .eorZpx zp => .read (.mem (.zpx zp))
  | .eorAbs addr => .read (.mem (.abs addr))
  | .eorAbsx addr => .read (.mem (.absx addr))
  | .eorAbsy addr => .read (.mem (.absy addr))
  | .eorIndx zp => .read (.mem (.indx zp))
  | .eorIndy zp => .read (.mem (.indy zp))
  | .bitZp zp => .read (.mem (.zp zp))
  | .bitAbs addr => .read (.mem (.abs addr))
  | .aslAcc => .modify .acc
  | .aslZp zp => .modify (.mem (.zp zp))
  | .aslZpx zp => .modify (.mem (.zpx zp))
  | .aslAbs addr => .modify (.mem (.abs addr))
  | .aslAbsx addr => .modify (.mem (.absx addr))
  | .lsrAcc => .modify .acc
  | .lsrZp zp => .modify (.mem (.zp zp))
  | .lsrZpx zp => .modify (.mem (.zpx zp))
  | .lsrAbs addr => .modify (.mem (.abs addr))
  | .lsrAbsx addr => .modify (.mem (.absx addr))
  | .rolAcc => .modify .acc
  | .rolZp zp => .modify (.mem (.zp zp))
  | .rolZpx zp => .modify (.mem (.zpx zp))
  | .rolAbs addr => .modify (.mem (.abs addr))
  | .rolAbsx addr => .modify (.mem (.absx addr))
  | .rorAcc => .modify .acc
  | .rorZp zp => .modify (.mem (.zp zp))
  | .rorZpx zp => .modify (.mem (.zpx zp))
  | .rorAbs addr => .modify (.mem (.abs addr))
  | .rorAbsx addr => .modify (.mem (.absx addr))
  | .cmpImm imm => .read (.imm imm)
  | .cmpZp zp => .read (.mem (.zp zp))
  | .cmpZpx zp => .read (.mem (.zpx zp))
  | .cmpAbs addr => .read (.mem (.abs addr))
  | .cmpAbsx addr => .read (.mem (.absx addr))
  | .cmpAbsy addr => .read (.mem (.absy addr))
  | .cmpIndx zp => .read (.mem (.indx zp))
  | .cmpIndy zp => .read (.mem (.indy zp))
  | .cpxImm imm => .read (.imm imm)
  | .cpxZp zp => .read (.mem (.zp zp))
  | .cpxAbs addr => .read (.mem (.abs addr))
  | .cpyImm imm => .read (.imm imm)
  | .cpyZp zp => .read (.mem (.zp zp))
  | .cpyAbs addr => .read (.mem (.abs addr))
  | .pha => .implied
  | .pla => .implied
  | .php => .implied
  | .plp => .implied
  | .jsr addr => .absolute addr
  | .rts => .implied
  | .bpl off => .relative off
  | .bmi off => .relative off
  | .bvc off => .relative off
  | .bvs off => .relative off
  | .bcc off => .relative off
  | .bcs off => .relative off
  | .bne off => .relative off
  | .beq off => .relative off
  | .jmpAbs addr => .absolute addr
  | .jmpInd ptr => .indirect ptr
  | .clc => .implied
  | .sec => .implied
  | .cli => .implied
  | .sei => .implied
  | .clv => .implied
  | .cld => .implied
  | .sed => .implied
  | .incZp zp => .modify (.mem (.zp zp))
  | .incZpx zp => .modify (.mem (.zpx zp))
  | .incAbs addr => .modify (.mem (.abs addr))
  | .incAbsx addr => .modify (.mem (.absx addr))
  | .decZp zp => .modify (.mem (.zp zp))
  | .decZpx zp => .modify (.mem (.zpx zp))
  | .decAbs addr => .modify (.mem (.abs addr))
  | .decAbsx addr => .modify (.mem (.absx addr))
  | .inx => .implied
  | .iny => .implied
  | .dex => .implied
  | .dey => .implied
  | .brk => .implied
  | .rti => .implied
  | .nop => .implied
  | .illegal _ => .implied

end Sys2Proof
end

