-- ==== Sys2Proof/Config.lean ====
section
/-! DEFINITION. What an implementation fixes: the constants of spec/00_scope.md section 4, and the OPEN parameters as
constants without a body, about which nothing can be proved (logs 7, 8, 9, 13). -/

namespace Sys2Proof.Config

/-- The read sentinel: unrouted I-O, unimplemented chip registers, out-of-range addresses (R68, R75, R327). -/
def sentinel : Byte := 0xFF#8

/-- `P_RESET`: the Unused and Break bits (R45, D8). -/
def pReset : Byte := 0x30#8

/-- `IRQ_ENTRY_CYCLES` (R120, R395, D7). -/
def irqEntryCycles : Nat := 7

/-- `TIMER_RESET_VALUE` of latches and counters (R46, D24). -/
def timerResetValue : BitVec 16 := 0xFFFF#16

/-- `HORIZON`: the deadline of an empty queue (R355, D26). -/
def horizon : Nat := 2 ^ 63 - 1

/-- The reset vector's address (R381). -/
def resetVector : Addr := 0xFFFC#16

/-- The interrupt vector's address, used by BRK too (R260, R276). -/
def irqVector : Addr := 0xFFFE#16

/-- Bytes in the kernel ROM image (R10). -/
def kernelSize : Nat := 8192

/-- Bytes in the BASIC ROM image (R10). -/
def basicSize : Nat := 8192

/-- Bytes in the character ROM image (R10). -/
def charSize : Nat := 4096

/-- DESIGN CHOICE (logs 4, 5; unsafe): what a byte of RAM or of a ROM image that nothing has written reads as. -/
def unlistedByte : Byte := 0x00#8

/-- OPEN parameter `JMP_IND_WRAP` (R230, D5): no body, so a claim holds for both values (log 7). -/
opaque jmpIndWrap : Bool

/-- OPEN `VideoRead8` (R14, D17): the byte the video collaborator answers to draw number `draw` at `addr` (log 8). -/
opaque videoByte (draw : Nat) (addr : Addr) : Byte

/-- OPEN `PORT_PINS` of a port with something attached (R310, R312, D25): the pins at draw number `draw` (log 9). -/
opaque pinByte (draw : Nat) : Byte

end Sys2Proof.Config
end

