-- ==== Sys2Proof/Machine/Memory.lean ====
section
/-! DEFINITION. A byte store as plain data: (address, byte) pairs, addresses strictly rising, no entry equal to what an
unlisted address reads as. RAM (R31) and the three ROM images (R32) are such stores. -/

namespace Sys2Proof.Machine

/-- A byte store in the canonical form that `Memory.wf` states. -/
abbrev Memory := List Host.Cell

/-- The byte at an address; an address that is not listed reads as `Config.unlistedByte` (logs 4, 5). -/
def Memory.read : Memory → Nat → Byte
  | [], _ => Config.unlistedByte
  | (b, v) :: m, a => if b = a then v else Memory.read m a

/-- One byte stored, the canonical form kept: writing the unlisted byte removes the entry. -/
def Memory.write : Memory → Nat → Byte → Memory
  | [], a, v => if v = Config.unlistedByte then [] else [(a, v)]
  | (b, w) :: m, a, v =>
    if b < a then (b, w) :: Memory.write m a v
    else if b = a then (if v = Config.unlistedByte then m else (a, v) :: m)
    else (if v = Config.unlistedByte then (b, w) :: m else (a, v) :: (b, w) :: m)

/-- The canonical form of a store of `size` bytes: addresses strictly rising and below `size`, no unlisted byte listed. -/
abbrev Memory.wf (size : Nat) (m : Memory) : Prop :=
  m.Pairwise (fun c d => c.1 < d.1) ∧ ∀ c ∈ m, c.1 < size ∧ c.2 ≠ Config.unlistedByte

end Sys2Proof.Machine
end

