-- ==== Sys2Proof/Machine/State.lean ====
section
/-! DEFINITION. The state of the block as plain data (spec/10_state.md), the reasons a step can stop, and the machine
after power-on. -/

namespace Sys2Proof.Machine

/-- The two TimerChip instances (R34 to R38). -/
inductive ChipId where
  | zero
  | one
deriving DecidableEq, Repr

/-- The two timers of a chip (R35). -/
inductive TimerId where
  | a
  | b
deriving DecidableEq, Repr

/-- One timer: live down-counter and reload latch (R35), control register `cra` / `crb` with bit 4 never stored (R36),
and the last-update reference of the lazy update (R38). -/
structure Timer where
  counter : BitVec 16
  latch : BitVec 16
  cr : Byte
  last : Nat
deriving DecidableEq, Repr

/-- The environment's pins at a port, an input of the block (R310, R312; log 9): a level the environment holds (0xFF when
nothing is attached), or a free value drawn at every read. -/
inductive PinInput where
  | level (pins : Byte)
  | drawn
deriving DecidableEq, Repr

/-- One TimerChip (R34 to R38). -/
structure TimerChip where
  pra : Byte
  prb : Byte
  ddra : Byte
  ddrb : Byte
  prevPra : Byte
  prevPrb : Byte
  ta : Timer
  tb : Timer
  icrFlags : BitVec 5
  icrMask : BitVec 5
  pinsA : PinInput
  pinsB : PinInput
deriving DecidableEq, Repr

/-- A scheduler request: `req_ta` or `req_tb` of a chip (R38, R40). -/
structure Request where
  chip : ChipId
  timer : TimerId
deriving DecidableEq, Repr

/-- An operation the block drives outward (R6; log 18). None changes state of the block (R14, R312). -/
inductive Output where
  /-- `VideoRead8(addr)` (R14, R75). -/
  | videoRead (addr : Addr)
  /-- `VideoWrite8(addr, byte)` (R14, R75). -/
  | videoWrite (addr : Addr) (v : Byte)
  /-- `VideoAdvance(cycles)`, after a successful `Step` (R14, R360). -/
  | videoAdvance (cycles : Nat)
  /-- `PreReadHook(k)`, with what the environment chooses the pins from (R310, R312). -/
  | preRead (k : ChipId) (pra prb ddra ddrb : Byte)
  /-- `PostWriteHook(k)`, with the new and the previous port values (R311, R312). -/
  | postWrite (k : ChipId) (pra prb prevPra prevPrb : Byte)
deriving DecidableEq, Repr

/-- The whole block. -/
structure State where
  /-- `A`, `X`, `Y` (R22). -/
  a : Byte
  x : Byte
  y : Byte
  /-- `S`: the stack is at `0x0100 + S` (R23). -/
  sp : Byte
  /-- `P`: N V U B D I Z C, bits 7 to 0 (R24, R25). -/
  p : Byte
  /-- `PC` (R21). -/
  pc : Addr
  /-- The cycle counter (R27), unbounded (log 6). -/
  cycles : Nat
  running : Bool
  irqPending : Bool
  /-- One bit per source (R30). -/
  irqSources : Byte
  /-- The 64K array (R31). -/
  ram : Memory
  /-- The bank-control latches at addresses 0 and 1 (R33). -/
  bankDdr : Byte
  bankPort : Byte
  chip0 : TimerChip
  chip1 : TimerChip
  /-- The scheduler's queue, ascending by target cycle (R39). -/
  queue : List (Nat × Request)
  /-- The three ROM images, constants of a run (R32; log 4). -/
  romKernel : Memory
  romBasic : Memory
  romChar : Memory
  /-- The model's own: how many free environment values have been drawn (log 8). -/
  draws : Nat
  /-- The model's own: the operations driven outward since power-on, the latest first (R6; log 18). -/
  outputs : List Output
deriving DecidableEq, Repr

/-- Why a step stops for good. -/
inductive Fault where
  /-- Raised by `step` when `running` is false: `Step` returns false and leaves the state unchanged, the terminal state of
  an unassigned opcode (R120 (a), R263, R293; log 2). Safe: the machine does nothing more until `Reset`. -/
  | halted
deriving DecidableEq, Repr

/-- Why an operation has no meaning. -/
inductive Refusal where
  /-- Raised by an arm of `exec` whose instruction has no meaning yet. Safe. -/
  | notModelled (mnemonic : String)
  /-- Raised by the host operation `hostReset` outside the condition of R382 (D34, U16; log 12). Safe. -/
  | warmResetUndefined
  /-- Raised by the host operations `hostRequestIrq` and `hostUnrequestIrq` for a source above 7 (D39, U17; log 12). Safe. -/
  | noSuchIrqSource (k : Nat)
deriving DecidableEq, Repr

/-- A timer at power-on (R46, D24). -/
def Timer.powerOn : Timer :=
  { counter := Config.timerResetValue, latch := Config.timerResetValue, cr := 0, last := 0 }

/-- A TimerChip at power-on (R46), nothing attached to its ports (log 9). -/
def TimerChip.powerOn : TimerChip :=
  { pra := 0, prb := 0, ddra := 0, ddrb := 0, prevPra := 0, prevPrb := 0, ta := .powerOn, tb := .powerOn
    icrFlags := 0, icrMask := 0, pinsA := .level 0xFF#8, pinsB := .level 0xFF#8 }

/-- `PowerOn(INIT_RAM, ROM_KERNEL, ROM_BASIC, ROM_CHAR)` (R380, R46), which ends in `Reset` (R45): with both bank latches 0
the vector is read from the kernel image, low byte at offset 0x1FFC (R380). -/
def State.powerOn (initRam kernel basic char : Memory) : State :=
  { a := 0, x := 0, y := 0, sp := 0xFF#8, p := Config.pReset
    pc := word (kernel.read 0x1FFC) (kernel.read 0x1FFD)
    cycles := 0, running := true, irqPending := false, irqSources := 0
    ram := initRam, bankDdr := 0, bankPort := 0, chip0 := .powerOn, chip1 := .powerOn, queue := []
    romKernel := kernel, romBasic := basic, romChar := char, draws := 0, outputs := [] }

/-- DESIGN CHOICE (log 4; unsafe): the kernel image of the spec's default start state, zero but for its reset vector 0xC000 and
interrupt vector 0xC100 (R384; spec/95_test_vectors.md). -/
def defaultKernel : Memory := [(0x1FFD, 0xC0#8), (0x1FFF, 0xC1#8)]

/-- The machine right after reset: `PowerOn` on the images of the spec's default start state (log 4), `INIT_RAM` all zero
(log 5). -/
def State.reset : State := State.powerOn [] defaultKernel [] []

end Sys2Proof.Machine
end

