-- ==== Sys2Proof/Machine/Flags.lean ====
section
/-! DEFINITION. The status register (R24 to R26, R139), the interrupt latch that depends on it (R274), and the ALU's flag
computations (R170, R190 to R194, R200). -/

namespace Sys2Proof.Machine

/-- The named bits of `P` (R25). -/
inductive Flag where
  | n
  | v
  | u
  | b
  | d
  | i
  | z
  | c
deriving DecidableEq, Repr

/-- The bit of `P` a flag is (R25). -/
def Flag.bit : Flag → Nat
  | .n => 7
  | .v => 6
  | .u => 5
  | .b => 4
  | .d => 3
  | .i => 2
  | .z => 1
  | .c => 0

/-- The mask of a flag (R25). -/
def Flag.mask : Flag → Byte
  | .n => 0x80#8
  | .v => 0x40#8
  | .u => 0x20#8
  | .b => 0x10#8
  | .d => 0x08#8
  | .i => 0x04#8
  | .z => 0x02#8
  | .c => 0x01#8

/-- A flag's value in a status byte. -/
def statusGet (p : Byte) (f : Flag) : Bool := p.getLsbD f.bit

/-- A status byte with one flag set to a Boolean (a Boolean stored into a bit is 1 for true). -/
def statusSet (p : Byte) (f : Flag) (b : Bool) : Byte := if b then p ||| f.mask else p &&& ~~~f.mask

/-- A flag of the machine. -/
def State.flag (s : State) (f : Flag) : Bool := statusGet s.p f

/-- The machine with one flag set. -/
def State.setFlag (s : State) (f : Flag) (b : Bool) : State := { s with p := statusSet s.p f b }

/-- `SetNZ(v)`: Zero from the 8-bit result, Negative from its bit 7; no other flag (R139). -/
def State.setNZ (s : State) (v : Byte) : State := (s.setFlag .z (v == 0)).setFlag .n v.msb

/-- `RecomputeIrq()`: the latch is up exactly when a source is asserted and I is clear, in both directions (R274, D10). -/
def State.recomputeIrq (s : State) : State := { s with irqPending := s.irqSources != 0 && !s.flag .i }

/-- `P.I` changed by an instruction, which runs `RecomputeIrq()` (R275). -/
def State.setInterruptDisable (s : State) (b : Bool) : State := (s.setFlag .i b).recomputeIrq

/-- `WriteP(v)`: bit 5 forced, then `RecomputeIrq()` (R24, R142). -/
def State.writeP (s : State) (v : Byte) : State := State.recomputeIrq { s with p := v ||| 0x20#8 }

/-- The byte PHP and BRK push: Break and Unused set in the copy (R212, R260). -/
def State.statusForSoftware (s : State) : Byte := s.p ||| 0x10#8 ||| 0x20#8

/-- The byte interrupt entry pushes: Break clear and Unused set in the copy (R276). -/
def State.statusForIrq (s : State) : Byte := (s.p &&& ~~~0x10#8) ||| 0x20#8

/-- What the adder gives (R170). -/
structure Sum where
  result : Byte
  carry : Bool
  overflow : Bool
deriving DecidableEq, Repr

/-- `Add8(a, m, c)`: the raw 9-bit sum, its low byte, the carry out of bit 7, and overflow when the carry into bit 7 differs
from the carry out of it (R170). -/
def add8 (a m : Byte) (c : Bool) : Sum :=
  let t := a.toNat + m.toNat + c.toNat
  let c6 := (a.toNat % 128 + m.toNat % 128 + c.toNat) / 128
  let c7 := t / 256
  { result := BitVec.ofNat 8 t, carry := c7 != 0, overflow := c6 != c7 }

/-- The operand SBC and the compares add: `M ^ 0xFF` (R172, R200). -/
def complement (m : Byte) : Byte := m ^^^ 0xFF#8

/-- What a shift or rotate gives: the result and the ejected bit (R190). -/
structure Shifted where
  result : Byte
  carry : Bool
deriving DecidableEq, Repr

/-- ASL's function (R191). -/
def shiftLeft (v : Byte) (_cin : Bool) : Shifted := { result := v <<< 1, carry := v.getLsbD 7 }

/-- LSR's function (R192). -/
def shiftRight (v : Byte) (_cin : Bool) : Shifted := { result := v >>> 1, carry := v.getLsbD 0 }

/-- ROL's function: the old carry enters bit 0 (R193). -/
def rotateLeft (v : Byte) (cin : Bool) : Shifted :=
  { result := (v <<< 1) ||| (if cin then 0x01#8 else 0), carry := v.getLsbD 7 }

/-- ROR's function: the old carry enters bit 7 (R194). -/
def rotateRight (v : Byte) (cin : Bool) : Shifted :=
  { result := (v >>> 1) ||| (if cin then 0x80#8 else 0), carry := v.getLsbD 0 }

/-- `Compare(reg, M)`: carry and N, Z of `reg - M`, no register and no V written (R200). -/
def State.compare (s : State) (reg m : Byte) : State :=
  let r := add8 reg (complement m) true
  (s.setFlag .c r.carry).setNZ r.result

end Sys2Proof.Machine
end

