-- ==== Sys2Proof/Machine/Irq.lean ====
section
/-! DEFINITION. Interrupt sources and the request latch (R271 to R274). -/

namespace Sys2Proof.Machine

/-- The source a chip drives: chip k drives source k (R38, R271, D11). -/
def ChipId.source : ChipId → Fin 8
  | .zero => 0
  | .one => 1

/-- `1 << k`. -/
def sourceMask (k : Fin 8) : Byte := 1#8 <<< k.val

/-- `RequestIrq(k)` (R272). -/
def State.requestIrq (s : State) (k : Fin 8) : State :=
  State.recomputeIrq { s with irqSources := s.irqSources ||| sourceMask k }

/-- `UnrequestIrq(k)` (R273). -/
def State.unrequestIrq (s : State) (k : Fin 8) : State :=
  State.recomputeIrq { s with irqSources := s.irqSources &&& ~~~sourceMask k }

end Sys2Proof.Machine
end

