-- ==== Sys2Proof/Machine/Outputs.lean ====
section
/-! DEFINITION. The operations the block drives outward, as a trace (R6, R14, R312; log 18). Nothing in the block reads it. -/

namespace Sys2Proof.Machine

/-- One more operation driven outward. -/
def State.emit (s : State) (o : Output) : State := { s with outputs := o :: s.outputs }

end Sys2Proof.Machine
end

