-- ==== Sys2Proof/Machine/Queue.lean ====
section
/-! DEFINITION. The EventScheduler's queue (R350 to R353, R355): entries ascending by target, equal targets in the order they
were queued. A request's `queued` flag is whether an entry refers to it (R40, R356; log 10). -/

namespace Sys2Proof.Machine

/-- `request.queued` (R40). -/
def State.queued (s : State) (r : Request) : Bool := s.queue.any (fun e => e.2 == r)

/-- The queue without the entry of a request. -/
def queueRemove (r : Request) (q : List (Nat × Request)) : List (Nat × Request) := q.filter (fun e => e.2 != r)

/-- Sorted position: after every entry whose target is less or equal, before every greater one (R352). -/
def queueInsert (target : Nat) (r : Request) : List (Nat × Request) → List (Nat × Request)
  | [] => [(target, r)]
  | e :: q => if e.1 ≤ target then e :: queueInsert target r q else (target, r) :: e :: q

/-- `Queue(targetCycle, request)`: a prior entry is removed first (R351). -/
def State.enqueue (s : State) (target : Nat) (r : Request) : State :=
  { s with queue := queueInsert target r (queueRemove r s.queue) }

/-- `Cancel(request)`: removes the entry if present (R353). -/
def State.cancel (s : State) (r : Request) : State := { s with queue := queueRemove r s.queue }

/-- `NextDeadline()`: the earliest target, or the horizon (R355). -/
def State.nextDeadline (s : State) : Nat :=
  match s.queue with
  | [] => Config.horizon
  | e :: _ => e.1

end Sys2Proof.Machine
end

