-- ==== Sys2Proof/Machine/TimerChip.lean ====
section
/-! DEFINITION. The TimerChip: interrupt register, counting, arming, register file (spec/61_timer_chip.md). `now` of the rules is
`cycles`, which does not move during a step (R124, D30). -/

namespace Sys2Proof.Machine

/-- The chip of an instance. -/
def State.chip (s : State) : ChipId → TimerChip
  | .zero => s.chip0
  | .one => s.chip1

/-- One chip replaced. -/
def State.setChip (s : State) (k : ChipId) (c : TimerChip) : State :=
  match k with
  | .zero => { s with chip0 := c }
  | .one => { s with chip1 := c }

/-- A timer of a chip. -/
def TimerChip.timer (c : TimerChip) : TimerId → Timer
  | .a => c.ta
  | .b => c.tb

/-- One timer of a chip replaced. -/
def TimerChip.setTimer (c : TimerChip) (t : TimerId) (tm : Timer) : TimerChip :=
  match t with
  | .a => { c with ta := tm }
  | .b => { c with tb := tm }

/-- A timer of the block. -/
def State.timer (s : State) (k : ChipId) (t : TimerId) : Timer := (s.chip k).timer t

/-- One timer of the block replaced. -/
def State.setTimer (s : State) (k : ChipId) (t : TimerId) (tm : Timer) : State :=
  s.setChip k ((s.chip k).setTimer t tm)

/-! Control register fields (R304). -/

/-- Bit 0, start. -/
def Timer.started (tm : Timer) : Bool := tm.cr.getLsbD 0

/-- Bit 3, run mode: one-shot. -/
def Timer.oneShot (tm : Timer) : Bool := tm.cr.getLsbD 3

/-- `ClockSourced(t)`: `cra[5] == 0`, `crb[6:5] == 0b00` (R321). -/
def clockSourced (t : TimerId) (tm : Timer) : Bool :=
  match t with
  | .a => !tm.cr.getLsbD 5
  | .b => !tm.cr.getLsbD 6 && !tm.cr.getLsbD 5

/-- A timer that counts the system clock: started and clock-sourced (R320, R325). -/
def counting (t : TimerId) (tm : Timer) : Bool := tm.started && clockSourced t tm

/-- `BCountsA`: timer B is started and `crb[6:5] == 0b10` (R321). -/
def TimerChip.bCountsA (c : TimerChip) : Bool := c.tb.started && (c.tb.cr.getLsbD 6 && !c.tb.cr.getLsbD 5)

/-! Interrupt register (R305, R330). -/

/-- The flag bit of a timer (R305). -/
def TimerId.flag : TimerId → BitVec 5
  | .a => 0b00001#5
  | .b => 0b00010#5

/-- The chip's interrupt output: `(icr_flags & icr_mask) != 0` (R37, R330). -/
def TimerChip.line (c : TimerChip) : Bool := (c.icrFlags &&& c.icrMask) != 0

/-- `SetIcr(flags', mask')`: the output's rise requests the chip's source, its fall withdraws it (R330). -/
def State.setIcr (s : State) (k : ChipId) (flags mask : BitVec 5) : State :=
  let c := s.chip k
  let c' : TimerChip := { c with icrFlags := flags, icrMask := mask }
  let s' := s.setChip k c'
  if c'.line && !c.line then s'.requestIrq k.source
  else if c.line && !c'.line then s'.unrequestIrq k.source
  else s'

/-! Counting (R320 to R322, R325, R326). -/

/-- A timer after `counts` counts, and how many underflows they are (R322). -/
def Timer.advance (tm : Timer) (counts : Nat) : Timer × Nat :=
  if counts ≤ tm.counter.toNat then
    ({ tm with counter := BitVec.ofNat 16 (tm.counter.toNat - counts) }, 0)
  else if tm.oneShot then
    ({ tm with counter := tm.latch, cr := tm.cr &&& 0xFE#8 }, 1)
  else
    let rest := counts - (tm.counter.toNat + 1)
    let period := tm.latch.toNat + 1
    ({ tm with counter := BitVec.ofNat 16 (tm.latch.toNat - rest % period) }, 1 + rest / period)

/-- `AdvanceTimer(t, counts)` without the cascade: the timer's own counter, start bit and flag (R322); also the number of
underflows. -/
def State.advanceOne (s : State) (k : ChipId) (t : TimerId) (counts : Nat) : State × Nat :=
  let r := (s.timer k t).advance counts
  let s' := s.setTimer k t r.1
  (if r.2 = 0 then s' else s'.setIcr k ((s'.chip k).icrFlags ||| t.flag) (s'.chip k).icrMask, r.2)

/-- `AdvanceTimer(t, counts)`: timer A's underflows are forwarded to timer B if B counts them (R322, R332). -/
def State.advanceTimer (s : State) (k : ChipId) (t : TimerId) (counts : Nat) : State :=
  let r := s.advanceOne k t counts
  match t with
  | .a => if r.2 ≠ 0 ∧ (r.1.chip k).bCountsA then (r.1.advanceOne k .b r.2).1 else r.1
  | .b => r.1

/-- `UpdateTimer(t)`, the lazy update; `cycles` is never below the reference (R320; log 17). -/
def State.updateTimer (s : State) (k : ChipId) (t : TimerId) : State :=
  let tm := s.timer k t
  if counting t tm then
    (s.setTimer k t { tm with last := s.cycles }).advanceTimer k t (s.cycles - tm.last)
  else s

/-- `StartTimer(t)`: arm the deadline, or cancel it (R325). -/
def State.startTimer (s : State) (k : ChipId) (t : TimerId) : State :=
  let tm := s.timer k t
  if counting t tm then
    (s.setTimer k t { tm with last := s.cycles }).enqueue (s.cycles + tm.counter.toNat + 1) ⟨k, t⟩
  else s.cancel ⟨k, t⟩

/-- `TimerCallback(k, t)`, the callback of a request (R326). -/
def State.timerCallback (s : State) (r : Request) : State :=
  (s.updateTimer r.chip r.timer).startTimer r.chip r.timer

/-! Ports (R310, R311). -/

/-- The pins of a port as the environment gives them at this read; a draw advances the counter of draws (R312; log 9). -/
def State.samplePins (s : State) (pins : PinInput) : Byte × State :=
  match pins with
  | .level v => (v, s)
  | .drawn => (Config.pinByte s.draws, { s with draws := s.draws + 1 })

/-- `PreReadHook(k)`: the environment sees the data and direction registers of the chip (R310, R312; log 18). -/
def State.preReadHook (s : State) (k : ChipId) : State :=
  s.emit (.preRead k (s.chip k).pra (s.chip k).prb (s.chip k).ddra (s.chip k).ddrb)

/-- `PostWriteHook(k)`: the environment sees the new port values, and the previous ones, which the snapshot still holds (R311, R312;
log 18). -/
def State.postWriteHook (s : State) (k : ChipId) : State :=
  s.emit (.postWrite k (s.chip k).pra (s.chip k).prb (s.chip k).prevPra (s.chip k).prevPrb)

/-- A port read: output bits from the latch, input bits from the pins (R310). -/
def mixPort (pr ddr pins : Byte) : Byte := (pr &&& ddr) ||| (pins &&& ~~~ddr)

/-- After a port write the snapshot holds the new port values (R311). -/
def TimerChip.snapshot (c : TimerChip) : TimerChip := { c with prevPra := c.pra, prevPrb := c.prb }

/-- A port write that gives the chip its new data registers: they are stored, the hook runs, and then the snapshot is taken (R311). -/
def State.writePort (s : State) (k : ChipId) (c : TimerChip) : State :=
  ((s.setChip k c).postWriteHook k).setChip k c.snapshot

/-! Register file (R300 to R303). -/

/-- The registers of R301. -/
inductive ChipReg where
  | portA
  | portB
  | ddrA
  | ddrB
  | timerLow (t : TimerId)
  | timerHigh (t : TimerId)
  | unimplemented
  | icr
  | control (t : TimerId)
deriving DecidableEq, Repr

/-- The register at a 4-bit index (R301). -/
def ChipReg.ofIndex : Nat → ChipReg
  | 0 => .portA
  | 1 => .portB
  | 2 => .ddrA
  | 3 => .ddrB
  | 4 => .timerLow .a
  | 5 => .timerHigh .a
  | 6 => .timerLow .b
  | 7 => .timerHigh .b
  | 13 => .icr
  | 14 => .control .a
  | 15 => .control .b
  | _ => .unimplemented

/-- What reading register 13 returns: the flags, with bit 7 the interrupt output (R316). -/
def TimerChip.icrByte (c : TimerChip) : Byte := c.icrFlags.setWidth 8 ||| (if c.line then 0x80#8 else 0)

/-- `ReadReg(r)` (R302): the byte and the state after the read's effects. -/
def State.readReg (s : State) (k : ChipId) (r : ChipReg) : Byte × State :=
  match r with
  | .portA => let q := (s.preReadHook k).samplePins (s.chip k).pinsA; (mixPort (s.chip k).pra (s.chip k).ddra q.1, q.2)
  | .portB => let q := (s.preReadHook k).samplePins (s.chip k).pinsB; (mixPort (s.chip k).prb (s.chip k).ddrb q.1, q.2)
  | .ddrA => ((s.chip k).ddra, s)
  | .ddrB => ((s.chip k).ddrb, s)
  | .timerLow t => let s' := s.updateTimer k t; (loByte (s'.timer k t).counter, s')
  | .timerHigh t => let s' := s.updateTimer k t; (hiByte (s'.timer k t).counter, s')
  | .unimplemented => (Config.sentinel, s)
  | .icr => ((s.chip k).icrByte, s.setIcr k 0 (s.chip k).icrMask)
  | .control t => let s' := s.updateTimer k t; ((s'.timer k t).cr, s')

/-- Write of a latch's low byte (R315). -/
def Timer.writeLow (tm : Timer) (v : Byte) : Timer := { tm with latch := word v (hiByte tm.latch) }

/-- Write of a latch's high byte: a stopped timer loads its counter from the new latch (R315). -/
def Timer.writeHigh (tm : Timer) (v : Byte) : Timer :=
  let latch := word (loByte tm.latch) v
  if tm.started then { tm with latch := latch } else { tm with latch := latch, counter := latch }

/-- Write of a control register: the force-load bit is not stored, and loads the counter (R319). -/
def Timer.writeControl (tm : Timer) (v : Byte) : Timer :=
  let tm' := { tm with cr := v &&& 0xEF#8 }
  if v.getLsbD 4 then { tm' with counter := tm.latch } else tm'

/-- The mask after a write of register 13: bit 7 sets or clears the named bits (R317). -/
def maskAfterWrite (mask : BitVec 5) (v : Byte) : BitVec 5 :=
  if v.getLsbD 7 then mask ||| v.setWidth 5 else mask &&& ~~~(v.setWidth 5)

/-- `WriteReg(r, v)` (R303). -/
def State.writeReg (s : State) (k : ChipId) (r : ChipReg) (v : Byte) : State :=
  match r with
  | .portA => s.writePort k { s.chip k with pra := v }
  | .portB => s.writePort k { s.chip k with prb := v }
  | .ddrA => s.setChip k { s.chip k with ddra := v }
  | .ddrB => s.setChip k { s.chip k with ddrb := v }
  | .timerLow t => let s' := s.updateTimer k t; s'.setTimer k t ((s'.timer k t).writeLow v)
  | .timerHigh t => let s' := s.updateTimer k t; s'.setTimer k t ((s'.timer k t).writeHigh v)
  | .unimplemented => s
  | .icr => s.setIcr k (s.chip k).icrFlags (maskAfterWrite (s.chip k).icrMask v)
  | .control t =>
    let s' := s.updateTimer k t
    (s'.setTimer k t ((s'.timer k t).writeControl v)).startTimer k t

end Sys2Proof.Machine
end

