-- ==== Sys2Proof/Machine/Bus.lean ====
section
/-! DEFINITION. The AddressSpace (spec/20_memory.md): bank control, `Read`, `Write`, I-O routing. -/

namespace Sys2Proof.Machine

/-- The effective port value: undriven bits are 1 (R63). -/
def State.effPort (s : State) : Byte := (s.bankPort &&& s.bankDdr) ||| ~~~s.bankDdr

/-- LORAM, bit 0 of the effective port (R64). -/
def State.loram (s : State) : Bool := s.effPort.getLsbD 0

/-- HIRAM, bit 1 (R64). -/
def State.hiram (s : State) : Bool := s.effPort.getLsbD 1

/-- CHAREN, bit 2 (R64). -/
def State.charen (s : State) : Bool := s.effPort.getLsbD 2

/-- What a read of an address reaches. -/
inductive Source where
  | ddrLatch
  | portLatch
  | ram
  | kernelRom
  | basicRom
  | charRom
  | io
deriving DecidableEq, Repr

/-- What a read reaches, by R66's tests in R66's order, from the latches as they stand (R65). -/
def State.source (s : State) (a : Addr) : Source :=
  if a.toNat = 0 then .ddrLatch
  else if a.toNat = 1 then .portLatch
  else if 0xD000 ≤ a.toNat ∧ a.toNat ≤ 0xDFFF then
    if !s.loram && !s.hiram then .ram else if s.charen then .io else .charRom
  else if 0xE000 ≤ a.toNat then
    if s.hiram then .kernelRom else .ram
  else if 0xA000 ≤ a.toNat ∧ a.toNat ≤ 0xBFFF then
    if s.loram && s.hiram then .basicRom else .ram
  else .ram

/-- Where an I-O access goes (R75, R76). -/
inductive Route where
  | video
  | chip (k : ChipId)
  | nothing
deriving DecidableEq, Repr

/-- `IO_ROUTE` on 0xD000 to 0xDFFF (R76, D14). -/
def ioRoute (a : Addr) : Route :=
  if a.toNat ≤ 0xD3FF then .video
  else if a.toNat ≤ 0xD7FF then .nothing
  else if a.toNat ≤ 0xDBFF then .video
  else if a.toNat ≤ 0xDCFF then .chip .zero
  else if a.toNat ≤ 0xDDFF then .chip .one
  else .nothing

/-- The chip register an address names: its low 4 bits (R75, R300). -/
def chipRegOf (a : Addr) : ChipReg := ChipReg.ofIndex (a.toNat % 16)

/-- `IoRead(a)` (R75); a video read is driven outward and answered by a draw (R14, D17; logs 8, 18). -/
def State.ioRead (s : State) (a : Addr) : Byte × State :=
  match ioRoute a with
  | .chip k => s.readReg k (chipRegOf a)
  | .video => (Config.videoByte s.draws a, { s.emit (.videoRead a) with draws := s.draws + 1 })
  | .nothing => (Config.sentinel, s)

/-- `IoWrite(a, v)` (R75); a video write is driven outward and has no effect on the block (R14; log 18). -/
def State.ioWrite (s : State) (a : Addr) (v : Byte) : State :=
  match ioRoute a with
  | .chip k => s.writeReg k (chipRegOf a) v
  | .video => s.emit (.videoWrite a v)
  | .nothing => s

/-- `Read(a)`: the byte, and the state after the effects an I-O read has (R66, R83). -/
def State.read (s : State) (a : Addr) : Byte × State :=
  match s.source a with
  | .ddrLatch => (s.bankDdr, s)
  | .portLatch => (s.effPort, s)
  | .ram => (s.ram.read a.toNat, s)
  | .kernelRom => (s.romKernel.read (a.toNat - 0xE000), s)
  | .basicRom => (s.romBasic.read (a.toNat - 0xA000), s)
  | .charRom => (s.romChar.read (a.toNat - 0xD000), s)
  | .io => s.ioRead a

/-- The byte a read of an address gives. -/
def State.byteAt (s : State) (a : Addr) : Byte := (s.read a).1

/-- The state after a read of an address: `s` itself unless the address is selected I-O (R66). -/
def State.afterRead (s : State) (a : Addr) : State := (s.read a).2

/-- `Write(a, v)`: addresses 0 and 1 are the latches, selected I-O takes the write, and every other write lands in RAM,
under a ROM too (R67, R70). -/
def State.write (s : State) (a : Addr) (v : Byte) : State :=
  match s.source a with
  | .ddrLatch => { s with bankDdr := v }
  | .portLatch => { s with bankPort := v }
  | .io => s.ioWrite a v
  | .ram => { s with ram := s.ram.write a.toNat v }
  | .kernelRom => { s with ram := s.ram.write a.toNat v }
  | .basicRom => { s with ram := s.ram.write a.toNat v }
  | .charRom => { s with ram := s.ram.write a.toNat v }

end Sys2Proof.Machine
end

