-- ==== Sys2Proof/Machine/Ops.lean ====
section
/-! DEFINITION. The operations the instructions share (spec/40_step_and_addressing.md): fetch, stack, cycle accounting, the
cycle of an instruction's outcome, taking an exception and returning from one, and `Reset` (R381). -/

namespace Sys2Proof.Machine

/-- What a meaning answers. -/
abbrev Result := Host.Outcome State Fault Refusal

/-- `cycles` advanced once, after an instruction's last access (R125, D30). -/
def State.addCycles (s : State) (n : Nat) : State := { s with cycles := s.cycles + n }

/-- An instruction that completes in state `s` and costs `n` cycles (R120 (d)). -/
def complete (n : Nat) (s : State) : Result := .next (s.addCycles n)

/-- `Fetch8()`: read at `PC`, then advance it modulo 65536 (R121). -/
def State.fetch8 (s : State) : Byte × State :=
  let r := s.read s.pc
  (r.1, { r.2 with pc := r.2.pc + 1 })

/-- The stack address `0x0100 + S` (R23). -/
def stackAddr (sp : Byte) : Addr := word sp 0x01#8

/-- `Push(v)`: store, then decrement `S` modulo 256 (R140). -/
def State.push (s : State) (v : Byte) : State :=
  let s' := s.write (stackAddr s.sp) v
  { s' with sp := s'.sp - 1 }

/-- `Pull()`: increment `S` modulo 256, then load (R141). Page one is RAM under every bank setting (R77), so the load has no
effect on the state. -/
def State.pull (s : State) : Byte × State :=
  let s' := { s with sp := s.sp + 1 }
  (s'.byteAt (stackAddr s'.sp), s')

/-- A 16-bit value pushed high byte first (R80). -/
def State.pushWord (s : State) (w : Addr) : State := (s.push (hiByte w)).push (loByte w)

/-- A 16-bit value pulled, low byte first (R215, R261). -/
def State.pullWord (s : State) : Addr × State :=
  let lo := s.pull
  let hi := lo.2.pull
  (word lo.1 hi.1, hi.2)

/-- `MemRead16` of a vector: low byte first, both through the bank logic (R72, R80). A vector is never in the I-O region. -/
def State.vector (s : State) (a : Addr) : Addr := word (s.byteAt a) (s.byteAt (a + 1))

/-- TAKING AN EXCEPTION, the sequence interrupt entry and BRK share (R260, R276): the return address and a status byte are
pushed, I is set with `RecomputeIrq()`, and `PC` is loaded from the interrupt vector. -/
def State.takeException (s : State) (ret : Addr) (status : Byte) : State :=
  let s' := ((s.pushWord ret).push status).setInterruptDisable true
  { s' with pc := s'.vector Config.irqVector }

/-- RETURNING from an exception: `P` through `WriteP`, then `PC`, pulled from the stack (R261, R279). -/
def State.returnFromException (s : State) : State :=
  let st := s.pull
  let w := (st.2.writeP st.1).pullWord
  { w.2 with pc := w.1 }

/-- `InterruptEntry()`: the return address is the next instruction's, Break is clear in the pushed status (R276). -/
def State.interruptEntry (s : State) : State := s.takeException s.pc s.statusForIrq

/-- `Reset()`: the Processor's own operation; nothing outside the Processor changes (R45, R381). -/
def State.resetProcessor (s : State) : State :=
  { s with
    a := 0, x := 0, y := 0, p := Config.pReset, sp := 0xFF#8, cycles := 0, running := true
    irqSources := 0, irqPending := false, pc := s.vector Config.resetVector }

end Sys2Proof.Machine
end

