-- ==== Sys2Proof/Machine/Operands.lean ====
section
/-! DEFINITION. Operand forms: effective addresses (R126 to R134), the three access patterns (R137, R138), the cycle
table of each (R395), and the shapes of instruction built on them. `PC` is already past the operand bytes. -/

namespace Sys2Proof.Machine

/-- An effective address, and whether indexing left the base's page (R131, R132, R134). -/
structure Ea where
  addr : Addr
  crossed : Bool
deriving DecidableEq, Repr

/-- A base and an index added modulo 65536 (R62, R131). -/
def indexed (base : Addr) (index : Byte) : Ea :=
  let ea := base + zeroPage index
  { addr := ea, crossed := pageCrossed ea base }

/-- A pointer in page zero: low byte at `z`, high byte at `z + 1` modulo 256 (R133, R134). Page-zero reads reach RAM or the
bank latches, so they have no effect on the state. -/
def State.zpPointer (s : State) (z : Byte) : Addr := word (s.byteAt (zeroPage z)) (s.byteAt (zeroPage (z + 1)))

/-- The effective address of a memory format. -/
def State.effAddr (s : State) : EaMode → Ea
  | .zp z => { addr := zeroPage z, crossed := false }
  | .zpx z => { addr := zeroPage (z + s.x), crossed := false }
  | .zpy z => { addr := zeroPage (z + s.y), crossed := false }
  | .abs w => { addr := w, crossed := false }
  | .absx w => indexed w s.x
  | .absy w => indexed w s.y
  | .indx z => { addr := s.zpPointer (z + s.x), crossed := false }
  | .indy z => indexed (s.zpPointer z) s.y

/-- What `ReadOperand` gives: the byte, whether a page was crossed, and the state after the operand's read (R137). -/
structure Fetched where
  value : Byte
  crossed : Bool
  state : State

/-- `ReadOperand(format)` (R126, R137). -/
def State.readOperand (s : State) : Operand → Fetched
  | .imm b => { value := b, crossed := false, state := s }
  | .mem m =>
    let ea := s.effAddr m
    { value := s.byteAt ea.addr, crossed := ea.crossed, state := s.afterRead ea.addr }

/-- Cycles of the reading instructions (R395). -/
def readCycles (o : Operand) (crossed : Bool) : Nat :=
  match o with
  | .imm _ => 2
  | .mem (.zp _) => 3
  | .mem (.zpx _) => 4
  | .mem (.zpy _) => 4
  | .mem (.abs _) => 4
  | .mem (.absx _) => 4 + crossed.toNat
  | .mem (.absy _) => 4 + crossed.toNat
  | .mem (.indx _) => 6
  | .mem (.indy _) => 5 + crossed.toNat

/-- Cycles of the storing instructions: no page-cross surcharge (R395). -/
def storeCycles : EaMode → Nat
  | .zp _ => 3
  | .zpx _ => 4
  | .zpy _ => 4
  | .abs _ => 4
  | .absx _ => 5
  | .absy _ => 5
  | .indx _ => 6
  | .indy _ => 6

/-- Cycles of the read-modify-write instructions: no page-cross surcharge (R395). -/
def modifyCycles : Target → Nat
  | .acc => 2
  | .mem (.zp _) => 5
  | .mem (.zpx _) => 6
  | .mem (.abs _) => 6
  | .mem (.absx _) => 7

/-- A reading instruction: the operand is read, `f` takes its byte to the result (R123, R137). -/
def readInstr (f : Byte → State → State) (o : Operand) (s : State) : Result :=
  let r := s.readOperand o
  complete (readCycles o r.crossed) (f r.value r.state)

/-- A storing instruction: `WriteOperand(format, v)` (R137). -/
def storeInstr (v : Byte) (m : EaMode) (s : State) : Result :=
  complete (storeCycles m) (s.write (s.effAddr m).addr v)

/-- `ModifyOperand(format, f)`: the accumulator, or one read and then one write of the same address (R82, R137, R138); `f`
takes the operand to the byte written back, `flags` sets the flags from the operand. -/
def modifyInstr (f : Byte → Byte) (flags : Byte → State → State) (t : Target) (s : State) : Result :=
  match t with
  | .acc => complete (modifyCycles t) (flags s.a { s with a := f s.a })
  | .mem m =>
    let ea := (s.effAddr m.ea).addr
    let v := s.byteAt ea
    complete (modifyCycles t) (flags v ((s.afterRead ea).write ea (f v)))

/-- A branch: `PC` is the address after the branch; the offset is added when the condition holds, and the cost is 2, 3 taken
to the same page, 4 taken to another (R135, R220). -/
def branchInstr (cond : Bool) (off : Byte) (s : State) : Result :=
  let target := s.pc + signedOffset off
  if cond then complete (if pageCrossed target s.pc then 4 else 3) { s with pc := target }
  else complete 2 s

end Sys2Proof.Machine
end

