-- ==== Sys2Proof/Machine/Arithmetic.lean ====
section
/-! DEFINITION. Arithmetic instructions (spec/42_arithmetic.md). -/

namespace Sys2Proof.Machine

/-- The adder's result to `A`, with C, V, N and Z (R171, R172); `D` is not read (R174). -/
def State.addToA (s : State) (m : Byte) : State :=
  let r := add8 s.a m (s.flag .c)
  ((State.setFlag { s with a := r.result } .c r.carry).setFlag .v r.overflow).setNZ r.result

/-- ADC (R171). -/
def adc (o : Operand) (s : State) : Result := readInstr (fun m t => t.addToA m) o s

/-- ADC immediate, 0x69 (R171). -/
def execAdcImm (imm : Byte) (s : State) : Result := adc (.imm imm) s

/-- ADC zero page, 0x65 (R171). -/
def execAdcZp (zp : Byte) (s : State) : Result := adc (.mem (.zp zp)) s

/-- ADC zero page,X, 0x75 (R171). -/
def execAdcZpx (zp : Byte) (s : State) : Result := adc (.mem (.zpx zp)) s

/-- ADC absolute, 0x6D (R171). -/
def execAdcAbs (addr : Addr) (s : State) : Result := adc (.mem (.abs addr)) s

/-- ADC absolute,X, 0x7D (R171). -/
def execAdcAbsx (addr : Addr) (s : State) : Result := adc (.mem (.absx addr)) s

/-- ADC absolute,Y, 0x79 (R171). -/
def execAdcAbsy (addr : Addr) (s : State) : Result := adc (.mem (.absy addr)) s

/-- ADC (zp,X), 0x61 (R171). -/
def execAdcIndx (zp : Byte) (s : State) : Result := adc (.mem (.indx zp)) s

/-- ADC (zp),Y, 0x71 (R171). -/
def execAdcIndy (zp : Byte) (s : State) : Result := adc (.mem (.indy zp)) s

/-- SBC: the complement of the operand is added with the carry (R172). -/
def sbc (o : Operand) (s : State) : Result := readInstr (fun m t => t.addToA (complement m)) o s

/-- SBC immediate, 0xE9 (R172). -/
def execSbcImm (imm : Byte) (s : State) : Result := sbc (.imm imm) s

/-- SBC zero page, 0xE5 (R172). -/
def execSbcZp (zp : Byte) (s : State) : Result := sbc (.mem (.zp zp)) s

/-- SBC zero page,X, 0xF5 (R172). -/
def execSbcZpx (zp : Byte) (s : State) : Result := sbc (.mem (.zpx zp)) s

/-- SBC absolute, 0xED (R172). -/
def execSbcAbs (addr : Addr) (s : State) : Result := sbc (.mem (.abs addr)) s

/-- SBC absolute,X, 0xFD (R172). -/
def execSbcAbsx (addr : Addr) (s : State) : Result := sbc (.mem (.absx addr)) s

/-- SBC absolute,Y, 0xF9 (R172). -/
def execSbcAbsy (addr : Addr) (s : State) : Result := sbc (.mem (.absy addr)) s

/-- SBC (zp,X), 0xE1 (R172). -/
def execSbcIndx (zp : Byte) (s : State) : Result := sbc (.mem (.indx zp)) s

/-- SBC (zp),Y, 0xF1 (R172). -/
def execSbcIndy (zp : Byte) (s : State) : Result := sbc (.mem (.indy zp)) s

end Sys2Proof.Machine
end

