-- ==== Sys2Proof/Machine/Branch.lean ====
section
/-! DEFINITION. Branch and jump instructions (spec/47_branch_and_jump.md). -/

namespace Sys2Proof.Machine

/-- BPL relative, 0x10 (R221). -/
def execBpl (off : Byte) (s : State) : Result := branchInstr (!s.flag .n) off s

/-- BMI relative, 0x30 (R222). -/
def execBmi (off : Byte) (s : State) : Result := branchInstr (s.flag .n) off s

/-- BVC relative, 0x50 (R223). -/
def execBvc (off : Byte) (s : State) : Result := branchInstr (!s.flag .v) off s

/-- BVS relative, 0x70 (R224). -/
def execBvs (off : Byte) (s : State) : Result := branchInstr (s.flag .v) off s

/-- BCC relative, 0x90 (R225). -/
def execBcc (off : Byte) (s : State) : Result := branchInstr (!s.flag .c) off s

/-- BCS relative, 0xB0 (R226). -/
def execBcs (off : Byte) (s : State) : Result := branchInstr (s.flag .c) off s

/-- BNE relative, 0xD0 (R227). -/
def execBne (off : Byte) (s : State) : Result := branchInstr (!s.flag .z) off s

/-- BEQ relative, 0xF0 (R228). -/
def execBeq (off : Byte) (s : State) : Result := branchInstr (s.flag .z) off s

/-- JMP absolute, 0x4C (R229). -/
def execJmpAbs (addr : Addr) (s : State) : Result := complete 3 { s with pc := addr }

/-- Where JMP indirect reads its high byte. Only a pointer with low byte 0xFF depends on the OPEN parameter `JMP_IND_WRAP`: the
start of the pointer's page, or the next address (R230, D5; log 7). -/
def pointerHighAddr (ptr : Addr) : Addr :=
  if loByte ptr = 0xFF#8 then (if Config.jmpIndWrap then word 0 (hiByte ptr) else ptr + 1) else ptr + 1

/-- JMP indirect: the pointer's low byte is read first, then its high byte (R230). -/
def State.jumpIndirect (s : State) (ptr : Addr) : State :=
  let lo := s.read ptr
  let hi := lo.2.read (pointerHighAddr ptr)
  { hi.2 with pc := word lo.1 hi.1 }

/-- JMP indirect, 0x6C (R230). -/
def execJmpInd (ptr : Addr) (s : State) : Result := complete 5 (s.jumpIndirect ptr)

end Sys2Proof.Machine
end

