-- ==== Sys2Proof/Machine/Compare.lean ====
section
/-! DEFINITION. Compare instructions (spec/45_compare.md). -/

namespace Sys2Proof.Machine

/-- CMP (R201). -/
def cmp (o : Operand) (s : State) : Result := readInstr (fun m t => t.compare t.a m) o s

/-- CMP immediate, 0xC9 (R201). -/
def execCmpImm (imm : Byte) (s : State) : Result := cmp (.imm imm) s

/-- CMP zero page, 0xC5 (R201). -/
def execCmpZp (zp : Byte) (s : State) : Result := cmp (.mem (.zp zp)) s

/-- CMP zero page,X, 0xD5 (R201). -/
def execCmpZpx (zp : Byte) (s : State) : Result := cmp (.mem (.zpx zp)) s

/-- CMP absolute, 0xCD (R201). -/
def execCmpAbs (addr : Addr) (s : State) : Result := cmp (.mem (.abs addr)) s

/-- CMP absolute,X, 0xDD (R201). -/
def execCmpAbsx (addr : Addr) (s : State) : Result := cmp (.mem (.absx addr)) s

/-- CMP absolute,Y, 0xD9 (R201). -/
def execCmpAbsy (addr : Addr) (s : State) : Result := cmp (.mem (.absy addr)) s

/-- CMP (zp,X), 0xC1 (R201). -/
def execCmpIndx (zp : Byte) (s : State) : Result := cmp (.mem (.indx zp)) s

/-- CMP (zp),Y, 0xD1 (R201). -/
def execCmpIndy (zp : Byte) (s : State) : Result := cmp (.mem (.indy zp)) s

/-- CPX (R202). -/
def cpx (o : Operand) (s : State) : Result := readInstr (fun m t => t.compare t.x m) o s

/-- CPX immediate, 0xE0 (R202). -/
def execCpxImm (imm : Byte) (s : State) : Result := cpx (.imm imm) s

/-- CPX zero page, 0xE4 (R202). -/
def execCpxZp (zp : Byte) (s : State) : Result := cpx (.mem (.zp zp)) s

/-- CPX absolute, 0xEC (R202). -/
def execCpxAbs (addr : Addr) (s : State) : Result := cpx (.mem (.abs addr)) s

/-- CPY (R203). -/
def cpy (o : Operand) (s : State) : Result := readInstr (fun m t => t.compare t.y m) o s

/-- CPY immediate, 0xC0 (R203). -/
def execCpyImm (imm : Byte) (s : State) : Result := cpy (.imm imm) s

/-- CPY zero page, 0xC4 (R203). -/
def execCpyZp (zp : Byte) (s : State) : Result := cpy (.mem (.zp zp)) s

/-- CPY absolute, 0xCC (R203). -/
def execCpyAbs (addr : Addr) (s : State) : Result := cpy (.mem (.abs addr)) s

end Sys2Proof.Machine
end

