-- ==== Sys2Proof/Machine/FlagIncDec.lean ====
section
/-! DEFINITION. Flag set and clear, increment and decrement (spec/48_flag_and_incdec.md). -/

namespace Sys2Proof.Machine

/-- CLC implied, 0x18 (R240). -/
def execClc (s : State) : Result := complete 2 (s.setFlag .c false)

/-- SEC implied, 0x38 (R241). -/
def execSec (s : State) : Result := complete 2 (s.setFlag .c true)

/-- CLI implied, 0x58 (R242). -/
def execCli (s : State) : Result := complete 2 (s.setInterruptDisable false)

/-- SEI implied, 0x78 (R243). -/
def execSei (s : State) : Result := complete 2 (s.setInterruptDisable true)

/-- CLV implied, 0xB8 (R244). -/
def execClv (s : State) : Result := complete 2 (s.setFlag .v false)

/-- CLD implied, 0xD8 (R245). -/
def execCld (s : State) : Result := complete 2 (s.setFlag .d false)

/-- SED implied, 0xF8 (R246). -/
def execSed (s : State) : Result := complete 2 (s.setFlag .d true)

/-- INC: N and Z from the result, C and V untouched (R250). -/
def inc (m : ModMode) (s : State) : Result := modifyInstr (fun v => v + 1) (fun v u => u.setNZ (v + 1)) (.mem m) s

/-- INC zero page, 0xE6 (R250). -/
def execIncZp (zp : Byte) (s : State) : Result := inc (.zp zp) s

/-- INC zero page,X, 0xF6 (R250). -/
def execIncZpx (zp : Byte) (s : State) : Result := inc (.zpx zp) s

/-- INC absolute, 0xEE (R250). -/
def execIncAbs (addr : Addr) (s : State) : Result := inc (.abs addr) s

/-- INC absolute,X, 0xFE (R250). -/
def execIncAbsx (addr : Addr) (s : State) : Result := inc (.absx addr) s

/-- DEC: N and Z from the result, C and V untouched (R251). -/
def dec (m : ModMode) (s : State) : Result := modifyInstr (fun v => v - 1) (fun v u => u.setNZ (v - 1)) (.mem m) s

/-- DEC zero page, 0xC6 (R251). -/
def execDecZp (zp : Byte) (s : State) : Result := dec (.zp zp) s

/-- DEC zero page,X, 0xD6 (R251). -/
def execDecZpx (zp : Byte) (s : State) : Result := dec (.zpx zp) s

/-- DEC absolute, 0xCE (R251). -/
def execDecAbs (addr : Addr) (s : State) : Result := dec (.abs addr) s

/-- DEC absolute,X, 0xDE (R251). -/
def execDecAbsx (addr : Addr) (s : State) : Result := dec (.absx addr) s

/-- INX implied, 0xE8 (R252). -/
def execInx (s : State) : Result := complete 2 (State.setNZ { s with x := s.x + 1 } (s.x + 1))

/-- INY implied, 0xC8 (R253). -/
def execIny (s : State) : Result := complete 2 (State.setNZ { s with y := s.y + 1 } (s.y + 1))

/-- DEX implied, 0xCA (R254). -/
def execDex (s : State) : Result := complete 2 (State.setNZ { s with x := s.x - 1 } (s.x - 1))

/-- DEY implied, 0x88 (R255). -/
def execDey (s : State) : Result := complete 2 (State.setNZ { s with y := s.y - 1 } (s.y - 1))

end Sys2Proof.Machine
end

