-- ==== Sys2Proof/Machine/LoadStore.lean ====
section
/-! DEFINITION. Load, store and transfer instructions (spec/41_load_store_transfer.md). -/

namespace Sys2Proof.Machine

/-- LDA: the operand goes to `A`, N and Z follow it (R150). -/
def lda (o : Operand) (s : State) : Result := readInstr (fun m t => State.setNZ { t with a := m } m) o s

/-- LDA immediate, 0xA9 (R150). -/
def execLdaImm (imm : Byte) (s : State) : Result := lda (.imm imm) s

/-- LDA zero page, 0xA5 (R150). -/
def execLdaZp (zp : Byte) (s : State) : Result := lda (.mem (.zp zp)) s

/-- LDA zero page,X, 0xB5 (R150). -/
def execLdaZpx (zp : Byte) (s : State) : Result := lda (.mem (.zpx zp)) s

/-- LDA absolute, 0xAD (R150). -/
def execLdaAbs (addr : Addr) (s : State) : Result := lda (.mem (.abs addr)) s

/-- LDA absolute,X, 0xBD (R150). -/
def execLdaAbsx (addr : Addr) (s : State) : Result := lda (.mem (.absx addr)) s

/-- LDA absolute,Y, 0xB9 (R150). -/
def execLdaAbsy (addr : Addr) (s : State) : Result := lda (.mem (.absy addr)) s

/-- LDA (zp,X), 0xA1 (R150). -/
def execLdaIndx (zp : Byte) (s : State) : Result := lda (.mem (.indx zp)) s

/-- LDA (zp),Y, 0xB1 (R150). -/
def execLdaIndy (zp : Byte) (s : State) : Result := lda (.mem (.indy zp)) s

/-- LDX (R151). -/
def ldx (o : Operand) (s : State) : Result := readInstr (fun m t => State.setNZ { t with x := m } m) o s

/-- LDX immediate, 0xA2 (R151). -/
def execLdxImm (imm : Byte) (s : State) : Result := ldx (.imm imm) s

/-- LDX zero page, 0xA6 (R151). -/
def execLdxZp (zp : Byte) (s : State) : Result := ldx (.mem (.zp zp)) s

/-- LDX zero page,Y, 0xB6 (R151). -/
def execLdxZpy (zp : Byte) (s : State) : Result := ldx (.mem (.zpy zp)) s

/-- LDX absolute, 0xAE (R151). -/
def execLdxAbs (addr : Addr) (s : State) : Result := ldx (.mem (.abs addr)) s

/-- LDX absolute,Y, 0xBE (R151). -/
def execLdxAbsy (addr : Addr) (s : State) : Result := ldx (.mem (.absy addr)) s

/-- LDY (R152). -/
def ldy (o : Operand) (s : State) : Result := readInstr (fun m t => State.setNZ { t with y := m } m) o s

/-- LDY immediate, 0xA0 (R152). -/
def execLdyImm (imm : Byte) (s : State) : Result := ldy (.imm imm) s

/-- LDY zero page, 0xA4 (R152). -/
def execLdyZp (zp : Byte) (s : State) : Result := ldy (.mem (.zp zp)) s

/-- LDY zero page,X, 0xB4 (R152). -/
def execLdyZpx (zp : Byte) (s : State) : Result := ldy (.mem (.zpx zp)) s

/-- LDY absolute, 0xAC (R152). -/
def execLdyAbs (addr : Addr) (s : State) : Result := ldy (.mem (.abs addr)) s

/-- LDY absolute,X, 0xBC (R152). -/
def execLdyAbsx (addr : Addr) (s : State) : Result := ldy (.mem (.absx addr)) s

/-- STA: no flag changes (R153). -/
def sta (m : EaMode) (s : State) : Result := storeInstr s.a m s

/-- STA zero page, 0x85 (R153). -/
def execStaZp (zp : Byte) (s : State) : Result := sta (.zp zp) s

/-- STA zero page,X, 0x95 (R153). -/
def execStaZpx (zp : Byte) (s : State) : Result := sta (.zpx zp) s

/-- STA absolute, 0x8D (R153). -/
def execStaAbs (addr : Addr) (s : State) : Result := sta (.abs addr) s

/-- STA absolute,X, 0x9D (R153). -/
def execStaAbsx (addr : Addr) (s : State) : Result := sta (.absx addr) s

/-- STA absolute,Y, 0x99 (R153). -/
def execStaAbsy (addr : Addr) (s : State) : Result := sta (.absy addr) s

/-- STA (zp,X), 0x81 (R153). -/
def execStaIndx (zp : Byte) (s : State) : Result := sta (.indx zp) s

/-- STA (zp),Y, 0x91 (R153). -/
def execStaIndy (zp : Byte) (s : State) : Result := sta (.indy zp) s

/-- STX (R154). -/
def stx (m : EaMode) (s : State) : Result := storeInstr s.x m s

/-- STX zero page, 0x86 (R154). -/
def execStxZp (zp : Byte) (s : State) : Result := stx (.zp zp) s

/-- STX zero page,Y, 0x96 (R154). -/
def execStxZpy (zp : Byte) (s : State) : Result := stx (.zpy zp) s

/-- STX absolute, 0x8E (R154). -/
def execStxAbs (addr : Addr) (s : State) : Result := stx (.abs addr) s

/-- STY (R155). -/
def sty (m : EaMode) (s : State) : Result := storeInstr s.y m s

/-- STY zero page, 0x84 (R155). -/
def execStyZp (zp : Byte) (s : State) : Result := sty (.zp zp) s

/-- STY zero page,X, 0x94 (R155). -/
def execStyZpx (zp : Byte) (s : State) : Result := sty (.zpx zp) s

/-- STY absolute, 0x8C (R155). -/
def execStyAbs (addr : Addr) (s : State) : Result := sty (.abs addr) s

/-- TAX implied, 0xAA (R156). -/
def execTax (s : State) : Result := complete 2 (State.setNZ { s with x := s.a } s.a)

/-- TAY implied, 0xA8 (R157). -/
def execTay (s : State) : Result := complete 2 (State.setNZ { s with y := s.a } s.a)

/-- TXA implied, 0x8A (R158). -/
def execTxa (s : State) : Result := complete 2 (State.setNZ { s with a := s.x } s.x)

/-- TYA implied, 0x98 (R159). -/
def execTya (s : State) : Result := complete 2 (State.setNZ { s with a := s.y } s.y)

/-- TSX implied, 0xBA (R160). -/
def execTsx (s : State) : Result := complete 2 (State.setNZ { s with x := s.sp } s.sp)

/-- TXS implied, 0x9A: the one transfer that sets no flag (R161). -/
def execTxs (s : State) : Result := complete 2 { s with sp := s.x }

end Sys2Proof.Machine
end

