-- ==== Sys2Proof/Machine/Logical.lean ====
section
/-! DEFINITION. Logical instructions (spec/43_logical.md). -/

namespace Sys2Proof.Machine

/-- ORA (R180). -/
def ora (o : Operand) (s : State) : Result := readInstr (fun m t => State.setNZ { t with a := t.a ||| m } (t.a ||| m)) o s

/-- ORA immediate, 0x09 (R180). -/
def execOraImm (imm : Byte) (s : State) : Result := ora (.imm imm) s

/-- ORA zero page, 0x05 (R180). -/
def execOraZp (zp : Byte) (s : State) : Result := ora (.mem (.zp zp)) s

/-- ORA zero page,X, 0x15 (R180). -/
def execOraZpx (zp : Byte) (s : State) : Result := ora (.mem (.zpx zp)) s

/-- ORA absolute, 0x0D (R180). -/
def execOraAbs (addr : Addr) (s : State) : Result := ora (.mem (.abs addr)) s

/-- ORA absolute,X, 0x1D (R180). -/
def execOraAbsx (addr : Addr) (s : State) : Result := ora (.mem (.absx addr)) s

/-- ORA absolute,Y, 0x19 (R180). -/
def execOraAbsy (addr : Addr) (s : State) : Result := ora (.mem (.absy addr)) s

/-- ORA (zp,X), 0x01 (R180). -/
def execOraIndx (zp : Byte) (s : State) : Result := ora (.mem (.indx zp)) s

/-- ORA (zp),Y, 0x11 (R180). -/
def execOraIndy (zp : Byte) (s : State) : Result := ora (.mem (.indy zp)) s

/-- AND (R181). -/
def andA (o : Operand) (s : State) : Result := readInstr (fun m t => State.setNZ { t with a := t.a &&& m } (t.a &&& m)) o s

/-- AND immediate, 0x29 (R181). -/
def execAndImm (imm : Byte) (s : State) : Result := andA (.imm imm) s

/-- AND zero page, 0x25 (R181). -/
def execAndZp (zp : Byte) (s : State) : Result := andA (.mem (.zp zp)) s

/-- AND zero page,X, 0x35 (R181). -/
def execAndZpx (zp : Byte) (s : State) : Result := andA (.mem (.zpx zp)) s

/-- AND absolute, 0x2D (R181). -/
def execAndAbs (addr : Addr) (s : State) : Result := andA (.mem (.abs addr)) s

/-- AND absolute,X, 0x3D (R181). -/
def execAndAbsx (addr : Addr) (s : State) : Result := andA (.mem (.absx addr)) s

/-- AND absolute,Y, 0x39 (R181). -/
def execAndAbsy (addr : Addr) (s : State) : Result := andA (.mem (.absy addr)) s

/-- AND (zp,X), 0x21 (R181). -/
def execAndIndx (zp : Byte) (s : State) : Result := andA (.mem (.indx zp)) s

/-- AND (zp),Y, 0x31 (R181). -/
def execAndIndy (zp : Byte) (s : State) : Result := andA (.mem (.indy zp)) s

/-- EOR (R182). -/
def eor (o : Operand) (s : State) : Result := readInstr (fun m t => State.setNZ { t with a := t.a ^^^ m } (t.a ^^^ m)) o s

/-- EOR immediate, 0x49 (R182). -/
def execEorImm (imm : Byte) (s : State) : Result := eor (.imm imm) s

/-- EOR zero page, 0x45 (R182). -/
def execEorZp (zp : Byte) (s : State) : Result := eor (.mem (.zp zp)) s

/-- EOR zero page,X, 0x55 (R182). -/
def execEorZpx (zp : Byte) (s : State) : Result := eor (.mem (.zpx zp)) s

/-- EOR absolute, 0x4D (R182). -/
def execEorAbs (addr : Addr) (s : State) : Result := eor (.mem (.abs addr)) s

/-- EOR absolute,X, 0x5D (R182). -/
def execEorAbsx (addr : Addr) (s : State) : Result := eor (.mem (.absx addr)) s

/-- EOR absolute,Y, 0x59 (R182). -/
def execEorAbsy (addr : Addr) (s : State) : Result := eor (.mem (.absy addr)) s

/-- EOR (zp,X), 0x41 (R182). -/
def execEorIndx (zp : Byte) (s : State) : Result := eor (.mem (.indx zp)) s

/-- EOR (zp),Y, 0x51 (R182). -/
def execEorIndy (zp : Byte) (s : State) : Result := eor (.mem (.indy zp)) s

/-- BIT: Z from `A & M`, N and V from the operand's bits 7 and 6; `A` is not written (R183). -/
def bitTest (o : Operand) (s : State) : Result :=
  readInstr (fun m t =>
    ((t.setFlag .z ((t.a &&& m) == 0)).setFlag .n (m.getLsbD 7)).setFlag .v (m.getLsbD 6)) o s

/-- BIT zero page, 0x24 (R183). -/
def execBitZp (zp : Byte) (s : State) : Result := bitTest (.mem (.zp zp)) s

/-- BIT absolute, 0x2C (R183). -/
def execBitAbs (addr : Addr) (s : State) : Result := bitTest (.mem (.abs addr)) s

end Sys2Proof.Machine
end

