-- ==== Sys2Proof/Machine/Shift.lean ====
section
/-! DEFINITION. Shift and rotate instructions (spec/44_shift_rotate.md). -/

namespace Sys2Proof.Machine

/-- The common shape of the shifts and rotates: the old carry is read first; C takes the ejected bit, N and Z the result
(R190). -/
def shiftInstr (f : Byte → Bool → Shifted) (t : Target) (s : State) : Result :=
  let cin := s.flag .c
  modifyInstr (fun v => (f v cin).result) (fun v u => (u.setFlag .c (f v cin).carry).setNZ (f v cin).result) t s

/-- ASL (R191). -/
def asl (t : Target) (s : State) : Result := shiftInstr shiftLeft t s

/-- ASL accumulator, 0x0A (R191). -/
def execAslAcc (s : State) : Result := asl .acc s

/-- ASL zero page, 0x06 (R191). -/
def execAslZp (zp : Byte) (s : State) : Result := asl (.mem (.zp zp)) s

/-- ASL zero page,X, 0x16 (R191). -/
def execAslZpx (zp : Byte) (s : State) : Result := asl (.mem (.zpx zp)) s

/-- ASL absolute, 0x0E (R191). -/
def execAslAbs (addr : Addr) (s : State) : Result := asl (.mem (.abs addr)) s

/-- ASL absolute,X, 0x1E (R191). -/
def execAslAbsx (addr : Addr) (s : State) : Result := asl (.mem (.absx addr)) s

/-- LSR (R192). -/
def lsr (t : Target) (s : State) : Result := shiftInstr shiftRight t s

/-- LSR accumulator, 0x4A (R192). -/
def execLsrAcc (s : State) : Result := lsr .acc s

/-- LSR zero page, 0x46 (R192). -/
def execLsrZp (zp : Byte) (s : State) : Result := lsr (.mem (.zp zp)) s

/-- LSR zero page,X, 0x56 (R192). -/
def execLsrZpx (zp : Byte) (s : State) : Result := lsr (.mem (.zpx zp)) s

/-- LSR absolute, 0x4E (R192). -/
def execLsrAbs (addr : Addr) (s : State) : Result := lsr (.mem (.abs addr)) s

/-- LSR absolute,X, 0x5E (R192). -/
def execLsrAbsx (addr : Addr) (s : State) : Result := lsr (.mem (.absx addr)) s

/-- ROL (R193). -/
def rol (t : Target) (s : State) : Result := shiftInstr rotateLeft t s

/-- ROL accumulator, 0x2A (R193). -/
def execRolAcc (s : State) : Result := rol .acc s

/-- ROL zero page, 0x26 (R193). -/
def execRolZp (zp : Byte) (s : State) : Result := rol (.mem (.zp zp)) s

/-- ROL zero page,X, 0x36 (R193). -/
def execRolZpx (zp : Byte) (s : State) : Result := rol (.mem (.zpx zp)) s

/-- ROL absolute, 0x2E (R193). -/
def execRolAbs (addr : Addr) (s : State) : Result := rol (.mem (.abs addr)) s

/-- ROL absolute,X, 0x3E (R193). -/
def execRolAbsx (addr : Addr) (s : State) : Result := rol (.mem (.absx addr)) s

/-- ROR (R194). -/
def ror (t : Target) (s : State) : Result := shiftInstr rotateRight t s

/-- ROR accumulator, 0x6A (R194). -/
def execRorAcc (s : State) : Result := ror .acc s

/-- ROR zero page, 0x66 (R194). -/
def execRorZp (zp : Byte) (s : State) : Result := ror (.mem (.zp zp)) s

/-- ROR zero page,X, 0x76 (R194). -/
def execRorZpx (zp : Byte) (s : State) : Result := ror (.mem (.zpx zp)) s

/-- ROR absolute, 0x6E (R194). -/
def execRorAbs (addr : Addr) (s : State) : Result := ror (.mem (.abs addr)) s

/-- ROR absolute,X, 0x7E (R194). -/
def execRorAbsx (addr : Addr) (s : State) : Result := ror (.mem (.absx addr)) s

end Sys2Proof.Machine
end

