-- ==== Sys2Proof/Machine/Stack.lean ====
section
/-! DEFINITION. Stack and subroutine instructions (spec/46_stack_and_subroutine.md). -/

namespace Sys2Proof.Machine

/-- PHA implied, 0x48 (R210). -/
def execPha (s : State) : Result := complete 3 (s.push s.a)

/-- PLA implied, 0x68 (R211). -/
def execPla (s : State) : Result := complete 4 (State.setNZ { s.pull.2 with a := s.pull.1 } s.pull.1)

/-- PHP implied, 0x08 with Break and Unused set in the pushed copy (R212). -/
def execPhp (s : State) : Result := complete 3 (s.push s.statusForSoftware)

/-- PLP implied, 0x28 (R213). -/
def execPlp (s : State) : Result := complete 4 (s.pull.2.writeP s.pull.1)

/-- JSR: the address of its own last byte is pushed, high byte first (R214). -/
def jsrTo (target : Addr) (s : State) : State := { s.pushWord (s.pc - 1) with pc := target }

/-- JSR absolute, 0x20 (R214). -/
def execJsr (addr : Addr) (s : State) : Result := complete 6 (jsrTo addr s)

/-- RTS: the pulled address plus one (R215). -/
def State.returnFromSubroutine (s : State) : State := { s.pullWord.2 with pc := s.pullWord.1 + 1 }

/-- RTS implied, 0x60 (R215). -/
def execRts (s : State) : Result := complete 6 s.returnFromSubroutine

end Sys2Proof.Machine
end

