-- ==== Sys2Proof/Machine/System.lean ====
section
/-! DEFINITION. System instructions and unassigned opcodes (spec/49_system.md). -/

namespace Sys2Proof.Machine

/-- BRK implied, 0x00 the exception with return address two past its opcode and Break set in the pushed status (R260). -/
def execBrk (s : State) : Result := complete 7 (s.takeException (s.pc + 1) s.statusForSoftware)

/-- RTI implied, 0x40 (R261). -/
def execRti (s : State) : Result := complete 6 s.returnFromException

/-- NOP implied, 0xEA (R262). -/
def execNop (s : State) : Result := complete 2 s

/-- An unassigned opcode, 105 byte values: the Processor halts, and nothing but `running` changes; no cycles (R263, D9). The byte
itself does not matter. -/
def execIllegal (_op : Byte) (s : State) : Result := .next { s with running := false }

end Sys2Proof.Machine
end

