-- ==== Sys2Proof/Decode.lean ====
section
/-! DEFINITION. The decoder (R100 to R108), total on any bytes, and after it the encoder. -/

namespace Sys2Proof

/-- How a row's operand bytes make the instruction: none, byte 1, or bytes 1 and 2 as a little-endian word (R101, R103). -/
inductive RowOperand where
  | none (i : Instr)
  | byte (make : Byte → Instr)
  | word (make : Addr → Instr)

/-- One row of the opcode map (R104). -/
structure OpRow where
  opcode : Byte
  operand : RowOperand

/-- Load, store and transfer: the rows of R104. -/
def loadStoreRows : List OpRow :=
  [⟨0xA9#8, .byte .ldaImm⟩, ⟨0xA5#8, .byte .ldaZp⟩, ⟨0xB5#8, .byte .ldaZpx⟩, ⟨0xAD#8, .word .ldaAbs⟩,
   ⟨0xBD#8, .word .ldaAbsx⟩, ⟨0xB9#8, .word .ldaAbsy⟩, ⟨0xA1#8, .byte .ldaIndx⟩, ⟨0xB1#8, .byte .ldaIndy⟩] ++
  [⟨0xA2#8, .byte .ldxImm⟩, ⟨0xA6#8, .byte .ldxZp⟩, ⟨0xB6#8, .byte .ldxZpy⟩, ⟨0xAE#8, .word .ldxAbs⟩,
   ⟨0xBE#8, .word .ldxAbsy⟩] ++
  [⟨0xA0#8, .byte .ldyImm⟩, ⟨0xA4#8, .byte .ldyZp⟩, ⟨0xB4#8, .byte .ldyZpx⟩, ⟨0xAC#8, .word .ldyAbs⟩,
   ⟨0xBC#8, .word .ldyAbsx⟩] ++
  [⟨0x85#8, .byte .staZp⟩, ⟨0x95#8, .byte .staZpx⟩, ⟨0x8D#8, .word .staAbs⟩, ⟨0x9D#8, .word .staAbsx⟩,
   ⟨0x99#8, .word .staAbsy⟩, ⟨0x81#8, .byte .staIndx⟩, ⟨0x91#8, .byte .staIndy⟩] ++
  [⟨0x86#8, .byte .stxZp⟩, ⟨0x96#8, .byte .stxZpy⟩, ⟨0x8E#8, .word .stxAbs⟩] ++
  [⟨0x84#8, .byte .styZp⟩, ⟨0x94#8, .byte .styZpx⟩, ⟨0x8C#8, .word .styAbs⟩] ++
  [⟨0xAA#8, .none .tax⟩, ⟨0xA8#8, .none .tay⟩, ⟨0x8A#8, .none .txa⟩, ⟨0x98#8, .none .tya⟩] ++
  [⟨0xBA#8, .none .tsx⟩, ⟨0x9A#8, .none .txs⟩]

/-- Arithmetic: the rows of R104. -/
def arithmeticRows : List OpRow :=
  [⟨0x69#8, .byte .adcImm⟩, ⟨0x65#8, .byte .adcZp⟩, ⟨0x75#8, .byte .adcZpx⟩, ⟨0x6D#8, .word .adcAbs⟩,
   ⟨0x7D#8, .word .adcAbsx⟩, ⟨0x79#8, .word .adcAbsy⟩, ⟨0x61#8, .byte .adcIndx⟩, ⟨0x71#8, .byte .adcIndy⟩] ++
  [⟨0xE9#8, .byte .sbcImm⟩, ⟨0xE5#8, .byte .sbcZp⟩, ⟨0xF5#8, .byte .sbcZpx⟩, ⟨0xED#8, .word .sbcAbs⟩,
   ⟨0xFD#8, .word .sbcAbsx⟩, ⟨0xF9#8, .word .sbcAbsy⟩, ⟨0xE1#8, .byte .sbcIndx⟩, ⟨0xF1#8, .byte .sbcIndy⟩]

/-- Logical: the rows of R104. -/
def logicalRows : List OpRow :=
  [⟨0x09#8, .byte .oraImm⟩, ⟨0x05#8, .byte .oraZp⟩, ⟨0x15#8, .byte .oraZpx⟩, ⟨0x0D#8, .word .oraAbs⟩,
   ⟨0x1D#8, .word .oraAbsx⟩, ⟨0x19#8, .word .oraAbsy⟩, ⟨0x01#8, .byte .oraIndx⟩, ⟨0x11#8, .byte .oraIndy⟩] ++
  [⟨0x29#8, .byte .andImm⟩, ⟨0x25#8, .byte .andZp⟩, ⟨0x35#8, .byte .andZpx⟩, ⟨0x2D#8, .word .andAbs⟩,
   ⟨0x3D#8, .word .andAbsx⟩, ⟨0x39#8, .word .andAbsy⟩, ⟨0x21#8, .byte .andIndx⟩, ⟨0x31#8, .byte .andIndy⟩] ++
  [⟨0x49#8, .byte .eorImm⟩, ⟨0x45#8, .byte .eorZp⟩, ⟨0x55#8, .byte .eorZpx⟩, ⟨0x4D#8, .word .eorAbs⟩,
   ⟨0x5D#8, .word .eorAbsx⟩, ⟨0x59#8, .word .eorAbsy⟩, ⟨0x41#8, .byte .eorIndx⟩, ⟨0x51#8, .byte .eorIndy⟩] ++
  [⟨0x24#8, .byte .bitZp⟩, ⟨0x2C#8, .word .bitAbs⟩]

/-- Shift and rotate: the rows of R104. -/
def shiftRows : List OpRow :=
  [⟨0x0A#8, .none .aslAcc⟩, ⟨0x06#8, .byte .aslZp⟩, ⟨0x16#8, .byte .aslZpx⟩, ⟨0x0E#8, .word .aslAbs⟩,
   ⟨0x1E#8, .word .aslAbsx⟩] ++
  [⟨0x4A#8, .none .lsrAcc⟩, ⟨0x46#8, .byte .lsrZp⟩, ⟨0x56#8, .byte .lsrZpx⟩, ⟨0x4E#8, .word .lsrAbs⟩,
   ⟨0x5E#8, .word .lsrAbsx⟩] ++
  [⟨0x2A#8, .none .rolAcc⟩, ⟨0x26#8, .byte .rolZp⟩, ⟨0x36#8, .byte .rolZpx⟩, ⟨0x2E#8, .word .rolAbs⟩,
   ⟨0x3E#8, .word .rolAbsx⟩] ++
  [⟨0x6A#8, .none .rorAcc⟩, ⟨0x66#8, .byte .rorZp⟩, ⟨0x76#8, .byte .rorZpx⟩, ⟨0x6E#8, .word .rorAbs⟩,
   ⟨0x7E#8, .word .rorAbsx⟩]

/-- Compare: the rows of R104. -/
def compareRows : List OpRow :=
  [⟨0xC9#8, .byte .cmpImm⟩, ⟨0xC5#8, .byte .cmpZp⟩, ⟨0xD5#8, .byte .cmpZpx⟩, ⟨0xCD#8, .word .cmpAbs⟩,
   ⟨0xDD#8, .word .cmpAbsx⟩, ⟨0xD9#8, .word .cmpAbsy⟩, ⟨0xC1#8, .byte .cmpIndx⟩, ⟨0xD1#8, .byte .cmpIndy⟩] ++
  [⟨0xE0#8, .byte .cpxImm⟩, ⟨0xE4#8, .byte .cpxZp⟩, ⟨0xEC#8, .word .cpxAbs⟩] ++
  [⟨0xC0#8, .byte .cpyImm⟩, ⟨0xC4#8, .byte .cpyZp⟩, ⟨0xCC#8, .word .cpyAbs⟩]

/-- Stack and subroutine: the rows of R104. -/
def stackRows : List OpRow :=
  [⟨0x48#8, .none .pha⟩, ⟨0x68#8, .none .pla⟩, ⟨0x08#8, .none .php⟩, ⟨0x28#8, .none .plp⟩] ++
  [⟨0x20#8, .word .jsr⟩, ⟨0x60#8, .none .rts⟩]

/-- Branch and jump: the rows of R104. -/
def branchRows : List OpRow :=
  [⟨0x10#8, .byte .bpl⟩, ⟨0x30#8, .byte .bmi⟩, ⟨0x50#8, .byte .bvc⟩, ⟨0x70#8, .byte .bvs⟩] ++
  [⟨0x90#8, .byte .bcc⟩, ⟨0xB0#8, .byte .bcs⟩, ⟨0xD0#8, .byte .bne⟩, ⟨0xF0#8, .byte .beq⟩] ++
  [⟨0x4C#8, .word .jmpAbs⟩, ⟨0x6C#8, .word .jmpInd⟩]

/-- Flag set and clear, increment and decrement: the rows of R104. -/
def flagRows : List OpRow :=
  [⟨0x18#8, .none .clc⟩, ⟨0x38#8, .none .sec⟩, ⟨0x58#8, .none .cli⟩, ⟨0x78#8, .none .sei⟩] ++
  [⟨0xB8#8, .none .clv⟩, ⟨0xD8#8, .none .cld⟩, ⟨0xF8#8, .none .sed⟩] ++
  [⟨0xE6#8, .byte .incZp⟩, ⟨0xF6#8, .byte .incZpx⟩, ⟨0xEE#8, .word .incAbs⟩, ⟨0xFE#8, .word .incAbsx⟩] ++
  [⟨0xC6#8, .byte .decZp⟩, ⟨0xD6#8, .byte .decZpx⟩, ⟨0xCE#8, .word .decAbs⟩, ⟨0xDE#8, .word .decAbsx⟩] ++
  [⟨0xE8#8, .none .inx⟩, ⟨0xC8#8, .none .iny⟩, ⟨0xCA#8, .none .dex⟩, ⟨0x88#8, .none .dey⟩]

/-- System: the rows of R104. -/
def systemRows : List OpRow :=
  [⟨0x00#8, .none .brk⟩, ⟨0x40#8, .none .rti⟩, ⟨0xEA#8, .none .nop⟩]

/-- The opcode map: the 151 assigned rows (R104). -/
def opcodeMap : List OpRow :=
  loadStoreRows ++ arithmeticRows ++ logicalRows ++ shiftRows ++ compareRows ++
    stackRows ++ branchRows ++ flagRows ++ systemRows

/-- The row an opcode byte selects by its full 8-bit value; every value outside the map is ILLEGAL (R102, R107, R123). -/
def rowOf (op : Byte) : RowOperand :=
  match opcodeMap.find? (fun row => row.opcode == op) with
  | some row => row.operand
  | none => .none (.illegal op)

/-- Why bytes do not begin with a whole instruction. -/
inductive DecodeError where
  /-- There is no opcode byte. -/
  | noOpcode
  /-- The bytes end before the operand bytes of this opcode. -/
  | operandMissing (op : Byte)
deriving DecidableEq, Repr

/-- The instruction at the front of a byte list, with the bytes after it (R100, R102). -/
def decode : List Byte → Except DecodeError (Instr × List Byte)
  | [] => .error .noOpcode
  | op :: rest =>
    match rowOf op, rest with
    | .none i, rest => .ok (i, rest)
    | .byte make, b1 :: rest => .ok (make b1, rest)
    | .word make, b1 :: b2 :: rest => .ok (make (Machine.word b1 b2), rest)
    | _, _ => .error (.operandMissing op)

/-- The decoder on a table word: the first byte is bits 7..0, the second bits 15..8, the third bits 23..16 (little-endian
order of the bytes in memory); the bits above `nbits` are 0. -/
def tableByte (nbits w k : Nat) : Byte := BitVec.ofNat 8 (w % 2 ^ nbits / 2 ^ (8 * k))

/-- The instruction the decoder reads from a table word. -/
def decodeTableWord (nbits w : Nat) : Option Instr :=
  match decode [tableByte nbits w 0, tableByte nbits w 1, tableByte nbits w 2] with
  | .ok (i, _) => some i
  | .error _ => none

/-! The encoder. -/

/-- The operand bytes of an effective-address format, in address order (R101, R103). -/
def EaMode.bytes : EaMode → List Byte
  | .zp z => [z]
  | .zpx z => [z]
  | .zpy z => [z]
  | .abs w => [Machine.loByte w, Machine.hiByte w]
  | .absx w => [Machine.loByte w, Machine.hiByte w]
  | .absy w => [Machine.loByte w, Machine.hiByte w]
  | .indx z => [z]
  | .indy z => [z]

/-- The operand bytes of a format, in address order (R101, R103). -/
def Form.bytes : Form → List Byte
  | .implied => []
  | .read (.imm b) => [b]
  | .read (.mem m) => m.bytes
  | .store m => m.bytes
  | .modify .acc => []
  | .modify (.mem m) => m.ea.bytes
  | .relative off => [off]
  | .absolute w => [Machine.loByte w, Machine.hiByte w]
  | .indirect w => [Machine.loByte w, Machine.hiByte w]

/-- The bytes of an instruction: its opcode byte, then its operand bytes (R100, R104). -/
def encode (i : Instr) : List Byte := i.opcode :: i.form.bytes

/-- The length of an instruction in bytes (R101, R102). -/
def Instr.length (i : Instr) : Nat := i.form.bytes.length + 1

end Sys2Proof
end

