-- ==== Sys2Proof/Machine/Fetch.lean ====
section
/-! DEFINITION. Fetching an instruction's bytes (R100, R121, R122), and placing an instruction where the next fetch reads it. -/

namespace Sys2Proof.Machine

/-- `n` successive `Fetch8`: the bytes in address order, and the state after them (R103, R121). -/
def State.fetchBytes : Nat → State → List Byte × State
  | 0, s => ([], s)
  | n + 1, s =>
    let r := s.fetch8
    let q := State.fetchBytes n r.2
    (r.1 :: q.1, q.2)

/-- The opcode byte, then the operand bytes its row has (R102, R123); an unassigned opcode takes no operand byte (R263). Every
byte of an instruction is fetched before any other access of it (R137; log 16). -/
def State.fetchInstr (s : State) : Instr × State :=
  let op := s.fetch8
  match rowOf op.1 with
  | .none i => (i, op.2)
  | .byte make =>
    let b1 := op.2.fetch8
    (make b1.1, b1.2)
  | .word make =>
    let b1 := op.2.fetch8
    let b2 := b1.2.fetch8
    (make (word b1.1 b2.1), b2.2)

/-- Where a program is placed when the pc does not point at RAM: RAM under every bank setting (R384). -/
def loadAddr : Addr := 0xC000#16

/-- Whether the three bytes at an address are fetched from RAM as the banks stand. -/
def State.inRam (s : State) (a : Addr) : Bool :=
  s.source a == .ram && s.source (a + 1) == .ram && s.source (a + 2) == .ram

/-- The machine with three bytes placed in RAM where the next step fetches its instruction, and the next step made to fetch:
running, no interrupt latched and no callback due (log 3). The pc moves to `loadAddr` only when it does not
point at RAM. -/
def State.placeInstr (s : State) (b0 b1 b2 : Byte) : State :=
  let pc := if s.inRam s.pc then s.pc else loadAddr
  { s with
    pc := pc, running := true, irqPending := false
    queue := s.queue.filter (fun e => s.cycles < e.1)
    ram := ((s.ram.write pc.toNat b0).write (pc + 1).toNat b1).write (pc + 2).toNat b2 }

end Sys2Proof.Machine
end

