-- ==== Sys2Proof/Machine/Processor.lean ====
section
/-! DEFINITION. The Processor's `Step` (R120). Its Boolean answer is `running` of the state after it: false in cases (a) and
(c), true in cases (b) and (d) (log 2). -/

namespace Sys2Proof.Machine

/-- `Step()`, its four cases in R120's order: halted; interrupt entry, which executes no instruction; the halting fetch of an
unassigned opcode and the execution of an instruction (both through `exec`). -/
def stepProcessor (s : State) : Result :=
  if !s.running then .fault .halted
  else if s.irqPending && !s.flag .i then complete Config.irqEntryCycles s.interruptEntry
  else
    let f := s.fetchInstr
    exec f.1 f.2

/-- What follows a `Step` in the run loop: after a successful one, `VideoAdvance` of the cycles it took (R360, R363, R14; log 18). A
`Step` that reports failure leaves `running` false, and ends the pass (R120 (c)). -/
def notifyVideo (before : Nat) : Result → Result
  | .next t => .next (if t.running then t.emit (.videoAdvance (t.cycles - before)) else t)
  | .fault f => .fault f
  | .refused r => .refused r

end Sys2Proof.Machine
end

