-- ==== Sys2Proof/Machine/Scheduler.lean ====
section
/-! DEFINITION. `HandleDue` (R354): due callbacks run, earliest first. -/

namespace Sys2Proof.Machine

/-- The `HandleDue` loop, bounded by `fuel` pops: the entry is removed before its callback runs, and the head is looked at
again after every callback (R354). -/
def drainDue (current : Nat) : Nat → State → State
  | 0, s => s
  | fuel + 1, s =>
    match s.queue with
    | [] => s
    | (target, r) :: q =>
      if target ≤ current then drainDue current fuel (State.timerCallback { s with queue := q } r) else s

/-- `HandleDue(currentCycle)` (R354). Each queued request fires at most once in a call, since a timer callback queues itself
after the present cycle, so the queue's length bounds the pops (R354; log 11). -/
def State.handleDue (s : State) (current : Nat) : State := drainDue current s.queue.length s

/-- The run loop's test: due callbacks run when the next deadline has been reached (R360, D27). -/
def State.serviceDue (s : State) : State := if s.nextDeadline ≤ s.cycles then s.handleDue s.cycles else s

end Sys2Proof.Machine
end

