-- ==== Sys2Proof/Machine/Step.lean ====
section
/-! DEFINITION. One step of the block: a pass of the run loop's body (R360, R363). -/

namespace Sys2Proof.Machine

/-- Due scheduler callbacks, then the Processor's `Step`, then `VideoAdvance` if it succeeded (R360, R363; log 1). -/
def step (s : State) : Host.Outcome State Fault Refusal := notifyVideo s.serviceDue.cycles (stepProcessor s.serviceDue)

/-- `s` with a table word placed where `step` fetches its next instruction, so that the next step runs it (log 3). -/
def State.withFetchWord (s : State) (nbits w : Nat) : State :=
  s.placeInstr (tableByte nbits w 0) (tableByte nbits w 1) (tableByte nbits w 2)

end Sys2Proof.Machine
end

