-- ==== Sys2Proof/Machine/HostOps.lean ====
section
/-! DEFINITION. The operations the host drives from outside (R6) beside `RunCycles`: direct accesses with the out-of-range path,
interrupt requests, a warm `Reset`, the pin inputs. They land between steps (R7; log 14). -/

namespace Sys2Proof.Machine

/-- A report: an output of the block that changes no state (R290). -/
inductive Report where
  | outOfRange (a : Int)
deriving DecidableEq, Repr

/-- Whether an address is in [0, 65535] (R68). -/
def inRange (a : Int) : Bool := 0 ≤ a && a ≤ 65535

/-- `Read` by the host: out of range, the sentinel and a report (R66, R68). -/
def State.hostRead (s : State) (a : Int) : Byte × State × Option Report :=
  if inRange a then
    let r := s.read (BitVec.ofInt 16 a)
    (r.1, r.2, none)
  else (Config.sentinel, s, some (.outOfRange a))

/-- `Write` by the host: out of range, ignored with a report (R67, R68). -/
def State.hostWrite (s : State) (a : Int) (v : Byte) : State × Option Report :=
  if inRange a then (s.write (BitVec.ofInt 16 a) v, none) else (s, some (.outOfRange a))

/-- `RequestIrq(k)` by the host; a source above 7 has no meaning (R272, D39; log 12). -/
def State.hostRequestIrq (s : State) (k : Nat) : Result :=
  if h : k < 8 then .next (s.requestIrq ⟨k, h⟩) else .refused (.noSuchIrqSource k)

/-- `UnrequestIrq(k)` by the host (R273, D39; log 12). -/
def State.hostUnrequestIrq (s : State) (k : Nat) : Result :=
  if h : k < 8 then .next (s.unrequestIrq ⟨k, h⟩) else .refused (.noSuchIrqSource k)

/-- A warm `Reset` is defined only with an empty queue and neither chip's interrupt output up (R382, D34). -/
def State.resetDefined (s : State) : Bool := s.queue.isEmpty && !s.chip0.line && !s.chip1.line

/-- `Reset` by the host (R381, R382; log 12). -/
def State.hostReset (s : State) : Result :=
  if s.resetDefined then .next s.resetProcessor else .refused .warmResetUndefined

/-- The environment attaches something to a chip's ports, or changes what they show (R312; log 9). -/
def State.setPins (s : State) (k : ChipId) (pinsA pinsB : PinInput) : State :=
  s.setChip k { s.chip k with pinsA := pinsA, pinsB := pinsB }

end Sys2Proof.Machine
end

