-- ==== Sys2Proof/Machine/Orchestrator.lean ====
section
/-! DEFINITION. The Orchestrator's `RunCycles` (R360). -/

namespace Sys2Proof.Machine

/-- The loop of `RunCycles`, bounded by `fuel` passes: due callbacks, `Step`, `VideoAdvance`; it ends at the target, or at a `Step` that
reports failure, which is a halted or halting Processor (R360). -/
def runLoop (target : Nat) : Nat → State → State
  | 0, s => s
  | fuel + 1, s =>
    if s.cycles < target then
      match step s with
      | .next t => if t.running then runLoop target fuel t else t
      | .fault _ => s.serviceDue
      | .refused _ => s.serviceDue
    else s

/-- `RunCycles(n)` (R360). A pass that does not end the loop advances `cycles` (R395), so `n` passes reach the target. -/
def State.runCycles (s : State) (n : Nat) : State := runLoop (s.cycles + n) n s

end Sys2Proof.Machine
end

