-- ==== Sys2Proof/Safety.lean ====
section
/-! DEFINITION. The terms claims are stated in: the invariant of the block, what an access may touch, and the frames of
the instruction shapes. -/

namespace Sys2Proof.Machine

/-! The invariant, part by part. -/

/-- RAM and the ROM images are in canonical form and within their sizes (R31, R10). -/
def State.MemoryCanonical (s : State) : Prop :=
  Memory.wf 65536 s.ram ∧ Memory.wf Config.kernelSize s.romKernel ∧ Memory.wf Config.basicSize s.romBasic ∧
    Memory.wf Config.charSize s.romChar

/-- Bit 5 of `P` reads 1 (R24). -/
def State.UnusedSet (s : State) : Prop := s.flag .u = true

/-- The force-load bit is never stored (R36). -/
def State.ForceLoadClear (s : State) : Prop := ∀ k t, (s.timer k t).cr.getLsbD 4 = false

/-- The latch is up exactly when a source is asserted and I is clear (R274). -/
def State.LatchCurrent (s : State) : Prop := s.irqPending = (s.irqSources != 0 && !s.flag .i)

/-- Each chip's source bit equals its interrupt output (R330). -/
def State.LinesFollow (s : State) : Prop := ∀ k : ChipId, s.irqSources.getLsbD k.source.val = (s.chip k).line

/-- The queue is ascending and holds no request twice (R39, R350). -/
def State.QueueOrdered (s : State) : Prop := s.queue.Pairwise (fun d e => d.1 ≤ e.1 ∧ d.2 ≠ e.2)

/-- A timer that counts the clock has its request queued at `last + counter + 1`, with `last` not in the future; another
timer's request is not queued (R325, R331, R332). -/
def State.TimersArmed (s : State) : Prop := ∀ k t,
  if counting t (s.timer k t) then
    (s.timer k t).last ≤ s.cycles ∧ ((s.timer k t).last + (s.timer k t).counter.toNat + 1, ⟨k, t⟩) ∈ s.queue
  else s.queued ⟨k, t⟩ = false

/-- The invariant of the block. -/
structure State.Inv (s : State) : Prop where
  memory : s.MemoryCanonical
  unused : s.UnusedSet
  forceLoad : s.ForceLoadClear
  latch : s.LatchCurrent
  lines : s.LinesFollow
  queue : s.QueueOrdered
  armed : s.TimersArmed

/-! Frames. -/

/-- `t` is `s` but for what an I-O access or a callback can touch: the chips, the interrupt sources and latch, the queue, the
count of draws, and the trace of outputs. -/
def OnlyDevices (s t : State) : Prop :=
  { t with chip0 := s.chip0, chip1 := s.chip1, irqSources := s.irqSources, irqPending := s.irqPending
           queue := s.queue, draws := s.draws, outputs := s.outputs } = s

/-- The chips, the interrupt sources, the queue, the count of draws and the outputs of `t` are those of `u`. -/
def SameChips (u t : State) : Prop :=
  t.chip0 = u.chip0 ∧ t.chip1 = u.chip1 ∧ t.irqSources = u.irqSources ∧ t.queue = u.queue ∧ t.draws = u.draws ∧
    t.outputs = u.outputs

/-- The devices of `t`, the interrupt latch among them, are those of `u`. -/
def SameDevices (u t : State) : Prop := SameChips u t ∧ t.irqPending = u.irqPending

/-- No stored byte, latch or ROM byte changed, and every address that is not selected I-O reads as before. -/
def MemoryUntouched (s t : State) : Prop :=
  t.ram = s.ram ∧ t.bankDdr = s.bankDdr ∧ t.bankPort = s.bankPort ∧ t.romKernel = s.romKernel ∧
    t.romBasic = s.romBasic ∧ t.romChar = s.romChar ∧
    ∀ b : Addr, t.source b = s.source b ∧ (s.source b ≠ .io → t.byteAt b = s.byteAt b)

/-- Every flag but those named is as before. -/
def FlagsKept (s t : State) (changed : List Flag) : Prop := ∀ f, f ∉ changed → t.flag f = s.flag f

/-- N and Z follow a result (R139). -/
def NegativeZero (t : State) (v : Byte) : Prop := t.flag .z = (v == 0) ∧ t.flag .n = v.getLsbD 7

/-- What every reading instruction leaves: `PC`, `S`, `running`, all memory as before, the devices as the operand's own
read leaves them, and the cost of R395. -/
def ReadFrame (s t : State) (o : Operand) : Prop :=
  t.pc = s.pc ∧ t.sp = s.sp ∧ t.running = s.running ∧ MemoryUntouched s t ∧
    SameDevices (s.readOperand o).state t ∧ t.cycles = s.cycles + readCycles o (s.readOperand o).crossed

/-- What every instruction that touches no memory leaves: memory and the devices as before, `running` too, and its cost. -/
def InnerFrame (s t : State) (cost : Nat) : Prop :=
  t.running = s.running ∧ MemoryUntouched s t ∧ SameDevices s t ∧ t.cycles = s.cycles + cost

/-- What one byte stored at `a` does to memory (R67): it lands in a latch, in RAM (under a ROM too), or goes to the I-O region;
every byte of RAM at another address is as before, and, when the map is not changed by the store, every other address
that is not selected I-O reads as before. -/
def StoredAt (s t : State) (a : Addr) (v : Byte) : Prop :=
  (∀ b : Addr, b ≠ a → t.ram.read b.toNat = s.ram.read b.toNat) ∧
  t.romKernel = s.romKernel ∧ t.romBasic = s.romBasic ∧ t.romChar = s.romChar ∧
  t.bankDdr = (if a = 0 then v else s.bankDdr) ∧ t.bankPort = (if a = 1 then v else s.bankPort) ∧
  (a ≠ 0 → a ≠ 1 → ∀ b : Addr, t.source b = s.source b ∧ (b ≠ a → s.source b ≠ .io → t.byteAt b = s.byteAt b)) ∧
  t.ram.read a.toNat = (if a = 0 ∨ a = 1 ∨ s.source a = .io then s.ram.read a.toNat else v) ∧
  SameDevices (if s.source a = .io then s.ioWrite a v else s) t

/-- The registers `A`, `X`, `Y`, `S`, `P`, `PC` and `running` are as before. -/
def RegistersKept (s t : State) : Prop :=
  t.a = s.a ∧ t.x = s.x ∧ t.y = s.y ∧ t.sp = s.sp ∧ t.p = s.p ∧ t.pc = s.pc ∧ t.running = s.running

/-- The operand of a read-modify-write instruction. -/
def State.targetValue (s : State) : Target → Byte
  | .acc => s.a
  | .mem m => s.byteAt (s.effAddr m.ea).addr

/-- What a read-modify-write instruction that gives `r` leaves: the accumulator written, or one read and then one write of the
same address (R137, R138); `X`, `Y`, `S`, `PC`, `running` as before, and the cost of R395. -/
def Modified (s t : State) (g : Target) (r : Byte) : Prop :=
  t.x = s.x ∧ t.y = s.y ∧ t.sp = s.sp ∧ t.pc = s.pc ∧ t.running = s.running ∧ t.cycles = s.cycles + modifyCycles g ∧
  match g with
  | .acc => t.a = r ∧ MemoryUntouched s t ∧ SameDevices s t
  | .mem m => t.a = s.a ∧ StoredAt (s.afterRead (s.effAddr m.ea).addr) t (s.effAddr m.ea).addr r

/-- What pushing bytes, the first one first, leaves: each on the stack, `S` below them, and every other byte as before. -/
def Pushed (s t : State) (bytes : List Byte) : Prop :=
  t.sp = s.sp - BitVec.ofNat 8 bytes.length ∧
  (∀ k v, bytes[k]? = some v → t.ram.read (stackAddr (s.sp - BitVec.ofNat 8 k)).toNat = v) ∧
  (∀ b : Addr, (∀ k < bytes.length, b ≠ stackAddr (s.sp - BitVec.ofNat 8 k)) →
    t.ram.read b.toNat = s.ram.read b.toNat ∧ (s.source b ≠ .io → t.byteAt b = s.byteAt b)) ∧
  (∀ b : Addr, t.source b = s.source b) ∧ t.bankDdr = s.bankDdr ∧ t.bankPort = s.bankPort ∧
  t.romKernel = s.romKernel ∧ t.romBasic = s.romBasic ∧ t.romChar = s.romChar

/-- The byte `n` places above the stack pointer, as `n` pulls find it. -/
def State.stackByte (s : State) (n : Nat) : Byte := s.byteAt (stackAddr (s.sp + BitVec.ofNat 8 n))

/-! The trace of outputs (log 18). -/

/-- `s` with its trace standing after an earlier one: the same block, more of whose past is recorded. -/
def State.behind (s : State) (past : List Output) : State := { s with outputs := s.outputs ++ past }

/-- The cycles a stretch of the trace advances the video collaborator by (R14). -/
def videoCycles : List Output → Nat
  | [] => 0
  | .videoAdvance n :: os => n + videoCycles os
  | _ :: os => videoCycles os

end Sys2Proof.Machine

/-! The opcode map as spec/opcode_table.json and R104 print it: an independent list the claims compare the decoder with. -/

namespace Sys2Proof

/-- The thirteen formats by name (R101). -/
inductive Format where
  | imp | acc | imm | zp | zpx | zpy | abs | absx | absy | ind | indx | indy | rel
deriving DecidableEq, Repr

/-- The name of a memory format. -/
def EaMode.format : EaMode → Format
  | .zp _ => .zp
  | .zpx _ => .zpx
  | .zpy _ => .zpy
  | .abs _ => .abs
  | .absx _ => .absx
  | .absy _ => .absy
  | .indx _ => .indx
  | .indy _ => .indy

/-- The name of a format (R101). -/
def Form.format : Form → Format
  | .implied => .imp
  | .read (.imm _) => .imm
  | .read (.mem m) => m.format
  | .store m => m.format
  | .modify .acc => .acc
  | .modify (.mem m) => m.ea.format
  | .relative _ => .rel
  | .absolute _ => .abs
  | .indirect _ => .ind

/-- How many operand bytes a format has (R101). -/
def Format.operandBytes : Format → Nat
  | .imp => 0
  | .acc => 0
  | .imm => 1
  | .zp => 1
  | .zpx => 1
  | .zpy => 1
  | .abs => 2
  | .absx => 2
  | .absy => 2
  | .ind => 2
  | .indx => 1
  | .indy => 1
  | .rel => 1

/-- The marks on a cycle count (R104): none, `+p`, `+b`. -/
inductive Extra where
  | none | page | branch
deriving DecidableEq, Repr

/-- One printed row of the map. -/
structure PrintedRow where
  mnemonic : Mnemonic
  format : Format
  opcode : Byte
  cycles : Nat
  extra : Extra
deriving DecidableEq, Repr

/-- The encodings a rule lists for a mnemonic are exactly its rows. -/
def EncodedAs (m : Mnemonic) (rows : List (Format × Byte)) : Prop :=
  ∀ i : Instr, i.wf = true → (i.mnemonic = m ↔ (i.form.format, i.opcode) ∈ rows)

/-- The rows of R104, in the order it prints them: mnemonic, format, opcode, cycles, mark. -/
def printedRows : List PrintedRow :=
  [⟨.adc, .imm, 0x69#8, 2, .none⟩, ⟨.adc, .zp, 0x65#8, 3, .none⟩, ⟨.adc, .zpx, 0x75#8, 4, .none⟩,
   ⟨.adc, .abs, 0x6D#8, 4, .none⟩, ⟨.adc, .absx, 0x7D#8, 4, .page⟩, ⟨.adc, .absy, 0x79#8, 4, .page⟩,
   ⟨.adc, .indx, 0x61#8, 6, .none⟩, ⟨.adc, .indy, 0x71#8, 5, .page⟩] ++
  [⟨.and, .imm, 0x29#8, 2, .none⟩, ⟨.and, .zp, 0x25#8, 3, .none⟩, ⟨.and, .zpx, 0x35#8, 4, .none⟩,
   ⟨.and, .abs, 0x2D#8, 4, .none⟩, ⟨.and, .absx, 0x3D#8, 4, .page⟩, ⟨.and, .absy, 0x39#8, 4, .page⟩,
   ⟨.and, .indx, 0x21#8, 6, .none⟩, ⟨.and, .indy, 0x31#8, 5, .page⟩] ++
  [⟨.asl, .acc, 0x0A#8, 2, .none⟩, ⟨.asl, .zp, 0x06#8, 5, .none⟩, ⟨.asl, .zpx, 0x16#8, 6, .none⟩,
   ⟨.asl, .abs, 0x0E#8, 6, .none⟩, ⟨.asl, .absx, 0x1E#8, 7, .none⟩] ++
  [⟨.bcc, .rel, 0x90#8, 2, .branch⟩] ++
  [⟨.bcs, .rel, 0xB0#8, 2, .branch⟩] ++
  [⟨.beq, .rel, 0xF0#8, 2, .branch⟩] ++
  [⟨.bit, .zp, 0x24#8, 3, .none⟩, ⟨.bit, .abs, 0x2C#8, 4, .none⟩] ++
  [⟨.bmi, .rel, 0x30#8, 2, .branch⟩] ++
  [⟨.bne, .rel, 0xD0#8, 2, .branch⟩] ++
  [⟨.bpl, .rel, 0x10#8, 2, .branch⟩] ++
  [⟨.brk, .imp, 0x00#8, 7, .none⟩] ++
  [⟨.bvc, .rel, 0x50#8, 2, .branch⟩] ++
  [⟨.bvs, .rel, 0x70#8, 2, .branch⟩] ++
  [⟨.clc, .imp, 0x18#8, 2, .none⟩] ++
  [⟨.cld, .imp, 0xD8#8, 2, .none⟩] ++
  [⟨.cli, .imp, 0x58#8, 2, .none⟩] ++
  [⟨.clv, .imp, 0xB8#8, 2, .none⟩] ++
  [⟨.cmp, .imm, 0xC9#8, 2, .none⟩, ⟨.cmp, .zp, 0xC5#8, 3, .none⟩, ⟨.cmp, .zpx, 0xD5#8, 4, .none⟩,
   ⟨.cmp, .abs, 0xCD#8, 4, .none⟩, ⟨.cmp, .absx, 0xDD#8, 4, .page⟩, ⟨.cmp, .absy, 0xD9#8, 4, .page⟩,
   ⟨.cmp, .indx, 0xC1#8, 6, .none⟩, ⟨.cmp, .indy, 0xD1#8, 5, .page⟩] ++
  [⟨.cpx, .imm, 0xE0#8, 2, .none⟩, ⟨.cpx, .zp, 0xE4#8, 3, .none⟩, ⟨.cpx, .abs, 0xEC#8, 4, .none⟩] ++
  [⟨.cpy, .imm, 0xC0#8, 2, .none⟩, ⟨.cpy, .zp, 0xC4#8, 3, .none⟩, ⟨.cpy, .abs, 0xCC#8, 4, .none⟩] ++
  [⟨.dec, .zp, 0xC6#8, 5, .none⟩, ⟨.dec, .zpx, 0xD6#8, 6, .none⟩, ⟨.dec, .abs, 0xCE#8, 6, .none⟩,
   ⟨.dec, .absx, 0xDE#8, 7, .none⟩] ++
  [⟨.dex, .imp, 0xCA#8, 2, .none⟩] ++
  [⟨.dey, .imp, 0x88#8, 2, .none⟩] ++
  [⟨.eor, .imm, 0x49#8, 2, .none⟩, ⟨.eor, .zp, 0x45#8, 3, .none⟩, ⟨.eor, .zpx, 0x55#8, 4, .none⟩,
   ⟨.eor, .abs, 0x4D#8, 4, .none⟩, ⟨.eor, .absx, 0x5D#8, 4, .page⟩, ⟨.eor, .absy, 0x59#8, 4, .page⟩,
   ⟨.eor, .indx, 0x41#8, 6, .none⟩, ⟨.eor, .indy, 0x51#8, 5, .page⟩] ++
  [⟨.inc, .zp, 0xE6#8, 5, .none⟩, ⟨.inc, .zpx, 0xF6#8, 6, .none⟩, ⟨.inc, .abs, 0xEE#8, 6, .none⟩,
   ⟨.inc, .absx, 0xFE#8, 7, .none⟩] ++
  [⟨.inx, .imp, 0xE8#8, 2, .none⟩] ++
  [⟨.iny, .imp, 0xC8#8, 2, .none⟩] ++
  [⟨.jmp, .abs, 0x4C#8, 3, .none⟩, ⟨.jmp, .ind, 0x6C#8, 5, .none⟩] ++
  [⟨.jsr, .abs, 0x20#8, 6, .none⟩] ++
  [⟨.lda, .imm, 0xA9#8, 2, .none⟩, ⟨.lda, .zp, 0xA5#8, 3, .none⟩, ⟨.lda, .zpx, 0xB5#8, 4, .none⟩,
   ⟨.lda, .abs, 0xAD#8, 4, .none⟩, ⟨.lda, .absx, 0xBD#8, 4, .page⟩, ⟨.lda, .absy, 0xB9#8, 4, .page⟩,
   ⟨.lda, .indx, 0xA1#8, 6, .none⟩, ⟨.lda, .indy, 0xB1#8, 5, .page⟩] ++
  [⟨.ldx, .imm, 0xA2#8, 2, .none⟩, ⟨.ldx, .zp, 0xA6#8, 3, .none⟩, ⟨.ldx, .zpy, 0xB6#8, 4, .none⟩,
   ⟨.ldx, .abs, 0xAE#8, 4, .none⟩, ⟨.ldx, .absy, 0xBE#8, 4, .page⟩] ++
  [⟨.ldy, .imm, 0xA0#8, 2, .none⟩, ⟨.ldy, .zp, 0xA4#8, 3, .none⟩, ⟨.ldy, .zpx, 0xB4#8, 4, .none⟩,
   ⟨.ldy, .abs, 0xAC#8, 4, .none⟩, ⟨.ldy, .absx, 0xBC#8, 4, .page⟩] ++
  [⟨.lsr, .acc, 0x4A#8, 2, .none⟩, ⟨.lsr, .zp, 0x46#8, 5, .none⟩, ⟨.lsr, .zpx, 0x56#8, 6, .none⟩,
   ⟨.lsr, .abs, 0x4E#8, 6, .none⟩, ⟨.lsr, .absx, 0x5E#8, 7, .none⟩] ++
  [⟨.nop, .imp, 0xEA#8, 2, .none⟩] ++
  [⟨.ora, .imm, 0x09#8, 2, .none⟩, ⟨.ora, .zp, 0x05#8, 3, .none⟩, ⟨.ora, .zpx, 0x15#8, 4, .none⟩,
   ⟨.ora, .abs, 0x0D#8, 4, .none⟩, ⟨.ora, .absx, 0x1D#8, 4, .page⟩, ⟨.ora, .absy, 0x19#8, 4, .page⟩,
   ⟨.ora, .indx, 0x01#8, 6, .none⟩, ⟨.ora, .indy, 0x11#8, 5, .page⟩] ++
  [⟨.pha, .imp, 0x48#8, 3, .none⟩] ++
  [⟨.php, .imp, 0x08#8, 3, .none⟩] ++
  [⟨.pla, .imp, 0x68#8, 4, .none⟩] ++
  [⟨.plp, .imp, 0x28#8, 4, .none⟩] ++
  [⟨.rol, .acc, 0x2A#8, 2, .none⟩, ⟨.rol, .zp, 0x26#8, 5, .none⟩, ⟨.rol, .zpx, 0x36#8, 6, .none⟩,
   ⟨.rol, .abs, 0x2E#8, 6, .none⟩, ⟨.rol, .absx, 0x3E#8, 7, .none⟩] ++
  [⟨.ror, .acc, 0x6A#8, 2, .none⟩, ⟨.ror, .zp, 0x66#8, 5, .none⟩, ⟨.ror, .zpx, 0x76#8, 6, .none⟩,
   ⟨.ror, .abs, 0x6E#8, 6, .none⟩, ⟨.ror, .absx, 0x7E#8, 7, .none⟩] ++
  [⟨.rti, .imp, 0x40#8, 6, .none⟩] ++
  [⟨.rts, .imp, 0x60#8, 6, .none⟩] ++
  [⟨.sbc, .imm, 0xE9#8, 2, .none⟩, ⟨.sbc, .zp, 0xE5#8, 3, .none⟩, ⟨.sbc, .zpx, 0xF5#8, 4, .none⟩,
   ⟨.sbc, .abs, 0xED#8, 4, .none⟩, ⟨.sbc, .absx, 0xFD#8, 4, .page⟩, ⟨.sbc, .absy, 0xF9#8, 4, .page⟩,
   ⟨.sbc, .indx, 0xE1#8, 6, .none⟩, ⟨.sbc, .indy, 0xF1#8, 5, .page⟩] ++
  [⟨.sec, .imp, 0x38#8, 2, .none⟩] ++
  [⟨.sed, .imp, 0xF8#8, 2, .none⟩] ++
  [⟨.sei, .imp, 0x78#8, 2, .none⟩] ++
  [⟨.sta, .zp, 0x85#8, 3, .none⟩, ⟨.sta, .zpx, 0x95#8, 4, .none⟩, ⟨.sta, .abs, 0x8D#8, 4, .none⟩,
   ⟨.sta, .absx, 0x9D#8, 5, .none⟩, ⟨.sta, .absy, 0x99#8, 5, .none⟩, ⟨.sta, .indx, 0x81#8, 6, .none⟩,
   ⟨.sta, .indy, 0x91#8, 6, .none⟩] ++
  [⟨.stx, .zp, 0x86#8, 3, .none⟩, ⟨.stx, .zpy, 0x96#8, 4, .none⟩, ⟨.stx, .abs, 0x8E#8, 4, .none⟩] ++
  [⟨.sty, .zp, 0x84#8, 3, .none⟩, ⟨.sty, .zpx, 0x94#8, 4, .none⟩, ⟨.sty, .abs, 0x8C#8, 4, .none⟩] ++
  [⟨.tax, .imp, 0xAA#8, 2, .none⟩] ++
  [⟨.tay, .imp, 0xA8#8, 2, .none⟩] ++
  [⟨.tsx, .imp, 0xBA#8, 2, .none⟩] ++
  [⟨.txa, .imp, 0x8A#8, 2, .none⟩] ++
  [⟨.txs, .imp, 0x9A#8, 2, .none⟩] ++
  [⟨.tya, .imp, 0x98#8, 2, .none⟩]

/-- The page-cross mark as it falls due: the effective address of the operand leaves the base's page (R125). -/
def pageMark (s : Machine.State) (i : Instr) : Nat :=
  match i.form with
  | .read (.mem m) => (s.effAddr m).crossed.toNat
  | _ => 0

/-- The condition of a branch (R221 to R228). -/
def branchCondition (s : Machine.State) (m : Mnemonic) : Bool :=
  match m with
  | .bpl => !s.flag .n
  | .bmi => s.flag .n
  | .bvc => !s.flag .v
  | .bvs => s.flag .v
  | .bcc => !s.flag .c
  | .bcs => s.flag .c
  | .bne => !s.flag .z
  | .beq => s.flag .z
  | _ => false

/-- A branch's target, from the address after the branch (R135, R220). -/
def branchTarget (pc : Addr) (off : Byte) : Nat := (((pc.toNat : Int) + off.toInt) % 65536).toNat

/-- The branch mark as it falls due: one when taken, one more when the target is in another page (R125). -/
def branchMark (s : Machine.State) (i : Instr) : Nat :=
  match i.form with
  | .relative off =>
    if branchCondition s i.mnemonic then
      (if branchTarget s.pc off / 256 = s.pc.toNat / 256 then 1 else 2)
    else 0
  | _ => 0

/-- The cost of a printed row (R104, R125). -/
def PrintedRow.cost (row : PrintedRow) (s : Machine.State) (i : Instr) : Nat :=
  row.cycles + match row.extra with
    | .none => 0
    | .page => pageMark s i
    | .branch => branchMark s i

end Sys2Proof
end

