-- ==== Sys2Proof/Certificates/Slice0/Obligations.lean ====
section
/-! DEFINITION. The statements for the provers. Each docstring names the rules it formalises, or the log entry it rests on. -/

open Sys2Proof Sys2Proof.Machine

/-! Encoding. -/

/-- Decoding the encoding of a well-formed instruction gives it back, whatever bytes follow (R100 to R104). -/
def Obligations.DecodeEncodeRoundTrip : Prop :=
  ∀ (i : Instr) (rest : List Byte), i.wf = true → decode (encode i ++ rest) = .ok (i, rest)

/-- Whatever the decoder reads is a well-formed instruction, and the bytes it took are that instruction's encoding (R100, R102). -/
def Obligations.DecodedBytesAreTheEncoding : Prop :=
  ∀ (bytes rest : List Byte) (i : Instr), decode bytes = .ok (i, rest) → i.wf = true ∧ bytes = encode i ++ rest

/-- Every row R104 prints is how its opcode decodes: the mnemonic, the format, and operand bytes in address order (R101 to R103);
every byte value outside the printed rows is unassigned. -/
def Obligations.OpcodeMapIsThePrintedOne : Prop :=
  (∀ row ∈ printedRows, ∀ (b1 b2 : Byte) (rest : List Byte), ∃ i,
    decode (row.opcode :: b1 :: b2 :: rest) = .ok (i, (b1 :: b2 :: rest).drop row.format.operandBytes) ∧
    i.mnemonic = row.mnemonic ∧ i.form.format = row.format ∧
    i.form.bytes = [b1, b2].take row.format.operandBytes) ∧
  printedRows.length = 151 ∧
  (∀ op : Byte, op ∉ printedRows.map PrintedRow.opcode → ∀ rest, decode (op :: rest) = .ok (.illegal op, rest))

/-- The 105 values of R107 are the unassigned ones: each decodes alone, to ILLEGAL, and no other value does. -/
def Obligations.UnassignedOpcodesAreThoseListed : Prop :=
  unassignedOpcodes.length = 105 ∧ unassignedOpcodes.Nodup ∧
  ∀ (op : Byte) (rest : List Byte),
    (op ∈ unassignedOpcodes ↔ decode (op :: rest) = .ok (.illegal op, rest)) ∧
    (op ∉ unassignedOpcodes → ∀ i, decode (op :: rest) = .ok (i, rest) → i.mnemonic ≠ .illegal)

/-- Words written out from the spec's own examples decode to the instructions they stand for. -/
def Obligations.ManualWordsDecode : Prop :=
  decode [0xA9, 0x80] = .ok (.ldaImm 0x80, []) ∧ decode [0x8D, 0x00, 0xC0] = .ok (.staAbs 0xC000, []) ∧
  decode [0x69, 0x50] = .ok (.adcImm 0x50, []) ∧ decode [0x24, 0x20] = .ok (.bitZp 0x20, []) ∧
  decode [0x46, 0x10] = .ok (.lsrZp 0x10, []) ∧ decode [0xE0, 0x0A] = .ok (.cpxImm 0x0A, []) ∧
  decode [0x20, 0x00, 0xC1] = .ok (.jsr 0xC100, []) ∧ decode [0xD0, 0xFB] = .ok (.bne 0xFB, []) ∧
  decode [0xCE, 0x00, 0xC0] = .ok (.decAbs 0xC000, []) ∧ decode [0x40] = .ok (.rti, []) ∧
  decode [0x6C, 0x10, 0x03] = .ok (.jmpInd 0x0310, []) ∧ decode [0xFF] = .ok (.illegal 0xFF, [])

/-! The step. -/

/-- When the Processor runs with no interrupt to take, and the bytes fetched at the pc are those of a well-formed instruction, the
step is that instruction run after the fetch, with the pc past its bytes (R120, R121, R123), and then the run loop's
`notifyVideo`, which `EveryRunningStepCompletes` describes (R360). The state is the one the due callbacks leave (log 1). -/
def Obligations.StepRunsTheFetchedInstruction : Prop :=
  ∀ (s : State) (i : Instr), s.serviceDue.running = true → (s.serviceDue.irqPending && !s.serviceDue.flag .i) = false →
    i.wf = true → (s.serviceDue.fetchBytes i.length).1 = encode i →
    step s = notifyVideo s.cycles (exec i (s.serviceDue.fetchBytes i.length).2) ∧
    (s.serviceDue.fetchBytes i.length).2.pc = s.serviceDue.pc + BitVec.ofNat 16 i.length

/-- The interface's placing of a word (log 3): the very next step runs exactly the placed instruction, in the state the placing
leaves but for the pc. The model's choice, not a rule of the spec. -/
def Obligations.PlacedWordRunsNext : Prop :=
  ∀ (s : State) (nbits w : Nat) (i : Instr), s.MemoryCanonical → decodeTableWord nbits w = some i →
    step (s.withFetchWord nbits w) = notifyVideo (s.withFetchWord nbits w).cycles
      (exec i { s.withFetchWord nbits w with pc := (s.withFetchWord nbits w).pc + BitVec.ofNat 16 i.length })

/-- A halted Processor steps no more: the model answers the fault `halted` (R120 (a), R293; the fault is log 2's choice), and
`RunCycles` leaves everything but the devices as it is (R401) and drives nothing outward. -/
def Obligations.HaltedMachineStops : Prop :=
  ∀ s : State, s.running = false → step s = .fault .halted ∧
    ∀ n, OnlyDevices s (s.runCycles n) ∧ (s.runCycles n).cycles = s.cycles ∧ (s.runCycles n).outputs = s.outputs

/-- An unassigned opcode at the pc halts the Processor: the pc is past the byte, nothing else changes, no cycles (R263). -/
def Obligations.UnassignedOpcodeHalts : Prop :=
  (∀ (op : Byte) (s : State), exec (.illegal op) s = .next { s with running := false }) ∧
  ∀ s : State, s.serviceDue.running = true → (s.serviceDue.irqPending && !s.serviceDue.flag .i) = false →
    s.serviceDue.byteAt s.serviceDue.pc ∈ unassignedOpcodes →
    step s = .next { s.serviceDue.afterRead s.serviceDue.pc with pc := s.serviceDue.pc + 1, running := false }

/-- A `Step` with an interrupt latched and I clear takes it in place of the instruction at the pc: pc high, pc low and the status
with Break clear are pushed, I is set, the latch drops, the pc comes from the vector; 7 cycles (R276, R120 (b)). -/
def Obligations.InterruptIsTakenBeforeTheFetch : Prop :=
  ∀ s : State, s.MemoryCanonical → s.running = true → s.irqPending = true → s.flag .i = false →
    ∃ t, stepProcessor s = .next t ∧
      Pushed s t [hiByte s.pc, loByte s.pc, (s.p &&& 0xEF#8) ||| 0x20#8] ∧
      t.pc = word (s.byteAt 0xFFFE#16) (s.byteAt 0xFFFF#16) ∧
      t.flag .i = true ∧ FlagsKept s t [.i] ∧ t.irqPending = false ∧ SameChips s t ∧
      t.a = s.a ∧ t.x = s.x ∧ t.y = s.y ∧ t.running = true ∧ t.cycles = s.cycles + 7

/-- Every step keeps the invariant: canonical memory (R31), bit 5 of P (R24), no stored force-load bit (R36), a current latch
(R274), lines equal to source bits (R330), an ordered queue without repeats (R39, R350), every clock-sourced timer armed
at its deadline (R331). -/
def Obligations.StepKeepsInvariant : Prop :=
  ∀ s t : State, s.Inv → step s = .next t → t.Inv

/-- Power-on leaves the invariant, for any canonical RAM contents and ROM images; so does the model's reset (logs 4, 5). -/
def Obligations.PowerOnHasInvariant : Prop :=
  State.reset.Inv ∧
  ∀ initRam kernel basic char : Memory, Memory.wf 65536 initRam → Memory.wf 8192 kernel → Memory.wf 8192 basic →
    Memory.wf 4096 char → (State.powerOn initRam kernel basic char).Inv

/-- Power-on ends in the Processor's reset, and a reset leaves the stated values and touches nothing outside the Processor (R45, R380,
R381). -/
def Obligations.ResetValues : Prop :=
  (∀ initRam kernel basic char : Memory,
    State.resetProcessor (State.powerOn initRam kernel basic char) = State.powerOn initRam kernel basic char) ∧
  ∀ s : State,
    let t := s.resetProcessor
    t.a = 0 ∧ t.x = 0 ∧ t.y = 0 ∧ t.sp = 0xFF#8 ∧ t.p = 0x30#8 ∧ t.cycles = 0 ∧ t.running = true ∧
    t.irqPending = false ∧ t.irqSources = 0 ∧ t.pc = word (s.byteAt 0xFFFC#16) (s.byteAt 0xFFFD#16) ∧
    MemoryUntouched s t ∧ t.chip0 = s.chip0 ∧ t.chip1 = s.chip1 ∧ t.queue = s.queue ∧ t.outputs = s.outputs

/-- A warm reset with an empty queue and both interrupt outputs down keeps every invariant; without that it is refused (R382;
the refusal is log 12). -/
def Obligations.WarmResetKeepsInvariant : Prop :=
  ∀ s : State,
    (s.queue = [] → s.chip0.line = false → s.chip1.line = false →
      s.hostReset = .next s.resetProcessor ∧ (s.Inv → s.resetProcessor.Inv)) ∧
    (¬(s.queue = [] ∧ s.chip0.line = false ∧ s.chip1.line = false) → s.hostReset = .refused .warmResetUndefined)

/-- Every running machine steps: the only fault is the halted state, and no step is refused (R124, R270); a step that goes on costs 2
to 7 cycles and ends in `VideoAdvance` of them, one that halts costs none and ends without (R395, R360, R14). -/
def Obligations.EveryRunningStepCompletes : Prop :=
  ∀ s : State, s.running = true → ∃ u, stepProcessor s.serviceDue = .next u ∧
    ((u.running = true ∧ s.cycles + 2 ≤ u.cycles ∧ u.cycles ≤ s.cycles + 7 ∧
      step s = .next { u with outputs := .videoAdvance (u.cycles - s.cycles) :: u.outputs }) ∨
     (u.running = false ∧ u.cycles = s.cycles ∧ step s = .next u))

/-- No step changes a ROM image: ROM is never mutated (R10, R32). That no step changes the pins is the model's choice (log 9): it
holds `PORT_PINS` in the state as an input that changes only between steps; R312 leaves them to the environment. -/
def Obligations.RomAndPinsNeverChange : Prop :=
  ∀ s t : State, step s = .next t →
    t.romKernel = s.romKernel ∧ t.romBasic = s.romBasic ∧ t.romChar = s.romChar ∧
    (∀ k, (t.chip k).pinsA = (s.chip k).pinsA ∧ (t.chip k).pinsB = (s.chip k).pinsB)

/-- A run that does not halt ends at its target or less than 7 cycles past it (R361). -/
def Obligations.RunCyclesReachesItsTarget : Prop :=
  ∀ (s : State) (n : Nat), (s.runCycles n).running = true →
    s.cycles + n ≤ (s.runCycles n).cycles ∧ (s.runCycles n).cycles < s.cycles + n + 7

/-- Before an instruction every due callback runs, earliest target first (R354, R360). With none due nothing happens. Else the head
entry is taken off, its callback runs, the update and then the start (R326), and servicing goes on from there: the
timer of the request has counted up to the present, its flag is up when that is an underflow, and the request itself is not
due again, so it fires once. At the end no deadline is left due, and no entry of the future is lost. -/
def Obligations.DueCallbacksAllRun : Prop :=
  ∀ s : State, s.QueueOrdered →
    ((∀ e ∈ s.queue, s.cycles < e.1) → s.serviceDue = s) ∧
    (∀ target r q, s.queue = (target, r) :: q → target ≤ s.cycles →
      let u := State.timerCallback { s with queue := q } r
      let tm := s.timer r.chip r.timer
      s.serviceDue = u.serviceDue ∧
      u = (State.updateTimer { s with queue := q } r.chip r.timer).startTimer r.chip r.timer ∧
      u.QueueOrdered ∧ OnlyDevices s u ∧ u.draws = s.draws ∧ u.outputs = s.outputs ∧
      (∀ e ∈ u.queue, e.2 = r → s.cycles < e.1) ∧ (∀ e : Nat × Request, e.2 ≠ r → (e ∈ u.queue ↔ e ∈ q)) ∧
      (counting r.timer tm = true →
        u.timer r.chip r.timer = { (tm.advance (s.cycles - tm.last)).1 with last := s.cycles } ∧
        (tm.counter.toNat < s.cycles - tm.last →
          (u.chip r.chip).icrFlags.getLsbD (if r.timer = .a then 0 else 1) = true)) ∧
      (counting r.timer tm = false → u = { s with queue := q })) ∧
    s.serviceDue.QueueOrdered ∧ (∀ e ∈ s.serviceDue.queue, s.cycles < e.1) ∧
    ∀ e ∈ s.queue, s.cycles < e.1 → e ∈ s.serviceDue.queue

/-- Under the run loop no timer underflows inside an instruction: what a clock-sourced running timer has to count never exceeds its
counter (R331). -/
def Obligations.NoUnderflowInsideAnInstruction : Prop :=
  ∀ (s : State) (k : ChipId) (t : TimerId), s.Inv → counting t (s.serviceDue.timer k t) = true →
    (s.serviceDue.timer k t).last ≤ s.cycles ∧
    s.cycles - (s.serviceDue.timer k t).last ≤ (s.serviceDue.timer k t).counter.toNat

/-! The address space. -/

/-- What a read sees by the three control bits, range by range, and everywhere else (R77, R78); two reads under the same latches see
the same source (R79). -/
def Obligations.BankTable : Prop :=
  ∀ (s : State) (a : Addr),
    (0xA000 ≤ a.toNat → a.toNat ≤ 0xBFFF → s.source a = (match s.charen, s.hiram, s.loram with
      | _, true, true => .basicRom | _, _, _ => .ram)) ∧
    (0xD000 ≤ a.toNat → a.toNat ≤ 0xDFFF → s.source a = (match s.charen, s.hiram, s.loram with
      | false, false, false => .ram | false, false, true => .charRom
      | false, true, false => .charRom | false, true, true => .charRom
      | true, false, false => .ram | true, false, true => .io
      | true, true, false => .io | true, true, true => .io)) ∧
    (0xE000 ≤ a.toNat → s.source a = (match s.charen, s.hiram, s.loram with
      | _, true, _ => .kernelRom | _, false, _ => .ram)) ∧
    (2 ≤ a.toNat → a.toNat ≤ 0x9FFF → s.source a = .ram) ∧
    (0xC000 ≤ a.toNat → a.toNat ≤ 0xCFFF → s.source a = .ram) ∧
    ∀ t : State, t.bankDdr = s.bankDdr → t.bankPort = s.bankPort → t.source a = s.source a

/-- The byte behind each source, at the boundaries R72, R73 and R74 give, and that such a read changes nothing (R66, R69). -/
def Obligations.ReadsByTheirSource : Prop :=
  ∀ (s : State) (a : Addr),
    (s.source a = .ram → s.read a = (s.ram.read a.toNat, s)) ∧
    (s.source a = .kernelRom → 0xE000 ≤ a.toNat ∧ s.read a = (s.romKernel.read (a.toNat - 0xE000), s)) ∧
    (s.source a = .basicRom → 0xA000 ≤ a.toNat ∧ a.toNat ≤ 0xBFFF ∧ s.read a = (s.romBasic.read (a.toNat - 0xA000), s)) ∧
    (s.source a = .charRom → 0xD000 ≤ a.toNat ∧ a.toNat ≤ 0xDFFF ∧ s.read a = (s.romChar.read (a.toNat - 0xD000), s)) ∧
    (s.source a = .io → 0xD000 ≤ a.toNat ∧ a.toNat ≤ 0xDFFF ∧ s.read a = s.ioRead a) ∧
    s.read 0 = (s.bankDdr, s) ∧ s.read 1 = (s.effPort, s)

/-- What a write does, in the latches, in RAM (under a ROM too) and in the I-O region, and all it leaves alone (R67, R70). -/
def Obligations.WriteLandsAtItsAddress : Prop :=
  ∀ (s : State) (a : Addr) (v : Byte), s.MemoryCanonical →
    StoredAt s (s.write a v) a v ∧ RegistersKept s (s.write a v) ∧ (s.write a v).cycles = s.cycles ∧
    (s.write a v).MemoryCanonical ∧
    (s.source a = .ram → (s.write a v).byteAt a = v) ∧
    (s.source a = .kernelRom ∨ s.source a = .basicRom ∨ s.source a = .charRom →
      (s.write a v).byteAt a = s.byteAt a ∧ (s.write a v).ram.read a.toNat = v)

/-- The bank control: all 8 bits of a latch stored and RAM untouched, undriven bits of the effective port 1, and the three control
bits the port's low ones, as the latches stand at the access (R63, R64, R65, R69, R70). -/
def Obligations.BankControl : Prop :=
  ∀ (s : State) (v : Byte),
    s.write 0 v = { s with bankDdr := v } ∧ s.write 1 v = { s with bankPort := v } ∧
    s.byteAt 0 = s.bankDdr ∧ s.byteAt 1 = s.effPort ∧
    (∀ k < 8, s.effPort.getLsbD k = (if s.bankDdr.getLsbD k then s.bankPort.getLsbD k else true)) ∧
    s.loram = s.effPort.getLsbD 0 ∧ s.hiram = s.effPort.getLsbD 1 ∧ s.charen = s.effPort.getLsbD 2

/-- Where an I-O access goes: the two chips by the low 4 bits of the address, the video collaborator, or nothing (R75, R76, R300);
what the video collaborator answers is a free value (log 8), so the statement says of it only that the access is driven outward,
with its address and its byte (R14; log 18), and changes nothing else. -/
def Obligations.IoRouting : Prop :=
  ∀ (s : State) (a : Addr) (v : Byte),
    (0xDC00 ≤ a.toNat → a.toNat ≤ 0xDCFF →
      s.ioRead a = s.readReg .zero (.ofIndex (a.toNat % 16)) ∧ s.ioWrite a v = s.writeReg .zero (.ofIndex (a.toNat % 16)) v) ∧
    (0xDD00 ≤ a.toNat → a.toNat ≤ 0xDDFF →
      s.ioRead a = s.readReg .one (.ofIndex (a.toNat % 16)) ∧ s.ioWrite a v = s.writeReg .one (.ofIndex (a.toNat % 16)) v) ∧
    ((0xD400 ≤ a.toNat ∧ a.toNat ≤ 0xD7FF) ∨ (0xDE00 ≤ a.toNat ∧ a.toNat ≤ 0xDFFF) →
      s.ioRead a = (0xFF#8, s) ∧ s.ioWrite a v = s) ∧
    ((0xD000 ≤ a.toNat ∧ a.toNat ≤ 0xD3FF) ∨ (0xD800 ≤ a.toNat ∧ a.toNat ≤ 0xDBFF) →
      (s.ioRead a).2 = { s with draws := s.draws + 1, outputs := .videoRead a :: s.outputs } ∧
      s.ioWrite a v = { s with outputs := .videoWrite a v :: s.outputs })

/-- The host's accesses outside [0, 65535]: the sentinel, an ignored write, a report, and no change (R68); inside it they are the
plain accesses. -/
def Obligations.HostAccessRange : Prop :=
  ∀ (s : State) (a : Int) (v : Byte),
    (a < 0 ∨ 65535 < a → s.hostRead a = (0xFF#8, s, some (.outOfRange a)) ∧
      s.hostWrite a v = (s, some (.outOfRange a))) ∧
    (0 ≤ a → a ≤ 65535 → ∀ b : Addr, (b.toNat : Int) = a →
      s.hostRead a = (s.byteAt b, s.afterRead b, none) ∧ s.hostWrite a v = (s.write b v, none))

/-! Operands. -/

/-- The effective address of each format as arithmetic, when a page is crossed, and what `ReadOperand` then gives: the immediate
byte itself, or the byte read at the address, once (R126 to R134, R137). -/
def Obligations.OperandForms : Prop :=
  ∀ (s : State) (z : Byte) (w : Addr) (m : EaMode),
    (s.effAddr (.zp z)).addr.toNat = z.toNat ∧
    (s.effAddr (.zpx z)).addr.toNat = (z.toNat + s.x.toNat) % 256 ∧
    (s.effAddr (.zpy z)).addr.toNat = (z.toNat + s.y.toNat) % 256 ∧
    (s.effAddr (.abs w)).addr = w ∧
    (s.effAddr (.absx w)).addr.toNat = (w.toNat + s.x.toNat) % 65536 ∧
    ((s.effAddr (.absx w)).crossed = true ↔ (w.toNat + s.x.toNat) % 65536 / 256 ≠ w.toNat / 256) ∧
    (s.effAddr (.absy w)).addr.toNat = (w.toNat + s.y.toNat) % 65536 ∧
    ((s.effAddr (.absy w)).crossed = true ↔ (w.toNat + s.y.toNat) % 65536 / 256 ≠ w.toNat / 256) ∧
    (∀ lo hi : Addr, lo.toNat = (z.toNat + s.x.toNat) % 256 → hi.toNat = (z.toNat + s.x.toNat + 1) % 256 →
      (s.effAddr (.indx z)).addr.toNat = (s.byteAt hi).toNat * 256 + (s.byteAt lo).toNat) ∧
    (∀ lo hi : Addr, lo.toNat = z.toNat → hi.toNat = (z.toNat + 1) % 256 →
      (s.effAddr (.indy z)).addr.toNat =
        ((s.byteAt hi).toNat * 256 + (s.byteAt lo).toNat + s.y.toNat) % 65536 ∧
      ((s.effAddr (.indy z)).crossed = true ↔
        ((s.byteAt hi).toNat * 256 + (s.byteAt lo).toNat + s.y.toNat) % 65536 / 256 ≠ (s.byteAt hi).toNat)) ∧
    (s.readOperand (.imm z)).value = z ∧ (s.readOperand (.imm z)).state = s ∧
    ((s.readOperand (.mem m)).value, (s.readOperand (.mem m)).state) = s.read (s.effAddr m).addr

/-- The cost of every instruction is its printed figure with the marks that fall due (R104, R125, R395). -/
def Obligations.CycleFigures : Prop :=
  ∀ (i : Instr) (s t : State) (row : PrintedRow), i.wf = true → row ∈ printedRows → row.opcode = i.opcode →
    exec i s = .next t → t.cycles = s.cycles + row.cost s i

/-! Instructions: each completes, with the result the rule gives and the frame of what it leaves alone. -/

/-- LDA, LDX, LDY (ldaImm … ldyAbsx): the operand goes to the register, N and Z follow it (R150, R151, R152). -/
def Obligations.LoadResults : Prop :=
  EncodedAs .lda [(.imm, 0xA9), (.zp, 0xA5), (.zpx, 0xB5), (.abs, 0xAD), (.absx, 0xBD), (.absy, 0xB9), (.indx, 0xA1),
    (.indy, 0xB1)] ∧
  EncodedAs .ldx [(.imm, 0xA2), (.zp, 0xA6), (.zpy, 0xB6), (.abs, 0xAE), (.absy, 0xBE)] ∧
  EncodedAs .ldy [(.imm, 0xA0), (.zp, 0xA4), (.zpx, 0xB4), (.abs, 0xAC), (.absx, 0xBC)] ∧
  ∀ (i : Instr) (s : State), i.mnemonic = .lda ∨ i.mnemonic = .ldx ∨ i.mnemonic = .ldy →
    ∃ o t, i.form = .read o ∧ exec i s = .next t ∧
      t.a = (if i.mnemonic = .lda then (s.readOperand o).value else s.a) ∧
      t.x = (if i.mnemonic = .ldx then (s.readOperand o).value else s.x) ∧
      t.y = (if i.mnemonic = .ldy then (s.readOperand o).value else s.y) ∧
      NegativeZero t (s.readOperand o).value ∧ FlagsKept s t [.n, .z] ∧ ReadFrame s t o

/-- ADC and SBC (adcImm … sbcIndy): result, C, V, N and Z by the integer table, whatever D is (R171, R172, R174, R175). -/
def Obligations.AddSubtractResults : Prop :=
  EncodedAs .adc [(.imm, 0x69), (.zp, 0x65), (.zpx, 0x75), (.abs, 0x6D), (.absx, 0x7D), (.absy, 0x79), (.indx, 0x61),
    (.indy, 0x71)] ∧
  EncodedAs .sbc [(.imm, 0xE9), (.zp, 0xE5), (.zpx, 0xF5), (.abs, 0xED), (.absx, 0xFD), (.absy, 0xF9), (.indx, 0xE1),
    (.indy, 0xF1)] ∧
  ∀ (i : Instr) (s : State), i.mnemonic = .adc ∨ i.mnemonic = .sbc →
    ∃ o t, i.form = .read o ∧ exec i s = .next t ∧
      NegativeZero t t.a ∧ FlagsKept s t [.n, .v, .z, .c] ∧ t.x = s.x ∧ t.y = s.y ∧ ReadFrame s t o ∧
      (i.mnemonic = .adc →
        t.a.toNat = (s.a.toNat + (s.readOperand o).value.toNat + (s.flag .c).toNat) % 256 ∧
        (t.flag .c = true ↔ 255 < s.a.toNat + (s.readOperand o).value.toNat + (s.flag .c).toNat) ∧
        (t.flag .v = true ↔ s.a.toInt + (s.readOperand o).value.toInt + (s.flag .c).toNat < -128 ∨
          127 < s.a.toInt + (s.readOperand o).value.toInt + (s.flag .c).toNat)) ∧
      (i.mnemonic = .sbc →
        (t.a.toNat : Int) = ((s.a.toNat : Int) - (s.readOperand o).value.toNat - (1 - (s.flag .c).toNat : Int)) % 256 ∧
        (t.flag .c = true ↔ 0 ≤ (s.a.toNat : Int) - (s.readOperand o).value.toNat - (1 - (s.flag .c).toNat : Int)) ∧
        (t.flag .v = true ↔ s.a.toInt - (s.readOperand o).value.toInt - (1 - (s.flag .c).toNat : Int) < -128 ∨
          127 < s.a.toInt - (s.readOperand o).value.toInt - (1 - (s.flag .c).toNat : Int)))

/-- ORA, AND, EOR (oraImm … eorIndy): bit by bit into A, N and Z follow (R180, R181, R182). -/
def Obligations.LogicalResults : Prop :=
  EncodedAs .ora [(.imm, 0x09), (.zp, 0x05), (.zpx, 0x15), (.abs, 0x0D), (.absx, 0x1D), (.absy, 0x19), (.indx, 0x01),
    (.indy, 0x11)] ∧
  EncodedAs .and [(.imm, 0x29), (.zp, 0x25), (.zpx, 0x35), (.abs, 0x2D), (.absx, 0x3D), (.absy, 0x39), (.indx, 0x21),
    (.indy, 0x31)] ∧
  EncodedAs .eor [(.imm, 0x49), (.zp, 0x45), (.zpx, 0x55), (.abs, 0x4D), (.absx, 0x5D), (.absy, 0x59), (.indx, 0x41),
    (.indy, 0x51)] ∧
  ∀ (i : Instr) (s : State), i.mnemonic = .ora ∨ i.mnemonic = .and ∨ i.mnemonic = .eor →
    ∃ o t, i.form = .read o ∧ exec i s = .next t ∧
      (∀ k < 8, t.a.getLsbD k = (match i.mnemonic with
        | .ora => s.a.getLsbD k || (s.readOperand o).value.getLsbD k
        | .and => s.a.getLsbD k && (s.readOperand o).value.getLsbD k
        | _ => s.a.getLsbD k != (s.readOperand o).value.getLsbD k)) ∧
      t.x = s.x ∧ t.y = s.y ∧ NegativeZero t t.a ∧ FlagsKept s t [.n, .z] ∧ ReadFrame s t o

/-- BIT (bitZp, bitAbs): Z from `A & M`, N and V from bits 7 and 6 of the operand, A kept (R183). -/
def Obligations.BitTestResults : Prop :=
  EncodedAs .bit [(.zp, 0x24), (.abs, 0x2C)] ∧
  ∀ (i : Instr) (s : State), i.mnemonic = .bit → ∃ o t, i.form = .read o ∧ exec i s = .next t ∧
    t.a = s.a ∧ t.x = s.x ∧ t.y = s.y ∧
    t.flag .z = (s.a &&& (s.readOperand o).value == 0) ∧ t.flag .n = (s.readOperand o).value.getLsbD 7 ∧
    t.flag .v = (s.readOperand o).value.getLsbD 6 ∧ FlagsKept s t [.n, .v, .z] ∧ ReadFrame s t o

/-- CMP, CPX, CPY (cmpImm … cpyAbs): the unsigned comparison in C and Z, bit 7 of the difference in N, no register and no V written
(R200, R201, R202, R203). -/
def Obligations.CompareResults : Prop :=
  EncodedAs .cmp [(.imm, 0xC9), (.zp, 0xC5), (.zpx, 0xD5), (.abs, 0xCD), (.absx, 0xDD), (.absy, 0xD9), (.indx, 0xC1),
    (.indy, 0xD1)] ∧
  EncodedAs .cpx [(.imm, 0xE0), (.zp, 0xE4), (.abs, 0xEC)] ∧ EncodedAs .cpy [(.imm, 0xC0), (.zp, 0xC4), (.abs, 0xCC)] ∧
  ∀ (i : Instr) (s : State), i.mnemonic = .cmp ∨ i.mnemonic = .cpx ∨ i.mnemonic = .cpy →
    ∃ o t, ∃ reg m : Byte, i.form = .read o ∧ exec i s = .next t ∧ m = (s.readOperand o).value ∧
      reg = (match i.mnemonic with | .cmp => s.a | .cpx => s.x | _ => s.y) ∧
      (t.flag .c = true ↔ m.toNat ≤ reg.toNat) ∧ (t.flag .z = true ↔ reg = m) ∧
      t.flag .n = decide (128 ≤ (reg.toNat + 256 - m.toNat) % 256) ∧
      t.a = s.a ∧ t.x = s.x ∧ t.y = s.y ∧ FlagsKept s t [.n, .z, .c] ∧ ReadFrame s t o

/-- STA, STX, STY (staZp … styAbs): the register's byte lands at the effective address, every register and flag is kept (R153, R154,
R155). -/
def Obligations.StoreResults : Prop :=
  EncodedAs .sta [(.zp, 0x85), (.zpx, 0x95), (.abs, 0x8D), (.absx, 0x9D), (.absy, 0x99), (.indx, 0x81), (.indy, 0x91)] ∧
  EncodedAs .stx [(.zp, 0x86), (.zpy, 0x96), (.abs, 0x8E)] ∧ EncodedAs .sty [(.zp, 0x84), (.zpx, 0x94), (.abs, 0x8C)] ∧
  ∀ (i : Instr) (s : State), s.MemoryCanonical → i.mnemonic = .sta ∨ i.mnemonic = .stx ∨ i.mnemonic = .sty →
    ∃ m t, i.form = .store m ∧ exec i s = .next t ∧
      StoredAt s t (s.effAddr m).addr (match i.mnemonic with | .sta => s.a | .stx => s.x | _ => s.y) ∧
      RegistersKept s t ∧ t.cycles = s.cycles + storeCycles m

/-- ASL, LSR, ROL, ROR (aslAcc … rorAbsx): one bit position, C the ejected bit, the old carry entering the rotates, N and Z from the
result (R190 to R194). -/
def Obligations.ShiftResults : Prop :=
  EncodedAs .asl [(.acc, 0x0A), (.zp, 0x06), (.zpx, 0x16), (.abs, 0x0E), (.absx, 0x1E)] ∧
  EncodedAs .lsr [(.acc, 0x4A), (.zp, 0x46), (.zpx, 0x56), (.abs, 0x4E), (.absx, 0x5E)] ∧
  EncodedAs .rol [(.acc, 0x2A), (.zp, 0x26), (.zpx, 0x36), (.abs, 0x2E), (.absx, 0x3E)] ∧
  EncodedAs .ror [(.acc, 0x6A), (.zp, 0x66), (.zpx, 0x76), (.abs, 0x6E), (.absx, 0x7E)] ∧
  ∀ (i : Instr) (s : State), s.MemoryCanonical →
    i.mnemonic = .asl ∨ i.mnemonic = .lsr ∨ i.mnemonic = .rol ∨ i.mnemonic = .ror →
    ∃ g t, ∃ r : Byte, i.form = .modify g ∧ exec i s = .next t ∧
      r.toNat = (match i.mnemonic with
        | .asl => 2 * (s.targetValue g).toNat % 256
        | .lsr => (s.targetValue g).toNat / 2
        | .rol => (2 * (s.targetValue g).toNat + (s.flag .c).toNat) % 256
        | _ => (s.targetValue g).toNat / 2 + 128 * (s.flag .c).toNat) ∧
      t.flag .c = (if i.mnemonic = .asl ∨ i.mnemonic = .rol then (s.targetValue g).getLsbD 7
        else (s.targetValue g).getLsbD 0) ∧
      NegativeZero t r ∧ FlagsKept s t [.n, .z, .c] ∧ Modified s t g r

/-- INC and DEC (incZp … decAbsx): one read and one write of the address, modulo 256, N and Z from the result, C and V kept
(R250, R251). -/
def Obligations.MemoryStepResults : Prop :=
  EncodedAs .inc [(.zp, 0xE6), (.zpx, 0xF6), (.abs, 0xEE), (.absx, 0xFE)] ∧
  EncodedAs .dec [(.zp, 0xC6), (.zpx, 0xD6), (.abs, 0xCE), (.absx, 0xDE)] ∧
  ∀ (i : Instr) (s : State), s.MemoryCanonical → i.mnemonic = .inc ∨ i.mnemonic = .dec →
    ∃ m t, ∃ r : Byte, i.form = .modify (.mem m) ∧ exec i s = .next t ∧
      r.toNat = ((s.targetValue (.mem m)).toNat + (if i.mnemonic = .inc then 1 else 255)) % 256 ∧
      NegativeZero t r ∧ FlagsKept s t [.n, .z] ∧ Modified s t (.mem m) r

/-- TAX, TAY, TXA, TYA, TSX, TXS: the byte moves, N and Z follow it but for TXS (R156 to R161). -/
def Obligations.TransferResults : Prop :=
  EncodedAs .tax [(.imp, 0xAA)] ∧ EncodedAs .tay [(.imp, 0xA8)] ∧ EncodedAs .txa [(.imp, 0x8A)] ∧
  EncodedAs .tya [(.imp, 0x98)] ∧ EncodedAs .tsx [(.imp, 0xBA)] ∧ EncodedAs .txs [(.imp, 0x9A)] ∧
  ∀ (i : Instr) (s : State), i ∈ [Instr.tax, .tay, .txa, .tya, .tsx, .txs] → ∃ t, exec i s = .next t ∧
    t.a = (if i = .txa then s.x else if i = .tya then s.y else s.a) ∧
    t.x = (if i = .tax then s.a else if i = .tsx then s.sp else s.x) ∧
    t.y = (if i = .tay then s.a else s.y) ∧ t.sp = (if i = .txs then s.x else s.sp) ∧ t.pc = s.pc ∧
    (i = .tax ∨ i = .tay → NegativeZero t s.a) ∧ (i = .txa → NegativeZero t s.x) ∧ (i = .tya → NegativeZero t s.y) ∧
    (i = .tsx → NegativeZero t s.sp) ∧ (i = .txs → t.p = s.p) ∧ FlagsKept s t [.n, .z] ∧ InnerFrame s t 2

/-- INX, INY, DEX, DEY: modulo 256, N and Z from the result (R252 to R255). -/
def Obligations.IndexStepResults : Prop :=
  EncodedAs .inx [(.imp, 0xE8)] ∧ EncodedAs .iny [(.imp, 0xC8)] ∧ EncodedAs .dex [(.imp, 0xCA)] ∧
  EncodedAs .dey [(.imp, 0x88)] ∧
  ∀ (i : Instr) (s : State), i ∈ [Instr.inx, .iny, .dex, .dey] → ∃ t, exec i s = .next t ∧
    t.x.toNat = (s.x.toNat + (if i = .inx then 1 else if i = .dex then 255 else 0)) % 256 ∧
    t.y.toNat = (s.y.toNat + (if i = .iny then 1 else if i = .dey then 255 else 0)) % 256 ∧
    NegativeZero t (if i = .inx ∨ i = .dex then t.x else t.y) ∧
    t.a = s.a ∧ t.sp = s.sp ∧ t.pc = s.pc ∧ FlagsKept s t [.n, .z] ∧ InnerFrame s t 2

/-- CLC, SEC, CLV, CLD, SED: one bit of P and nothing else (R240, R241, R244; of R245 and R246 the assignment of D). -/
def Obligations.FlagInstructionResults : Prop :=
  EncodedAs .clc [(.imp, 0x18)] ∧ EncodedAs .sec [(.imp, 0x38)] ∧ EncodedAs .clv [(.imp, 0xB8)] ∧
  EncodedAs .cld [(.imp, 0xD8)] ∧ EncodedAs .sed [(.imp, 0xF8)] ∧
  ∀ (i : Instr) (s : State) (f : Flag) (b : Bool),
    (i, f, b) ∈ [(Instr.clc, Flag.c, false), (.sec, .c, true), (.clv, .v, false), (.cld, .d, false), (.sed, .d, true)] →
    ∃ t, exec i s = .next t ∧ t.flag f = b ∧ FlagsKept s t [f] ∧ t.a = s.a ∧ t.x = s.x ∧ t.y = s.y ∧ t.sp = s.sp ∧
      t.pc = s.pc ∧ InnerFrame s t 2

/-- CLI and SEI: I alone, and the latch recomputed at once, raised by CLI while a source is asserted, withdrawn by SEI (R242, R243,
R274). -/
def Obligations.InterruptMaskInstructions : Prop :=
  EncodedAs .cli [(.imp, 0x58)] ∧ EncodedAs .sei [(.imp, 0x78)] ∧
  ∀ (i : Instr) (s : State), i = .cli ∨ i = .sei → ∃ t, exec i s = .next t ∧
    (t.flag .i = true ↔ i = .sei) ∧ (t.irqPending = true ↔ i = .cli ∧ s.irqSources ≠ 0) ∧ FlagsKept s t [.i] ∧
    t.a = s.a ∧ t.x = s.x ∧ t.y = s.y ∧ t.sp = s.sp ∧ t.pc = s.pc ∧ t.running = s.running ∧
    MemoryUntouched s t ∧ SameChips s t ∧ t.cycles = s.cycles + 2

/-- PHA and PHP: one byte stored at the stack pointer, which then goes down; PHP pushes P with Break and Unused set (R210, R212). PLA
and PLP: one byte from above the stack pointer, to A with N and Z, or to P with Unused forced and the latch recomputed
(R211, R213). -/
def Obligations.StackTransferResults : Prop :=
  EncodedAs .pha [(.imp, 0x48)] ∧ EncodedAs .php [(.imp, 0x08)] ∧ EncodedAs .pla [(.imp, 0x68)] ∧
  EncodedAs .plp [(.imp, 0x28)] ∧
  (∀ (i : Instr) (s : State), s.MemoryCanonical → i = .pha ∨ i = .php → ∃ t, exec i s = .next t ∧
    Pushed s t [if i = .pha then s.a else s.p ||| 0x30#8] ∧
    t.a = s.a ∧ t.x = s.x ∧ t.y = s.y ∧ t.p = s.p ∧ t.pc = s.pc ∧ t.running = s.running ∧ SameDevices s t ∧
    t.cycles = s.cycles + 3) ∧
  ∀ s : State,
    (∃ t, exec .pla s = .next t ∧ t.a = s.stackByte 1 ∧ NegativeZero t t.a ∧ FlagsKept s t [.n, .z] ∧
      t.sp = s.sp + 1 ∧ t.x = s.x ∧ t.y = s.y ∧ t.pc = s.pc ∧ InnerFrame s t 4) ∧
    (∃ t, exec .plp s = .next t ∧ t.p = s.stackByte 1 ||| 0x20#8 ∧ t.sp = s.sp + 1 ∧
      t.irqPending = (s.irqSources != 0 && !(s.stackByte 1).getLsbD 2) ∧ t.a = s.a ∧ t.x = s.x ∧ t.y = s.y ∧
      t.pc = s.pc ∧ t.running = s.running ∧ MemoryUntouched s t ∧ SameChips s t ∧ t.cycles = s.cycles + 4)

/-- JSR: the address of its own last byte is pushed, high byte first, and the pc goes to the target (R214). RTS: the pulled word plus
one (R215). -/
def Obligations.SubroutineResults : Prop :=
  EncodedAs .jsr [(.abs, 0x20)] ∧ EncodedAs .rts [(.imp, 0x60)] ∧
  (∀ (s : State) (target : Addr), s.MemoryCanonical → ∃ t, exec (.jsr target) s = .next t ∧
    Pushed s t [hiByte (s.pc - 1), loByte (s.pc - 1)] ∧ t.pc = target ∧
    t.a = s.a ∧ t.x = s.x ∧ t.y = s.y ∧ t.p = s.p ∧ t.running = s.running ∧ SameDevices s t ∧ t.cycles = s.cycles + 6) ∧
  ∀ s : State, ∃ t, exec .rts s = .next t ∧
    t.pc.toNat = ((s.stackByte 2).toNat * 256 + (s.stackByte 1).toNat + 1) % 65536 ∧ t.sp = s.sp + 2 ∧
    t.a = s.a ∧ t.x = s.x ∧ t.y = s.y ∧ t.p = s.p ∧ InnerFrame s t 6

/-- BPL, BMI, BVC, BVS, BCC, BCS, BNE, BEQ: the pc moves by the signed offset when the condition holds; 2, 3 or 4 cycles (R220 to R228). -/
def Obligations.BranchResults : Prop :=
  EncodedAs .bpl [(.rel, 0x10)] ∧ EncodedAs .bmi [(.rel, 0x30)] ∧ EncodedAs .bvc [(.rel, 0x50)] ∧
  EncodedAs .bvs [(.rel, 0x70)] ∧ EncodedAs .bcc [(.rel, 0x90)] ∧ EncodedAs .bcs [(.rel, 0xB0)] ∧
  EncodedAs .bne [(.rel, 0xD0)] ∧ EncodedAs .beq [(.rel, 0xF0)] ∧
  ∀ (i : Instr) (s : State) (off : Byte), i.form = .relative off → ∃ t, exec i s = .next t ∧
    t.pc.toNat = (if branchCondition s i.mnemonic then branchTarget s.pc off else s.pc.toNat) ∧
    t.a = s.a ∧ t.x = s.x ∧ t.y = s.y ∧ t.sp = s.sp ∧ t.p = s.p ∧ InnerFrame s t (2 + branchMark s i)

/-- JMP absolute: the pc takes the operand, nothing else changes (R229). JMP indirect: the pointer's low byte, then its high byte, from
the pointer's own page or the next address as the open parameter `JMP_IND_WRAP` says, for both its values (R230; log 7). -/
def Obligations.JumpResults : Prop :=
  EncodedAs .jmp [(.abs, 0x4C), (.ind, 0x6C)] ∧
  (∀ (s : State) (addr : Addr), ∃ t, exec (.jmpAbs addr) s = .next t ∧ t.pc = addr ∧ t.a = s.a ∧ t.x = s.x ∧ t.y = s.y ∧
    t.sp = s.sp ∧ t.p = s.p ∧ InnerFrame s t 3) ∧
  ∀ (s : State) (ptr : Addr), ∃ t, ∃ h : Addr, exec (.jmpInd ptr) s = .next t ∧
    h = (if Config.jmpIndWrap then word (loByte ptr + 1) (hiByte ptr) else ptr + 1) ∧
    t.pc = word (s.byteAt ptr) ((s.afterRead ptr).byteAt h) ∧
    SameDevices ((s.afterRead ptr).afterRead h) t ∧ MemoryUntouched s t ∧
    t.a = s.a ∧ t.x = s.x ∧ t.y = s.y ∧ t.sp = s.sp ∧ t.p = s.p ∧ t.running = s.running ∧ t.cycles = s.cycles + 5

/-- BRK: the exception with the return address two past the opcode, Break set in the pushed copy, I set, the pc from the vector (R260). -/
def Obligations.BreakTakesTheException : Prop :=
  EncodedAs .brk [(.imp, 0x00)] ∧
  ∀ s : State, s.MemoryCanonical → ∃ t, exec .brk s = .next t ∧
    Pushed s t [hiByte (s.pc + 1), loByte (s.pc + 1), s.p ||| 0x30#8] ∧
    t.pc = word (s.byteAt 0xFFFE#16) (s.byteAt 0xFFFF#16) ∧ t.flag .i = true ∧ FlagsKept s t [.i] ∧
    t.irqPending = false ∧ SameChips s t ∧ t.a = s.a ∧ t.x = s.x ∧ t.y = s.y ∧ t.running = s.running ∧
    t.cycles = s.cycles + 7

/-- RTI: P from the stack with bit 5 forced and the latch recomputed, then the pc, exactly (R261, R279). -/
def Obligations.ReturnFromInterruptRestores : Prop :=
  EncodedAs .rti [(.imp, 0x40)] ∧
  ∀ s : State, ∃ t, exec .rti s = .next t ∧
    t.p = s.stackByte 1 ||| 0x20#8 ∧ t.pc = word (s.stackByte 2) (s.stackByte 3) ∧ t.sp = s.sp + 3 ∧
    t.irqPending = (s.irqSources != 0 && !(s.stackByte 1).getLsbD 2) ∧
    t.a = s.a ∧ t.x = s.x ∧ t.y = s.y ∧ t.running = s.running ∧ MemoryUntouched s t ∧ SameChips s t ∧
    t.cycles = s.cycles + 6

/-- NOP: nothing but the cycles (R262). -/
def Obligations.NopChangesNothing : Prop :=
  EncodedAs .nop [(.imp, 0xEA)] ∧ ∀ s : State, exec .nop s = .next { s with cycles := s.cycles + 2 }

/-- The whole machine: which instructions can change each flag, the stack pointer, the RAM or a bank latch; U never changes (R26, R143,
R161). -/
def Obligations.OnlyTheseInstructionsChange : Prop :=
  ∀ (i : Instr) (s t : State), s.UnusedSet → exec i s = .next t →
    t.UnusedSet ∧
    (t.flag .n ≠ s.flag .n ∨ t.flag .z ≠ s.flag .z → i.mnemonic ∈ [.lda, .ldx, .ldy, .tax, .tay, .txa, .tya, .tsx, .pla,
      .adc, .sbc, .ora, .and, .eor, .bit, .cmp, .cpx, .cpy, .asl, .lsr, .rol, .ror, .inc, .dec, .inx, .iny, .dex, .dey,
      .plp, .rti]) ∧
    (t.flag .v ≠ s.flag .v → i.mnemonic ∈ [.adc, .sbc, .bit, .clv, .plp, .rti]) ∧
    (t.flag .d ≠ s.flag .d → i.mnemonic ∈ [.sed, .cld, .plp, .rti]) ∧
    (t.flag .i ≠ s.flag .i → i.mnemonic ∈ [.sei, .cli, .plp, .rti, .brk]) ∧
    (t.flag .b ≠ s.flag .b → i.mnemonic ∈ [.plp, .rti]) ∧
    (t.flag .c ≠ s.flag .c → i.mnemonic ∈ [.adc, .sbc, .cmp, .cpx, .cpy, .asl, .lsr, .rol, .ror, .clc, .sec, .plp, .rti]) ∧
    (t.sp ≠ s.sp → i.mnemonic ∈ [.txs, .pha, .pla, .php, .plp, .jsr, .rts, .brk, .rti]) ∧
    (t.ram ≠ s.ram → i.mnemonic ∈ [.sta, .stx, .sty, .asl, .lsr, .rol, .ror, .inc, .dec, .pha, .php, .jsr, .brk]) ∧
    (t.bankDdr ≠ s.bankDdr ∨ t.bankPort ≠ s.bankPort →
      i.mnemonic ∈ [.sta, .stx, .sty, .asl, .lsr, .rol, .ror, .inc, .dec])

/-- At any stack pointer: PHP then PLP gives P with Break and Unused forced and the stack pointer back (R213); a subroutine that
returns at once resumes after the call (R214, R215). -/
def Obligations.StackRoundTrips : Prop :=
  ∀ s t u : State, s.MemoryCanonical →
    (exec .php s = .next t → exec .plp t = .next u →
      u.p = s.p ||| 0x30#8 ∧ u.sp = s.sp ∧ u.a = s.a ∧ u.x = s.x ∧ u.y = s.y) ∧
    (∀ target, exec (.jsr target) s = .next t → exec .rts t = .next u → u.pc = s.pc ∧ u.sp = s.sp ∧ u.p = s.p)

/-- A handler that returns at once resumes where the interrupt came, with the status it had but for Break, which is clear (R276,
R261); after BRK, with Break set, past the padding byte (R260). -/
def Obligations.ExceptionReturnRoundTrip : Prop :=
  ∀ s u : State, s.MemoryCanonical →
    (exec .rti s.interruptEntry = .next u → u.pc = s.pc ∧ u.sp = s.sp ∧ u.p = (s.p &&& 0xEF#8) ||| 0x20#8) ∧
    (∀ t, exec .brk s = .next t → exec .rti t = .next u → u.pc = s.pc + 1 ∧ u.sp = s.sp ∧ u.p = s.p ||| 0x30#8)

/-! Interrupt requests, timers, ports. -/

/-- `RequestIrq(k)` sets bit k and recomputes the latch, `UnrequestIrq(k)` clears it; nothing else changes (R272, R273, R274). -/
def Obligations.RequestLines : Prop :=
  ∀ (s : State) (k : Fin 8),
    (∀ j < 8, (s.requestIrq k).irqSources.getLsbD j = (decide (j = k.val) || s.irqSources.getLsbD j)) ∧
    (∀ j < 8, (s.unrequestIrq k).irqSources.getLsbD j = (!decide (j = k.val) && s.irqSources.getLsbD j)) ∧
    (s.requestIrq k).LatchCurrent ∧ (s.unrequestIrq k).LatchCurrent ∧
    { s.requestIrq k with irqSources := s.irqSources, irqPending := s.irqPending } = s ∧
    { s.unrequestIrq k with irqSources := s.irqSources, irqPending := s.irqPending } = s

/-- `SetIcr` sets the two registers; the output's rise requests the chip's source, its fall withdraws it, otherwise the sources and the
latch stay; nothing else of the block changes (R330). -/
def Obligations.ChipOutputDrivesItsSource : Prop :=
  ∀ (s : State) (k : ChipId) (f m : BitVec 5),
    (s.setIcr k f m).chip k = { s.chip k with icrFlags := f, icrMask := m } ∧
    (∀ j, j ≠ k → (s.setIcr k f m).chip j = s.chip j) ∧
    ((s.chip k).line = false → ((s.setIcr k f m).chip k).line = true →
      (s.setIcr k f m).irqSources = (s.requestIrq k.source).irqSources ∧
      (s.setIcr k f m).irqPending = (s.requestIrq k.source).irqPending) ∧
    ((s.chip k).line = true → ((s.setIcr k f m).chip k).line = false →
      (s.setIcr k f m).irqSources = (s.unrequestIrq k.source).irqSources ∧
      (s.setIcr k f m).irqPending = (s.unrequestIrq k.source).irqPending) ∧
    (((s.setIcr k f m).chip k).line = (s.chip k).line →
      (s.setIcr k f m).irqSources = s.irqSources ∧ (s.setIcr k f m).irqPending = s.irqPending) ∧
    OnlyDevices s (s.setIcr k f m) ∧ (s.setIcr k f m).queue = s.queue ∧ (s.setIcr k f m).draws = s.draws ∧
    (s.setIcr k f m).outputs = s.outputs

/-- Register 13: a read gives the flags with the output in bit 7, and clears every flag; a write sets or clears the named mask bits by
its bit 7 and leaves the flags (R316, R317). -/
def Obligations.InterruptRegister : Prop :=
  ∀ (s : State) (k : ChipId) (v : Byte),
    (∀ j < 5, (s.readReg k .icr).1.getLsbD j = (s.chip k).icrFlags.getLsbD j) ∧
    (s.readReg k .icr).1.getLsbD 5 = false ∧ (s.readReg k .icr).1.getLsbD 6 = false ∧
    (s.readReg k .icr).1.getLsbD 7 = (s.chip k).line ∧
    (s.readReg k .icr).2 = s.setIcr k 0 (s.chip k).icrMask ∧
    ∃ mask, s.writeReg k .icr v = s.setIcr k (s.chip k).icrFlags mask ∧
      ∀ j < 5, mask.getLsbD j = (if v.getLsbD j then v.getLsbD 7 else (s.chip k).icrMask.getLsbD j)

/-- `AdvanceTimer` on one timer: what the counts leave in the counter, when it underflows and how often, and that only a one-shot
underflow clears the start bit (R322, R323). -/
def Obligations.TimerAdvance : Prop :=
  ∀ (tm : Timer) (n : Nat),
    (n ≤ tm.counter.toNat → (tm.advance n).1.counter.toNat = tm.counter.toNat - n ∧ (tm.advance n).2 = 0 ∧
      (tm.advance n).1.cr = tm.cr) ∧
    (tm.counter.toNat < n → tm.oneShot = true → (tm.advance n).1.counter = tm.latch ∧ (tm.advance n).2 = 1 ∧
      (tm.advance n).1.started = false ∧ ∀ j < 8, j ≠ 0 → (tm.advance n).1.cr.getLsbD j = tm.cr.getLsbD j) ∧
    (tm.counter.toNat < n → tm.oneShot = false →
      (tm.advance n).1.counter.toNat = tm.latch.toNat - (n - (tm.counter.toNat + 1)) % (tm.latch.toNat + 1) ∧
      (tm.advance n).2 = 1 + (n - (tm.counter.toNat + 1)) / (tm.latch.toNat + 1) ∧ (tm.advance n).1.cr = tm.cr) ∧
    (tm.advance n).1.latch = tm.latch ∧ (tm.advance n).1.last = tm.last

/-- The lazy update, and that it does not matter when it runs (R320, R322, R83). A timer that counts the clock takes the present as its
reference and is advanced by the cycles since the old one; any other timer's update does nothing; a second update in the
same cycle does nothing. Two advances are one by the sum: a continuous timer's always, with the underflows added up, and a
one-shot timer's up to its underflow, after which it keeps what that left. So an update now and one `n` cycles later leave
the block that the later one alone leaves, but for the reference of a timer that has stopped between them, and exactly
that block when the timer still counts. -/
def Obligations.LazyUpdateIsTransparent : Prop :=
  (∀ (s : State) (k : ChipId) (t : TimerId),
    (counting t (s.timer k t) = true →
      s.updateTimer k t =
        (s.setTimer k t { s.timer k t with last := s.cycles }).advanceTimer k t (s.cycles - (s.timer k t).last)) ∧
    (counting t (s.timer k t) = false → s.updateTimer k t = s) ∧
    (s.updateTimer k t).updateTimer k t = s.updateTimer k t) ∧
  (∀ (tm : Timer) (m n : Nat),
    (tm.oneShot = false →
      tm.advance (m + n) = (((tm.advance m).1.advance n).1, (tm.advance m).2 + ((tm.advance m).1.advance n).2)) ∧
    (tm.oneShot = true → m ≤ tm.counter.toNat → tm.advance (m + n) = (tm.advance m).1.advance n) ∧
    (tm.oneShot = true → tm.counter.toNat < m → tm.advance (m + n) = tm.advance m)) ∧
  ∀ (s : State) (k : ChipId) (t : TimerId) (n : Nat), (counting t (s.timer k t) = true → (s.timer k t).last ≤ s.cycles) →
    let once := State.updateTimer { s with cycles := s.cycles + n } k t
    let twice := State.updateTimer { s.updateTimer k t with cycles := s.cycles + n } k t
    twice.setTimer k t { twice.timer k t with last := (once.timer k t).last } = once ∧
    (counting t (once.timer k t) = true → twice = once)

/-- `AdvanceTimer` on the block (R322, R332). Without an underflow only the counter moves. With one the timer's own flag bit is raised,
and the number of underflows is forwarded to timer B when B counts A's, whose own underflow raises bit 1; every other flag
bit, the mask, the rest of the chip, the other chip and the queue stay. The output can only rise, which requests the
chip's source (R330). -/
def Obligations.UnderflowRaisesAndForwards : Prop :=
  ∀ (s : State) (k : ChipId) (t : TimerId) (n : Nat),
    (n ≤ (s.timer k t).counter.toNat → s.advanceTimer k t n = s.setTimer k t ((s.timer k t).advance n).1) ∧
    ((s.timer k t).counter.toNat < n →
      let u := s.advanceTimer k t n
      let forwarded := ((s.timer k .a).advance n).2
      let cascade := t = .a ∧ (s.chip k).bCountsA = true
      u.timer k t = ((s.timer k t).advance n).1 ∧
      (cascade → u.timer k .b = ((s.timer k .b).advance forwarded).1) ∧
      (∀ v, v ≠ t → ¬cascade → u.timer k v = s.timer k v) ∧
      (∀ j < 5, (u.chip k).icrFlags.getLsbD j = true ↔ (s.chip k).icrFlags.getLsbD j = true ∨
        j = (if t = .a then 0 else 1) ∨ (j = 1 ∧ cascade ∧ (s.timer k .b).counter.toNat < forwarded)) ∧
      { u.chip k with ta := (s.chip k).ta, tb := (s.chip k).tb, icrFlags := (s.chip k).icrFlags } = s.chip k ∧
      (∀ j, j ≠ k → u.chip j = s.chip j) ∧ OnlyDevices s u ∧ u.queue = s.queue ∧ u.draws = s.draws ∧
      u.outputs = s.outputs ∧ ((s.chip k).line = true → (u.chip k).line = true) ∧
      ((s.chip k).line = (u.chip k).line → u.irqSources = s.irqSources ∧ u.irqPending = s.irqPending) ∧
      ((s.chip k).line = false → (u.chip k).line = true →
        u.irqSources = (s.requestIrq k.source).irqSources ∧ u.irqPending = (s.requestIrq k.source).irqPending))

/-- `StartTimer`: a started clock-sourced timer takes the present as its reference and is queued at `now + counter + 1`, once; any other
timer has no entry; every other entry stays (R325, R351, R353). -/
def Obligations.StartTimerArms : Prop :=
  ∀ (s : State) (k : ChipId) (t : TimerId),
    (counting t (s.timer k t) = true →
      (s.startTimer k t).timer k t = { s.timer k t with last := s.cycles } ∧
      (∀ n, (n, (⟨k, t⟩ : Request)) ∈ (s.startTimer k t).queue ↔ n = s.cycles + (s.timer k t).counter.toNat + 1)) ∧
    (counting t (s.timer k t) = false →
      (s.startTimer k t).timer k t = s.timer k t ∧ (s.startTimer k t).queued ⟨k, t⟩ = false) ∧
    (∀ e : Nat × Request, e.2 ≠ ⟨k, t⟩ → (e ∈ (s.startTimer k t).queue ↔ e ∈ s.queue))

/-- `Queue`: a prior entry of the request goes, and the new one stands after every entry with a target less or equal and before every
greater one; `Cancel` removes the entry (R351, R352, R353). -/
def Obligations.QueuePosition : Prop :=
  ∀ (s : State) (target : Nat) (r : Request), s.QueueOrdered →
    (∃ before after, (s.enqueue target r).queue = before ++ (target, r) :: after ∧
      before ++ after = s.queue.filter (fun e => e.2 ≠ r) ∧
      (∀ e ∈ before, e.1 ≤ target) ∧ (∀ e ∈ after, target < e.1)) ∧
    (s.enqueue target r).QueueOrdered ∧ (s.enqueue target r).queued r = true ∧
    (s.cancel r).queue = s.queue.filter (fun e => e.2 ≠ r) ∧ (s.cancel r).queued r = false

/-- Writes of a timer's registers: the latch byte, the counter load of a stopped timer, and the control register without its force-load
bit, then the arming (R315, R319); reads bring the timer up to date first (R314, R318). -/
def Obligations.TimerRegisters : Prop :=
  ∀ (s : State) (k : ChipId) (t : TimerId) (v : Byte),
    let u := s.updateTimer k t
    (s.readReg k (.timerLow t) = (loByte (u.timer k t).counter, u)) ∧
    (s.readReg k (.timerHigh t) = (hiByte (u.timer k t).counter, u)) ∧
    (s.readReg k (.control t) = ((u.timer k t).cr, u)) ∧
    (∃ tm, s.writeReg k (.timerLow t) v = u.setTimer k t tm ∧ loByte tm.latch = v ∧
      hiByte tm.latch = hiByte (u.timer k t).latch ∧ tm.counter = (u.timer k t).counter ∧ tm.cr = (u.timer k t).cr ∧
      tm.last = (u.timer k t).last) ∧
    (∃ tm, s.writeReg k (.timerHigh t) v = u.setTimer k t tm ∧ hiByte tm.latch = v ∧
      loByte tm.latch = loByte (u.timer k t).latch ∧
      tm.counter = (if (u.timer k t).started then (u.timer k t).counter else tm.latch) ∧ tm.cr = (u.timer k t).cr ∧
      tm.last = (u.timer k t).last) ∧
    (∃ tm, s.writeReg k (.control t) v = (u.setTimer k t tm).startTimer k t ∧
      (∀ j < 8, tm.cr.getLsbD j = (v.getLsbD j && j != 4)) ∧
      tm.counter = (if v.getLsbD 4 then (u.timer k t).latch else (u.timer k t).counter) ∧
      tm.latch = (u.timer k t).latch ∧ tm.last = (u.timer k t).last)

/-- Ports: a read shows the environment the data and direction registers (R312) and then mixes, an output bit from the data latch, an
input bit from the pins the environment holds; a write stores the latch, shows the new and the previous port values, and
snapshots both ports (R310 to R313); registers 8 to 12 read 0xFF and ignore writes (R327). The pins held here are log 9's
input, the hooks log 18's outputs. -/
def Obligations.PortRegisters : Prop :=
  ∀ (s : State) (k : ChipId) (v : Byte),
    let c := s.chip k
    let asked := s.emit (.preRead k c.pra c.prb c.ddra c.ddrb)
    (∀ pins, c.pinsA = .level pins → (s.readReg k .portA).2 = asked ∧ ∀ j < 8, (s.readReg k .portA).1.getLsbD j =
      (if c.ddra.getLsbD j then c.pra.getLsbD j else pins.getLsbD j)) ∧
    (∀ pins, c.pinsB = .level pins → (s.readReg k .portB).2 = asked ∧ ∀ j < 8, (s.readReg k .portB).1.getLsbD j =
      (if c.ddrb.getLsbD j then c.prb.getLsbD j else pins.getLsbD j)) ∧
    (c.pinsA = .drawn → (s.readReg k .portA).2 = { asked with draws := s.draws + 1 } ∧
      ∀ j < 8, c.ddra.getLsbD j = true → (s.readReg k .portA).1.getLsbD j = c.pra.getLsbD j) ∧
    (c.pinsB = .drawn → (s.readReg k .portB).2 = { asked with draws := s.draws + 1 } ∧
      ∀ j < 8, c.ddrb.getLsbD j = true → (s.readReg k .portB).1.getLsbD j = c.prb.getLsbD j) ∧
    s.writeReg k .portA v = (s.setChip k { c with pra := v, prevPra := v, prevPrb := c.prb }).emit
      (.postWrite k v c.prb c.prevPra c.prevPrb) ∧
    s.writeReg k .portB v = (s.setChip k { c with prb := v, prevPra := c.pra, prevPrb := v }).emit
      (.postWrite k c.pra v c.prevPra c.prevPrb) ∧
    s.readReg k .ddrA = (c.ddra, s) ∧ s.readReg k .ddrB = (c.ddrb, s) ∧
    s.writeReg k .ddrA v = s.setChip k { c with ddra := v } ∧
    s.writeReg k .ddrB v = s.setChip k { c with ddrb := v } ∧
    ∀ r, 8 ≤ r → r ≤ 12 → s.readReg k (.ofIndex r) = (0xFF#8, s) ∧ s.writeReg k (.ofIndex r) v = s

/-- What the block drives outward never comes back into it, "fire-and-forget; no core feedback path" (R14): a machine with any past
trace steps as the machine without it, and the trace of a step stands after that past. Over a run the trace only grows,
and its `VideoAdvance` notifications add up to the cycles the run took (R360). -/
def Obligations.OutputsAreFireAndForget : Prop :=
  (∀ (s : State) (past : List Output), step (s.behind past) = (match step s with
    | .next t => .next (t.behind past)
    | .fault f => .fault f
    | .refused r => .refused r)) ∧
  ∀ (s : State) (n : Nat), ∃ new, (s.runCycles n).outputs = new ++ s.outputs ∧
    s.cycles + videoCycles new = (s.runCycles n).cycles
end

