-- ==== Sys2Proof/Laws/State.lean ====
section
/-! SUPPORT. One lemma per field per named update of the state: what the update leaves alone, and the plain values of what
it sets. -/

namespace Sys2Proof.Machine

section
variable (s : State)

@[simp] theorem setFlag_a (f : Flag) (b : Bool) : (s.setFlag f b).a = s.a := rfl
@[simp] theorem setFlag_x (f : Flag) (b : Bool) : (s.setFlag f b).x = s.x := rfl
@[simp] theorem setFlag_y (f : Flag) (b : Bool) : (s.setFlag f b).y = s.y := rfl
@[simp] theorem setFlag_sp (f : Flag) (b : Bool) : (s.setFlag f b).sp = s.sp := rfl
@[simp] theorem setFlag_pc (f : Flag) (b : Bool) : (s.setFlag f b).pc = s.pc := rfl
@[simp] theorem setFlag_cycles (f : Flag) (b : Bool) : (s.setFlag f b).cycles = s.cycles := rfl
@[simp] theorem setFlag_running (f : Flag) (b : Bool) : (s.setFlag f b).running = s.running := rfl
@[simp] theorem setFlag_irqPending (f : Flag) (b : Bool) : (s.setFlag f b).irqPending = s.irqPending := rfl
@[simp] theorem setFlag_irqSources (f : Flag) (b : Bool) : (s.setFlag f b).irqSources = s.irqSources := rfl
@[simp] theorem setFlag_ram (f : Flag) (b : Bool) : (s.setFlag f b).ram = s.ram := rfl
@[simp] theorem setFlag_bankDdr (f : Flag) (b : Bool) : (s.setFlag f b).bankDdr = s.bankDdr := rfl
@[simp] theorem setFlag_bankPort (f : Flag) (b : Bool) : (s.setFlag f b).bankPort = s.bankPort := rfl
@[simp] theorem setFlag_chip0 (f : Flag) (b : Bool) : (s.setFlag f b).chip0 = s.chip0 := rfl
@[simp] theorem setFlag_chip1 (f : Flag) (b : Bool) : (s.setFlag f b).chip1 = s.chip1 := rfl
@[simp] theorem setFlag_queue (f : Flag) (b : Bool) : (s.setFlag f b).queue = s.queue := rfl
@[simp] theorem setFlag_romKernel (f : Flag) (b : Bool) : (s.setFlag f b).romKernel = s.romKernel := rfl
@[simp] theorem setFlag_romBasic (f : Flag) (b : Bool) : (s.setFlag f b).romBasic = s.romBasic := rfl
@[simp] theorem setFlag_romChar (f : Flag) (b : Bool) : (s.setFlag f b).romChar = s.romChar := rfl
@[simp] theorem setFlag_draws (f : Flag) (b : Bool) : (s.setFlag f b).draws = s.draws := rfl
@[simp] theorem setFlag_outputs (f : Flag) (b : Bool) : (s.setFlag f b).outputs = s.outputs := rfl

@[simp] theorem setNZ_a (v : Byte) : (s.setNZ v).a = s.a := rfl
@[simp] theorem setNZ_x (v : Byte) : (s.setNZ v).x = s.x := rfl
@[simp] theorem setNZ_y (v : Byte) : (s.setNZ v).y = s.y := rfl
@[simp] theorem setNZ_sp (v : Byte) : (s.setNZ v).sp = s.sp := rfl
@[simp] theorem setNZ_pc (v : Byte) : (s.setNZ v).pc = s.pc := rfl
@[simp] theorem setNZ_cycles (v : Byte) : (s.setNZ v).cycles = s.cycles := rfl
@[simp] theorem setNZ_running (v : Byte) : (s.setNZ v).running = s.running := rfl
@[simp] theorem setNZ_irqPending (v : Byte) : (s.setNZ v).irqPending = s.irqPending := rfl
@[simp] theorem setNZ_irqSources (v : Byte) : (s.setNZ v).irqSources = s.irqSources := rfl
@[simp] theorem setNZ_ram (v : Byte) : (s.setNZ v).ram = s.ram := rfl
@[simp] theorem setNZ_bankDdr (v : Byte) : (s.setNZ v).bankDdr = s.bankDdr := rfl
@[simp] theorem setNZ_bankPort (v : Byte) : (s.setNZ v).bankPort = s.bankPort := rfl
@[simp] theorem setNZ_chip0 (v : Byte) : (s.setNZ v).chip0 = s.chip0 := rfl
@[simp] theorem setNZ_chip1 (v : Byte) : (s.setNZ v).chip1 = s.chip1 := rfl
@[simp] theorem setNZ_queue (v : Byte) : (s.setNZ v).queue = s.queue := rfl
@[simp] theorem setNZ_romKernel (v : Byte) : (s.setNZ v).romKernel = s.romKernel := rfl
@[simp] theorem setNZ_romBasic (v : Byte) : (s.setNZ v).romBasic = s.romBasic := rfl
@[simp] theorem setNZ_romChar (v : Byte) : (s.setNZ v).romChar = s.romChar := rfl
@[simp] theorem setNZ_draws (v : Byte) : (s.setNZ v).draws = s.draws := rfl
@[simp] theorem setNZ_outputs (v : Byte) : (s.setNZ v).outputs = s.outputs := rfl

@[simp] theorem compare_a (r m : Byte) : (s.compare r m).a = s.a := rfl
@[simp] theorem compare_x (r m : Byte) : (s.compare r m).x = s.x := rfl
@[simp] theorem compare_y (r m : Byte) : (s.compare r m).y = s.y := rfl
@[simp] theorem compare_sp (r m : Byte) : (s.compare r m).sp = s.sp := rfl
@[simp] theorem compare_pc (r m : Byte) : (s.compare r m).pc = s.pc := rfl
@[simp] theorem compare_cycles (r m : Byte) : (s.compare r m).cycles = s.cycles := rfl
@[simp] theorem compare_running (r m : Byte) : (s.compare r m).running = s.running := rfl
@[simp] theorem compare_irqPending (r m : Byte) : (s.compare r m).irqPending = s.irqPending := rfl
@[simp] theorem compare_irqSources (r m : Byte) : (s.compare r m).irqSources = s.irqSources := rfl
@[simp] theorem compare_ram (r m : Byte) : (s.compare r m).ram = s.ram := rfl
@[simp] theorem compare_bankDdr (r m : Byte) : (s.compare r m).bankDdr = s.bankDdr := rfl
@[simp] theorem compare_bankPort (r m : Byte) : (s.compare r m).bankPort = s.bankPort := rfl
@[simp] theorem compare_chip0 (r m : Byte) : (s.compare r m).chip0 = s.chip0 := rfl
@[simp] theorem compare_chip1 (r m : Byte) : (s.compare r m).chip1 = s.chip1 := rfl
@[simp] theorem compare_queue (r m : Byte) : (s.compare r m).queue = s.queue := rfl
@[simp] theorem compare_romKernel (r m : Byte) : (s.compare r m).romKernel = s.romKernel := rfl
@[simp] theorem compare_romBasic (r m : Byte) : (s.compare r m).romBasic = s.romBasic := rfl
@[simp] theorem compare_romChar (r m : Byte) : (s.compare r m).romChar = s.romChar := rfl
@[simp] theorem compare_draws (r m : Byte) : (s.compare r m).draws = s.draws := rfl
@[simp] theorem compare_outputs (r m : Byte) : (s.compare r m).outputs = s.outputs := rfl

@[simp] theorem recomputeIrq_a : (s.recomputeIrq).a = s.a := rfl
@[simp] theorem recomputeIrq_x : (s.recomputeIrq).x = s.x := rfl
@[simp] theorem recomputeIrq_y : (s.recomputeIrq).y = s.y := rfl
@[simp] theorem recomputeIrq_sp : (s.recomputeIrq).sp = s.sp := rfl
@[simp] theorem recomputeIrq_p : (s.recomputeIrq).p = s.p := rfl
@[simp] theorem recomputeIrq_pc : (s.recomputeIrq).pc = s.pc := rfl
@[simp] theorem recomputeIrq_cycles : (s.recomputeIrq).cycles = s.cycles := rfl
@[simp] theorem recomputeIrq_running : (s.recomputeIrq).running = s.running := rfl
@[simp] theorem recomputeIrq_irqSources : (s.recomputeIrq).irqSources = s.irqSources := rfl
@[simp] theorem recomputeIrq_ram : (s.recomputeIrq).ram = s.ram := rfl
@[simp] theorem recomputeIrq_bankDdr : (s.recomputeIrq).bankDdr = s.bankDdr := rfl
@[simp] theorem recomputeIrq_bankPort : (s.recomputeIrq).bankPort = s.bankPort := rfl
@[simp] theorem recomputeIrq_chip0 : (s.recomputeIrq).chip0 = s.chip0 := rfl
@[simp] theorem recomputeIrq_chip1 : (s.recomputeIrq).chip1 = s.chip1 := rfl
@[simp] theorem recomputeIrq_queue : (s.recomputeIrq).queue = s.queue := rfl
@[simp] theorem recomputeIrq_romKernel : (s.recomputeIrq).romKernel = s.romKernel := rfl
@[simp] theorem recomputeIrq_romBasic : (s.recomputeIrq).romBasic = s.romBasic := rfl
@[simp] theorem recomputeIrq_romChar : (s.recomputeIrq).romChar = s.romChar := rfl
@[simp] theorem recomputeIrq_draws : (s.recomputeIrq).draws = s.draws := rfl
@[simp] theorem recomputeIrq_outputs : (s.recomputeIrq).outputs = s.outputs := rfl

@[simp] theorem setInterruptDisable_a (b : Bool) : (s.setInterruptDisable b).a = s.a := rfl
@[simp] theorem setInterruptDisable_x (b : Bool) : (s.setInterruptDisable b).x = s.x := rfl
@[simp] theorem setInterruptDisable_y (b : Bool) : (s.setInterruptDisable b).y = s.y := rfl
@[simp] theorem setInterruptDisable_sp (b : Bool) : (s.setInterruptDisable b).sp = s.sp := rfl
@[simp] theorem setInterruptDisable_pc (b : Bool) : (s.setInterruptDisable b).pc = s.pc := rfl
@[simp] theorem setInterruptDisable_cycles (b : Bool) : (s.setInterruptDisable b).cycles = s.cycles := rfl
@[simp] theorem setInterruptDisable_running (b : Bool) : (s.setInterruptDisable b).running = s.running := rfl
@[simp] theorem setInterruptDisable_irqSources (b : Bool) : (s.setInterruptDisable b).irqSources = s.irqSources := rfl
@[simp] theorem setInterruptDisable_ram (b : Bool) : (s.setInterruptDisable b).ram = s.ram := rfl
@[simp] theorem setInterruptDisable_bankDdr (b : Bool) : (s.setInterruptDisable b).bankDdr = s.bankDdr := rfl
@[simp] theorem setInterruptDisable_bankPort (b : Bool) : (s.setInterruptDisable b).bankPort = s.bankPort := rfl
@[simp] theorem setInterruptDisable_chip0 (b : Bool) : (s.setInterruptDisable b).chip0 = s.chip0 := rfl
@[simp] theorem setInterruptDisable_chip1 (b : Bool) : (s.setInterruptDisable b).chip1 = s.chip1 := rfl
@[simp] theorem setInterruptDisable_queue (b : Bool) : (s.setInterruptDisable b).queue = s.queue := rfl
@[simp] theorem setInterruptDisable_romKernel (b : Bool) : (s.setInterruptDisable b).romKernel = s.romKernel := rfl
@[simp] theorem setInterruptDisable_romBasic (b : Bool) : (s.setInterruptDisable b).romBasic = s.romBasic := rfl
@[simp] theorem setInterruptDisable_romChar (b : Bool) : (s.setInterruptDisable b).romChar = s.romChar := rfl
@[simp] theorem setInterruptDisable_draws (b : Bool) : (s.setInterruptDisable b).draws = s.draws := rfl
@[simp] theorem setInterruptDisable_outputs (b : Bool) : (s.setInterruptDisable b).outputs = s.outputs := rfl

@[simp] theorem writeP_a (v : Byte) : (s.writeP v).a = s.a := rfl
@[simp] theorem writeP_x (v : Byte) : (s.writeP v).x = s.x := rfl
@[simp] theorem writeP_y (v : Byte) : (s.writeP v).y = s.y := rfl
@[simp] theorem writeP_sp (v : Byte) : (s.writeP v).sp = s.sp := rfl
@[simp] theorem writeP_pc (v : Byte) : (s.writeP v).pc = s.pc := rfl
@[simp] theorem writeP_cycles (v : Byte) : (s.writeP v).cycles = s.cycles := rfl
@[simp] theorem writeP_running (v : Byte) : (s.writeP v).running = s.running := rfl
@[simp] theorem writeP_irqSources (v : Byte) : (s.writeP v).irqSources = s.irqSources := rfl
@[simp] theorem writeP_ram (v : Byte) : (s.writeP v).ram = s.ram := rfl
@[simp] theorem writeP_bankDdr (v : Byte) : (s.writeP v).bankDdr = s.bankDdr := rfl
@[simp] theorem writeP_bankPort (v : Byte) : (s.writeP v).bankPort = s.bankPort := rfl
@[simp] theorem writeP_chip0 (v : Byte) : (s.writeP v).chip0 = s.chip0 := rfl
@[simp] theorem writeP_chip1 (v : Byte) : (s.writeP v).chip1 = s.chip1 := rfl
@[simp] theorem writeP_queue (v : Byte) : (s.writeP v).queue = s.queue := rfl
@[simp] theorem writeP_romKernel (v : Byte) : (s.writeP v).romKernel = s.romKernel := rfl
@[simp] theorem writeP_romBasic (v : Byte) : (s.writeP v).romBasic = s.romBasic := rfl
@[simp] theorem writeP_romChar (v : Byte) : (s.writeP v).romChar = s.romChar := rfl
@[simp] theorem writeP_draws (v : Byte) : (s.writeP v).draws = s.draws := rfl
@[simp] theorem writeP_outputs (v : Byte) : (s.writeP v).outputs = s.outputs := rfl

@[simp] theorem addCycles_a (n : Nat) : (s.addCycles n).a = s.a := rfl
@[simp] theorem addCycles_x (n : Nat) : (s.addCycles n).x = s.x := rfl
@[simp] theorem addCycles_y (n : Nat) : (s.addCycles n).y = s.y := rfl
@[simp] theorem addCycles_sp (n : Nat) : (s.addCycles n).sp = s.sp := rfl
@[simp] theorem addCycles_p (n : Nat) : (s.addCycles n).p = s.p := rfl
@[simp] theorem addCycles_pc (n : Nat) : (s.addCycles n).pc = s.pc := rfl
@[simp] theorem addCycles_running (n : Nat) : (s.addCycles n).running = s.running := rfl
@[simp] theorem addCycles_irqPending (n : Nat) : (s.addCycles n).irqPending = s.irqPending := rfl
@[simp] theorem addCycles_irqSources (n : Nat) : (s.addCycles n).irqSources = s.irqSources := rfl
@[simp] theorem addCycles_ram (n : Nat) : (s.addCycles n).ram = s.ram := rfl
@[simp] theorem addCycles_bankDdr (n : Nat) : (s.addCycles n).bankDdr = s.bankDdr := rfl
@[simp] theorem addCycles_bankPort (n : Nat) : (s.addCycles n).bankPort = s.bankPort := rfl
@[simp] theorem addCycles_chip0 (n : Nat) : (s.addCycles n).chip0 = s.chip0 := rfl
@[simp] theorem addCycles_chip1 (n : Nat) : (s.addCycles n).chip1 = s.chip1 := rfl
@[simp] theorem addCycles_queue (n : Nat) : (s.addCycles n).queue = s.queue := rfl
@[simp] theorem addCycles_romKernel (n : Nat) : (s.addCycles n).romKernel = s.romKernel := rfl
@[simp] theorem addCycles_romBasic (n : Nat) : (s.addCycles n).romBasic = s.romBasic := rfl
@[simp] theorem addCycles_romChar (n : Nat) : (s.addCycles n).romChar = s.romChar := rfl
@[simp] theorem addCycles_draws (n : Nat) : (s.addCycles n).draws = s.draws := rfl
@[simp] theorem addCycles_outputs (n : Nat) : (s.addCycles n).outputs = s.outputs := rfl

@[simp] theorem requestIrq_a (k : Fin 8) : (s.requestIrq k).a = s.a := rfl
@[simp] theorem requestIrq_x (k : Fin 8) : (s.requestIrq k).x = s.x := rfl
@[simp] theorem requestIrq_y (k : Fin 8) : (s.requestIrq k).y = s.y := rfl
@[simp] theorem requestIrq_sp (k : Fin 8) : (s.requestIrq k).sp = s.sp := rfl
@[simp] theorem requestIrq_p (k : Fin 8) : (s.requestIrq k).p = s.p := rfl
@[simp] theorem requestIrq_pc (k : Fin 8) : (s.requestIrq k).pc = s.pc := rfl
@[simp] theorem requestIrq_cycles (k : Fin 8) : (s.requestIrq k).cycles = s.cycles := rfl
@[simp] theorem requestIrq_running (k : Fin 8) : (s.requestIrq k).running = s.running := rfl
@[simp] theorem requestIrq_ram (k : Fin 8) : (s.requestIrq k).ram = s.ram := rfl
@[simp] theorem requestIrq_bankDdr (k : Fin 8) : (s.requestIrq k).bankDdr = s.bankDdr := rfl
@[simp] theorem requestIrq_bankPort (k : Fin 8) : (s.requestIrq k).bankPort = s.bankPort := rfl
@[simp] theorem requestIrq_chip0 (k : Fin 8) : (s.requestIrq k).chip0 = s.chip0 := rfl
@[simp] theorem requestIrq_chip1 (k : Fin 8) : (s.requestIrq k).chip1 = s.chip1 := rfl
@[simp] theorem requestIrq_queue (k : Fin 8) : (s.requestIrq k).queue = s.queue := rfl
@[simp] theorem requestIrq_romKernel (k : Fin 8) : (s.requestIrq k).romKernel = s.romKernel := rfl
@[simp] theorem requestIrq_romBasic (k : Fin 8) : (s.requestIrq k).romBasic = s.romBasic := rfl
@[simp] theorem requestIrq_romChar (k : Fin 8) : (s.requestIrq k).romChar = s.romChar := rfl
@[simp] theorem requestIrq_draws (k : Fin 8) : (s.requestIrq k).draws = s.draws := rfl
@[simp] theorem requestIrq_outputs (k : Fin 8) : (s.requestIrq k).outputs = s.outputs := rfl

@[simp] theorem unrequestIrq_a (k : Fin 8) : (s.unrequestIrq k).a = s.a := rfl
@[simp] theorem unrequestIrq_x (k : Fin 8) : (s.unrequestIrq k).x = s.x := rfl
@[simp] theorem unrequestIrq_y (k : Fin 8) : (s.unrequestIrq k).y = s.y := rfl
@[simp] theorem unrequestIrq_sp (k : Fin 8) : (s.unrequestIrq k).sp = s.sp := rfl
@[simp] theorem unrequestIrq_p (k : Fin 8) : (s.unrequestIrq k).p = s.p := rfl
@[simp] theorem unrequestIrq_pc (k : Fin 8) : (s.unrequestIrq k).pc = s.pc := rfl
@[simp] theorem unrequestIrq_cycles (k : Fin 8) : (s.unrequestIrq k).cycles = s.cycles := rfl
@[simp] theorem unrequestIrq_running (k : Fin 8) : (s.unrequestIrq k).running = s.running := rfl
@[simp] theorem unrequestIrq_ram (k : Fin 8) : (s.unrequestIrq k).ram = s.ram := rfl
@[simp] theorem unrequestIrq_bankDdr (k : Fin 8) : (s.unrequestIrq k).bankDdr = s.bankDdr := rfl
@[simp] theorem unrequestIrq_bankPort (k : Fin 8) : (s.unrequestIrq k).bankPort = s.bankPort := rfl
@[simp] theorem unrequestIrq_chip0 (k : Fin 8) : (s.unrequestIrq k).chip0 = s.chip0 := rfl
@[simp] theorem unrequestIrq_chip1 (k : Fin 8) : (s.unrequestIrq k).chip1 = s.chip1 := rfl
@[simp] theorem unrequestIrq_queue (k : Fin 8) : (s.unrequestIrq k).queue = s.queue := rfl
@[simp] theorem unrequestIrq_romKernel (k : Fin 8) : (s.unrequestIrq k).romKernel = s.romKernel := rfl
@[simp] theorem unrequestIrq_romBasic (k : Fin 8) : (s.unrequestIrq k).romBasic = s.romBasic := rfl
@[simp] theorem unrequestIrq_romChar (k : Fin 8) : (s.unrequestIrq k).romChar = s.romChar := rfl
@[simp] theorem unrequestIrq_draws (k : Fin 8) : (s.unrequestIrq k).draws = s.draws := rfl
@[simp] theorem unrequestIrq_outputs (k : Fin 8) : (s.unrequestIrq k).outputs = s.outputs := rfl

@[simp] theorem enqueue_a (n : Nat) (r : Request) : (s.enqueue n r).a = s.a := rfl
@[simp] theorem enqueue_x (n : Nat) (r : Request) : (s.enqueue n r).x = s.x := rfl
@[simp] theorem enqueue_y (n : Nat) (r : Request) : (s.enqueue n r).y = s.y := rfl
@[simp] theorem enqueue_sp (n : Nat) (r : Request) : (s.enqueue n r).sp = s.sp := rfl
@[simp] theorem enqueue_p (n : Nat) (r : Request) : (s.enqueue n r).p = s.p := rfl
@[simp] theorem enqueue_pc (n : Nat) (r : Request) : (s.enqueue n r).pc = s.pc := rfl
@[simp] theorem enqueue_cycles (n : Nat) (r : Request) : (s.enqueue n r).cycles = s.cycles := rfl
@[simp] theorem enqueue_running (n : Nat) (r : Request) : (s.enqueue n r).running = s.running := rfl
@[simp] theorem enqueue_irqPending (n : Nat) (r : Request) : (s.enqueue n r).irqPending = s.irqPending := rfl
@[simp] theorem enqueue_irqSources (n : Nat) (r : Request) : (s.enqueue n r).irqSources = s.irqSources := rfl
@[simp] theorem enqueue_ram (n : Nat) (r : Request) : (s.enqueue n r).ram = s.ram := rfl
@[simp] theorem enqueue_bankDdr (n : Nat) (r : Request) : (s.enqueue n r).bankDdr = s.bankDdr := rfl
@[simp] theorem enqueue_bankPort (n : Nat) (r : Request) : (s.enqueue n r).bankPort = s.bankPort := rfl
@[simp] theorem enqueue_chip0 (n : Nat) (r : Request) : (s.enqueue n r).chip0 = s.chip0 := rfl
@[simp] theorem enqueue_chip1 (n : Nat) (r : Request) : (s.enqueue n r).chip1 = s.chip1 := rfl
@[simp] theorem enqueue_romKernel (n : Nat) (r : Request) : (s.enqueue n r).romKernel = s.romKernel := rfl
@[simp] theorem enqueue_romBasic (n : Nat) (r : Request) : (s.enqueue n r).romBasic = s.romBasic := rfl
@[simp] theorem enqueue_romChar (n : Nat) (r : Request) : (s.enqueue n r).romChar = s.romChar := rfl
@[simp] theorem enqueue_draws (n : Nat) (r : Request) : (s.enqueue n r).draws = s.draws := rfl
@[simp] theorem enqueue_outputs (n : Nat) (r : Request) : (s.enqueue n r).outputs = s.outputs := rfl

@[simp] theorem cancel_a (r : Request) : (s.cancel r).a = s.a := rfl
@[simp] theorem cancel_x (r : Request) : (s.cancel r).x = s.x := rfl
@[simp] theorem cancel_y (r : Request) : (s.cancel r).y = s.y := rfl
@[simp] theorem cancel_sp (r : Request) : (s.cancel r).sp = s.sp := rfl
@[simp] theorem cancel_p (r : Request) : (s.cancel r).p = s.p := rfl
@[simp] theorem cancel_pc (r : Request) : (s.cancel r).pc = s.pc := rfl
@[simp] theorem cancel_cycles (r : Request) : (s.cancel r).cycles = s.cycles := rfl
@[simp] theorem cancel_running (r : Request) : (s.cancel r).running = s.running := rfl
@[simp] theorem cancel_irqPending (r : Request) : (s.cancel r).irqPending = s.irqPending := rfl
@[simp] theorem cancel_irqSources (r : Request) : (s.cancel r).irqSources = s.irqSources := rfl
@[simp] theorem cancel_ram (r : Request) : (s.cancel r).ram = s.ram := rfl
@[simp] theorem cancel_bankDdr (r : Request) : (s.cancel r).bankDdr = s.bankDdr := rfl
@[simp] theorem cancel_bankPort (r : Request) : (s.cancel r).bankPort = s.bankPort := rfl
@[simp] theorem cancel_chip0 (r : Request) : (s.cancel r).chip0 = s.chip0 := rfl
@[simp] theorem cancel_chip1 (r : Request) : (s.cancel r).chip1 = s.chip1 := rfl
@[simp] theorem cancel_romKernel (r : Request) : (s.cancel r).romKernel = s.romKernel := rfl
@[simp] theorem cancel_romBasic (r : Request) : (s.cancel r).romBasic = s.romBasic := rfl
@[simp] theorem cancel_romChar (r : Request) : (s.cancel r).romChar = s.romChar := rfl
@[simp] theorem cancel_draws (r : Request) : (s.cancel r).draws = s.draws := rfl
@[simp] theorem cancel_outputs (r : Request) : (s.cancel r).outputs = s.outputs := rfl

@[simp] theorem setChip_a (k : ChipId) (c : TimerChip) : (s.setChip k c).a = s.a := by cases k <;> rfl
@[simp] theorem setChip_x (k : ChipId) (c : TimerChip) : (s.setChip k c).x = s.x := by cases k <;> rfl
@[simp] theorem setChip_y (k : ChipId) (c : TimerChip) : (s.setChip k c).y = s.y := by cases k <;> rfl
@[simp] theorem setChip_sp (k : ChipId) (c : TimerChip) : (s.setChip k c).sp = s.sp := by cases k <;> rfl
@[simp] theorem setChip_p (k : ChipId) (c : TimerChip) : (s.setChip k c).p = s.p := by cases k <;> rfl
@[simp] theorem setChip_pc (k : ChipId) (c : TimerChip) : (s.setChip k c).pc = s.pc := by cases k <;> rfl
@[simp] theorem setChip_cycles (k : ChipId) (c : TimerChip) : (s.setChip k c).cycles = s.cycles := by cases k <;> rfl
@[simp] theorem setChip_running (k : ChipId) (c : TimerChip) : (s.setChip k c).running = s.running := by cases k <;> rfl
@[simp] theorem setChip_irqPending (k : ChipId) (c : TimerChip) : (s.setChip k c).irqPending = s.irqPending := by cases k <;> rfl
@[simp] theorem setChip_irqSources (k : ChipId) (c : TimerChip) : (s.setChip k c).irqSources = s.irqSources := by cases k <;> rfl
@[simp] theorem setChip_ram (k : ChipId) (c : TimerChip) : (s.setChip k c).ram = s.ram := by cases k <;> rfl
@[simp] theorem setChip_bankDdr (k : ChipId) (c : TimerChip) : (s.setChip k c).bankDdr = s.bankDdr := by cases k <;> rfl
@[simp] theorem setChip_bankPort (k : ChipId) (c : TimerChip) : (s.setChip k c).bankPort = s.bankPort := by cases k <;> rfl
@[simp] theorem setChip_queue (k : ChipId) (c : TimerChip) : (s.setChip k c).queue = s.queue := by cases k <;> rfl
@[simp] theorem setChip_romKernel (k : ChipId) (c : TimerChip) : (s.setChip k c).romKernel = s.romKernel := by cases k <;> rfl
@[simp] theorem setChip_romBasic (k : ChipId) (c : TimerChip) : (s.setChip k c).romBasic = s.romBasic := by cases k <;> rfl
@[simp] theorem setChip_romChar (k : ChipId) (c : TimerChip) : (s.setChip k c).romChar = s.romChar := by cases k <;> rfl
@[simp] theorem setChip_draws (k : ChipId) (c : TimerChip) : (s.setChip k c).draws = s.draws := by cases k <;> rfl
@[simp] theorem setChip_outputs (k : ChipId) (c : TimerChip) : (s.setChip k c).outputs = s.outputs := by cases k <;> rfl

@[simp] theorem setTimer_a (k : ChipId) (t : TimerId) (tm : Timer) : (s.setTimer k t tm).a = s.a := by cases k <;> rfl
@[simp] theorem setTimer_x (k : ChipId) (t : TimerId) (tm : Timer) : (s.setTimer k t tm).x = s.x := by cases k <;> rfl
@[simp] theorem setTimer_y (k : ChipId) (t : TimerId) (tm : Timer) : (s.setTimer k t tm).y = s.y := by cases k <;> rfl
@[simp] theorem setTimer_sp (k : ChipId) (t : TimerId) (tm : Timer) : (s.setTimer k t tm).sp = s.sp := by cases k <;> rfl
@[simp] theorem setTimer_p (k : ChipId) (t : TimerId) (tm : Timer) : (s.setTimer k t tm).p = s.p := by cases k <;> rfl
@[simp] theorem setTimer_pc (k : ChipId) (t : TimerId) (tm : Timer) : (s.setTimer k t tm).pc = s.pc := by cases k <;> rfl
@[simp] theorem setTimer_cycles (k : ChipId) (t : TimerId) (tm : Timer) : (s.setTimer k t tm).cycles = s.cycles := by cases k <;> rfl
@[simp] theorem setTimer_running (k : ChipId) (t : TimerId) (tm : Timer) : (s.setTimer k t tm).running = s.running := by cases k <;> rfl
@[simp] theorem setTimer_irqPending (k : ChipId) (t : TimerId) (tm : Timer) : (s.setTimer k t tm).irqPending = s.irqPending := by cases k <;> rfl
@[simp] theorem setTimer_irqSources (k : ChipId) (t : TimerId) (tm : Timer) : (s.setTimer k t tm).irqSources = s.irqSources := by cases k <;> rfl
@[simp] theorem setTimer_ram (k : ChipId) (t : TimerId) (tm : Timer) : (s.setTimer k t tm).ram = s.ram := by cases k <;> rfl
@[simp] theorem setTimer_bankDdr (k : ChipId) (t : TimerId) (tm : Timer) : (s.setTimer k t tm).bankDdr = s.bankDdr := by cases k <;> rfl
@[simp] theorem setTimer_bankPort (k : ChipId) (t : TimerId) (tm : Timer) : (s.setTimer k t tm).bankPort = s.bankPort := by cases k <;> rfl
@[simp] theorem setTimer_queue (k : ChipId) (t : TimerId) (tm : Timer) : (s.setTimer k t tm).queue = s.queue := by cases k <;> rfl
@[simp] theorem setTimer_romKernel (k : ChipId) (t : TimerId) (tm : Timer) : (s.setTimer k t tm).romKernel = s.romKernel := by cases k <;> rfl
@[simp] theorem setTimer_romBasic (k : ChipId) (t : TimerId) (tm : Timer) : (s.setTimer k t tm).romBasic = s.romBasic := by cases k <;> rfl
@[simp] theorem setTimer_romChar (k : ChipId) (t : TimerId) (tm : Timer) : (s.setTimer k t tm).romChar = s.romChar := by cases k <;> rfl
@[simp] theorem setTimer_draws (k : ChipId) (t : TimerId) (tm : Timer) : (s.setTimer k t tm).draws = s.draws := by cases k <;> rfl
@[simp] theorem setTimer_outputs (k : ChipId) (t : TimerId) (tm : Timer) : (s.setTimer k t tm).outputs = s.outputs := by cases k <;> rfl

@[simp] theorem emit_a (o : Output) : (s.emit o).a = s.a := rfl
@[simp] theorem emit_x (o : Output) : (s.emit o).x = s.x := rfl
@[simp] theorem emit_y (o : Output) : (s.emit o).y = s.y := rfl
@[simp] theorem emit_sp (o : Output) : (s.emit o).sp = s.sp := rfl
@[simp] theorem emit_p (o : Output) : (s.emit o).p = s.p := rfl
@[simp] theorem emit_pc (o : Output) : (s.emit o).pc = s.pc := rfl
@[simp] theorem emit_cycles (o : Output) : (s.emit o).cycles = s.cycles := rfl
@[simp] theorem emit_running (o : Output) : (s.emit o).running = s.running := rfl
@[simp] theorem emit_irqPending (o : Output) : (s.emit o).irqPending = s.irqPending := rfl
@[simp] theorem emit_irqSources (o : Output) : (s.emit o).irqSources = s.irqSources := rfl
@[simp] theorem emit_ram (o : Output) : (s.emit o).ram = s.ram := rfl
@[simp] theorem emit_bankDdr (o : Output) : (s.emit o).bankDdr = s.bankDdr := rfl
@[simp] theorem emit_bankPort (o : Output) : (s.emit o).bankPort = s.bankPort := rfl
@[simp] theorem emit_chip0 (o : Output) : (s.emit o).chip0 = s.chip0 := rfl
@[simp] theorem emit_chip1 (o : Output) : (s.emit o).chip1 = s.chip1 := rfl
@[simp] theorem emit_queue (o : Output) : (s.emit o).queue = s.queue := rfl
@[simp] theorem emit_romKernel (o : Output) : (s.emit o).romKernel = s.romKernel := rfl
@[simp] theorem emit_romBasic (o : Output) : (s.emit o).romBasic = s.romBasic := rfl
@[simp] theorem emit_romChar (o : Output) : (s.emit o).romChar = s.romChar := rfl
@[simp] theorem emit_draws (o : Output) : (s.emit o).draws = s.draws := rfl
@[simp] theorem emit_outputs (o : Output) : (s.emit o).outputs = o :: s.outputs := rfl

@[simp] theorem addCycles_cycles (n : Nat) : (s.addCycles n).cycles = s.cycles + n := rfl
@[simp] theorem setFlag_p (f : Flag) (b : Bool) : (s.setFlag f b).p = statusSet s.p f b := rfl
@[simp] theorem writeP_p (v : Byte) : (s.writeP v).p = v ||| 0x20#8 := rfl
@[simp] theorem setInterruptDisable_p (b : Bool) : (s.setInterruptDisable b).p = statusSet s.p .i b := rfl
@[simp] theorem recomputeIrq_irqPending : s.recomputeIrq.irqPending = (s.irqSources != 0 && !s.flag .i) := rfl
@[simp] theorem requestIrq_irqSources (k : Fin 8) : (s.requestIrq k).irqSources = s.irqSources ||| sourceMask k := rfl
@[simp] theorem unrequestIrq_irqSources (k : Fin 8) :
    (s.unrequestIrq k).irqSources = s.irqSources &&& ~~~sourceMask k := rfl
@[simp] theorem enqueue_queue (n : Nat) (r : Request) :
    (s.enqueue n r).queue = queueInsert n r (queueRemove r s.queue) := rfl
@[simp] theorem cancel_queue (r : Request) : (s.cancel r).queue = queueRemove r s.queue := rfl

@[simp] theorem setChip_chip (k : ChipId) (c : TimerChip) : (s.setChip k c).chip k = c := by cases k <;> rfl

theorem setChip_chip_ne {k j : ChipId} (c : TimerChip) (h : j ≠ k) : (s.setChip k c).chip j = s.chip j := by
  cases k <;> cases j <;> first | rfl | exact absurd rfl h

theorem chip_setChip (k j : ChipId) (c : TimerChip) :
    (s.setChip k c).chip j = if j = k then c else s.chip j := by
  cases k <;> cases j <;> rfl

@[simp] theorem timer_setTimer_same (c : TimerChip) (t : TimerId) (tm : Timer) : (c.setTimer t tm).timer t = tm := by
  cases t <;> rfl

theorem timer_setTimer_ne (c : TimerChip) {t u : TimerId} (tm : Timer) (h : u ≠ t) :
    (c.setTimer t tm).timer u = c.timer u := by
  cases t <;> cases u <;> first | rfl | exact absurd rfl h

@[simp] theorem setTimer_timer (k : ChipId) (t : TimerId) (tm : Timer) : (s.setTimer k t tm).timer k t = tm := by
  simp [State.timer, State.setTimer]

theorem timer_setTimer (k j : ChipId) (t u : TimerId) (tm : Timer) :
    (s.setTimer k t tm).timer j u = if j = k ∧ u = t then tm else s.timer j u := by
  cases k <;> cases j <;> cases t <;> cases u <;> rfl

@[simp] theorem chip_enqueue (n : Nat) (r : Request) (k : ChipId) : (s.enqueue n r).chip k = s.chip k := by
  cases k <;> rfl

@[simp] theorem chip_cancel (r : Request) (k : ChipId) : (s.cancel r).chip k = s.chip k := by cases k <;> rfl

@[simp] theorem chip_requestIrq (i : Fin 8) (k : ChipId) : (s.requestIrq i).chip k = s.chip k := by cases k <;> rfl

@[simp] theorem chip_unrequestIrq (i : Fin 8) (k : ChipId) : (s.unrequestIrq i).chip k = s.chip k := by cases k <;> rfl

@[simp] theorem chip_emit (o : Output) (k : ChipId) : (s.emit o).chip k = s.chip k := by cases k <;> rfl

@[simp] theorem chip_addCycles (n : Nat) (k : ChipId) : (s.addCycles n).chip k = s.chip k := by cases k <;> rfl

/-- Putting a chip back changes nothing. -/
@[simp] theorem setChip_chip_self (k : ChipId) : s.setChip k (s.chip k) = s := by cases k <;> rfl

/-- Putting a timer back changes nothing. -/
@[simp] theorem setTimer_timer_self (k : ChipId) (t : TimerId) : s.setTimer k t (s.timer k t) = s := by
  cases k <;> cases t <;> rfl

end

/-! The status register (R25). -/

/-- A flag set reads as set. -/
@[simp] theorem statusGet_statusSet_same (p : Byte) (f : Flag) (b : Bool) : statusGet (statusSet p f b) f = b := by
  cases f <;> cases b <;> simp [statusGet, statusSet, Flag.mask, Flag.bit]

/-- Setting one flag leaves every other flag alone (R143). -/
theorem statusGet_statusSet_ne (p : Byte) {f g : Flag} (b : Bool) (h : g ≠ f) :
    statusGet (statusSet p f b) g = statusGet p g := by
  cases f <;> cases g <;> first
    | exact absurd rfl h
    | (cases b <;> simp [statusGet, statusSet, Flag.mask, Flag.bit])

/-- Two status bytes with the same flags are the same byte. -/
theorem status_ext {p q : Byte} (h : ∀ f, statusGet p f = statusGet q f) : p = q := by
  have key : ∀ i, i < 8 → p.getLsbD i = q.getLsbD i := by
    intro i hi
    have : i = 0 ∨ i = 1 ∨ i = 2 ∨ i = 3 ∨ i = 4 ∨ i = 5 ∨ i = 6 ∨ i = 7 := by omega
    rcases this with h' | h' | h' | h' | h' | h' | h' | h' <;> subst h'
    exacts [h .c, h .z, h .i, h .d, h .b, h .u, h .v, h .n]
  exact BitVec.eq_of_getLsbD_eq (fun i hi => key i hi)

section
variable (s : State)

@[simp] theorem flag_setFlag_same (f : Flag) (b : Bool) : (s.setFlag f b).flag f = b := by
  simp [State.flag]

theorem flag_setFlag_ne {f g : Flag} (b : Bool) (h : g ≠ f) : (s.setFlag f b).flag g = s.flag g := by
  simp [State.flag, statusGet_statusSet_ne _ _ h]

@[simp] theorem flag_setNZ_z (v : Byte) : (s.setNZ v).flag .z = (v == 0) := by
  simp [State.setNZ, flag_setFlag_ne]

@[simp] theorem flag_setNZ_n (v : Byte) : (s.setNZ v).flag .n = v.msb := by
  simp [State.setNZ]

theorem flag_setNZ_ne {f : Flag} (v : Byte) (hn : f ≠ .n) (hz : f ≠ .z) : (s.setNZ v).flag f = s.flag f := by
  simp [State.setNZ, flag_setFlag_ne, hn, hz]

@[simp] theorem flag_emit (o : Output) (f : Flag) : (s.emit o).flag f = s.flag f := rfl

@[simp] theorem flag_addCycles (n : Nat) (f : Flag) : (s.addCycles n).flag f = s.flag f := rfl

@[simp] theorem flag_setInterruptDisable_i (b : Bool) : (s.setInterruptDisable b).flag .i = b := by
  simp [State.flag]

theorem flag_setInterruptDisable_ne {f : Flag} (b : Bool) (h : f ≠ .i) :
    (s.setInterruptDisable b).flag f = s.flag f := by
  simp [State.flag, statusGet_statusSet_ne _ _ h]

@[simp] theorem setInterruptDisable_irqPending (b : Bool) :
    (s.setInterruptDisable b).irqPending = (s.irqSources != 0 && !b) := by
  simp [State.setInterruptDisable]

/-- `WriteP` always leaves bit 5 set (R24). -/
@[simp] theorem flag_writeP_u (v : Byte) : (s.writeP v).flag .u = true := by
  simp [State.flag, statusGet, Flag.bit]

/-- `WriteP` takes every other flag from the byte. -/
theorem flag_writeP_ne {f : Flag} (v : Byte) (h : f ≠ .u) : (s.writeP v).flag f = statusGet v f := by
  cases f <;> first
    | exact absurd rfl h
    | simp [State.flag, statusGet, Flag.bit]

end

end Sys2Proof.Machine
end

