-- ==== Sys2Proof/Laws/Devices.lean ====
section
/-! SUPPORT. What the chips, the scheduler and the callbacks can touch: only the devices. -/

namespace Sys2Proof.Machine

theorem OnlyDevices.refl (s : State) : OnlyDevices s s := rfl

/-- `OnlyDevices` field by field. -/
theorem onlyDevices_iff {s t : State} : OnlyDevices s t ↔
    t.a = s.a ∧ t.x = s.x ∧ t.y = s.y ∧ t.sp = s.sp ∧ t.p = s.p ∧ t.pc = s.pc ∧ t.cycles = s.cycles ∧ t.running = s.running ∧ t.ram = s.ram ∧ t.bankDdr = s.bankDdr ∧ t.bankPort = s.bankPort ∧ t.romKernel = s.romKernel ∧ t.romBasic = s.romBasic ∧ t.romChar = s.romChar := by
  cases s; cases t; simp [OnlyDevices]

theorem OnlyDevices.trans {s t u : State} (h : OnlyDevices s t) (k : OnlyDevices t u) : OnlyDevices s u := by
  rw [onlyDevices_iff] at *
  simp_all

theorem OnlyDevices.a {s t : State} (h : OnlyDevices s t) : t.a = s.a := (onlyDevices_iff.1 h).1
theorem OnlyDevices.x {s t : State} (h : OnlyDevices s t) : t.x = s.x := (onlyDevices_iff.1 h).2.1
theorem OnlyDevices.y {s t : State} (h : OnlyDevices s t) : t.y = s.y := (onlyDevices_iff.1 h).2.2.1
theorem OnlyDevices.sp {s t : State} (h : OnlyDevices s t) : t.sp = s.sp := (onlyDevices_iff.1 h).2.2.2.1
theorem OnlyDevices.p {s t : State} (h : OnlyDevices s t) : t.p = s.p := (onlyDevices_iff.1 h).2.2.2.2.1
theorem OnlyDevices.pc {s t : State} (h : OnlyDevices s t) : t.pc = s.pc := (onlyDevices_iff.1 h).2.2.2.2.2.1
theorem OnlyDevices.cycles {s t : State} (h : OnlyDevices s t) : t.cycles = s.cycles := (onlyDevices_iff.1 h).2.2.2.2.2.2.1
theorem OnlyDevices.running {s t : State} (h : OnlyDevices s t) : t.running = s.running := (onlyDevices_iff.1 h).2.2.2.2.2.2.2.1
theorem OnlyDevices.ram {s t : State} (h : OnlyDevices s t) : t.ram = s.ram := (onlyDevices_iff.1 h).2.2.2.2.2.2.2.2.1
theorem OnlyDevices.bankDdr {s t : State} (h : OnlyDevices s t) : t.bankDdr = s.bankDdr := (onlyDevices_iff.1 h).2.2.2.2.2.2.2.2.2.1
theorem OnlyDevices.bankPort {s t : State} (h : OnlyDevices s t) : t.bankPort = s.bankPort := (onlyDevices_iff.1 h).2.2.2.2.2.2.2.2.2.2.1
theorem OnlyDevices.romKernel {s t : State} (h : OnlyDevices s t) : t.romKernel = s.romKernel := (onlyDevices_iff.1 h).2.2.2.2.2.2.2.2.2.2.2.1
theorem OnlyDevices.romBasic {s t : State} (h : OnlyDevices s t) : t.romBasic = s.romBasic := (onlyDevices_iff.1 h).2.2.2.2.2.2.2.2.2.2.2.2.1
theorem OnlyDevices.romChar {s t : State} (h : OnlyDevices s t) : t.romChar = s.romChar := (onlyDevices_iff.1 h).2.2.2.2.2.2.2.2.2.2.2.2.2

theorem OnlyDevices.flag {s t : State} (h : OnlyDevices s t) (f : Flag) : t.flag f = s.flag f := by
  simp [State.flag, h.p]

section
variable (s : State) (k : ChipId) (t : TimerId)

theorem only_setChip (c : TimerChip) : OnlyDevices s (s.setChip k c) := by cases k <;> rfl

theorem only_setTimer (tm : Timer) : OnlyDevices s (s.setTimer k t tm) := only_setChip s k _

theorem only_requestIrq (i : Fin 8) : OnlyDevices s (s.requestIrq i) := rfl

theorem only_unrequestIrq (i : Fin 8) : OnlyDevices s (s.unrequestIrq i) := rfl

theorem only_pop (q : List (Nat × Request)) : OnlyDevices s { s with queue := q } := rfl

theorem only_enqueue (n : Nat) (r : Request) : OnlyDevices s (s.enqueue n r) := rfl

theorem only_cancel (r : Request) : OnlyDevices s (s.cancel r) := rfl

theorem only_emit (o : Output) : OnlyDevices s (s.emit o) := rfl

/-- A port write stores the chip with its snapshot taken, and shows the environment the values before and after (R311, R312). -/
theorem writePort_eq (c : TimerChip) : s.writePort k c =
    (s.setChip k c.snapshot).emit (.postWrite k c.pra c.prb c.prevPra c.prevPrb) := by cases k <;> rfl

theorem only_writePort (c : TimerChip) : OnlyDevices s (s.writePort k c) :=
  writePort_eq s k c ▸ (only_setChip ..).trans (only_emit ..)

theorem only_setIcr (flags mask : BitVec 5) : OnlyDevices s (s.setIcr k flags mask) := by
  unfold State.setIcr
  simp only
  split
  · exact (only_setChip ..).trans (only_requestIrq ..)
  · split
    · exact (only_setChip ..).trans (only_unrequestIrq ..)
    · exact only_setChip ..

theorem only_advanceOne (n : Nat) : OnlyDevices s (s.advanceOne k t n).1 := by
  unfold State.advanceOne
  simp only
  split
  · exact only_setTimer ..
  · exact (only_setTimer ..).trans (only_setIcr ..)

theorem only_advanceTimer (n : Nat) : OnlyDevices s (s.advanceTimer k t n) := by
  cases t
  · simp only [State.advanceTimer]
    split
    · exact (only_advanceOne ..).trans (only_advanceOne ..)
    · exact only_advanceOne ..
  · exact only_advanceOne ..

theorem only_updateTimer : OnlyDevices s (s.updateTimer k t) := by
  unfold State.updateTimer
  simp only
  split
  · exact (only_setTimer ..).trans (only_advanceTimer ..)
  · exact .refl s

theorem only_startTimer : OnlyDevices s (s.startTimer k t) := by
  unfold State.startTimer
  simp only
  split
  · exact (only_setTimer ..).trans (only_enqueue ..)
  · exact only_cancel ..

theorem only_timerCallback (r : Request) : OnlyDevices s (s.timerCallback r) :=
  (only_updateTimer ..).trans (only_startTimer ..)

theorem only_readReg (r : ChipReg) : OnlyDevices s (s.readReg k r).2 := by
  cases r with
  | portA => simp only [State.readReg, State.samplePins]; split <;> rfl
  | portB => simp only [State.readReg, State.samplePins]; split <;> rfl
  | timerLow t => exact only_updateTimer ..
  | timerHigh t => exact only_updateTimer ..
  | control t => exact only_updateTimer ..
  | icr => exact only_setIcr ..
  | _ => exact .refl s

theorem only_writeReg (r : ChipReg) (v : Byte) : OnlyDevices s (s.writeReg k r v) := by
  cases r with
  | timerLow t => exact (only_updateTimer ..).trans (only_setTimer ..)
  | timerHigh t => exact (only_updateTimer ..).trans (only_setTimer ..)
  | control t => exact ((only_updateTimer ..).trans (only_setTimer ..)).trans (only_startTimer ..)
  | icr => exact only_setIcr ..
  | unimplemented => exact .refl s
  | portA => exact only_writePort ..
  | portB => exact only_writePort ..
  | _ => exact only_setChip ..

theorem only_ioRead (a : Addr) : OnlyDevices s (s.ioRead a).2 := by
  unfold State.ioRead
  split
  · exact only_readReg ..
  · rfl
  · exact .refl s

theorem only_ioWrite (a : Addr) (v : Byte) : OnlyDevices s (s.ioWrite a v) := by
  unfold State.ioWrite
  split
  · exact only_writeReg ..
  · exact only_emit ..
  · exact .refl s

/-- A read touches nothing but the devices (R66). -/
theorem only_afterRead (a : Addr) : OnlyDevices s (s.afterRead a) := by
  unfold State.afterRead State.read
  split <;> first
    | exact only_ioRead ..
    | exact .refl s

end

theorem only_drainDue (n fuel : Nat) (s : State) : OnlyDevices s (drainDue n fuel s) := by
  induction fuel generalizing s with
  | zero => exact .refl s
  | succ fuel ih =>
    unfold drainDue
    split
    · exact .refl s
    · split
      · exact ((only_pop s _).trans (only_timerCallback _ _)).trans (ih _)
      · exact .refl s

/-- Callbacks touch nothing but the devices (R86). -/
theorem only_serviceDue (s : State) : OnlyDevices s s.serviceDue := by
  unfold State.serviceDue
  split
  · exact only_drainDue ..
  · exact .refl s

end Sys2Proof.Machine
end

