-- ==== Sys2Proof/Laws/Queue.lean ====
section
/-! SUPPORT. The scheduler's queue: what `Queue` and `Cancel` leave in it, and that they keep it ordered. -/

namespace Sys2Proof.Machine

/-- The order of R39 and R350, on the list. -/
abbrev Ordered (q : List (Nat × Request)) : Prop := q.Pairwise (fun d e => d.1 ≤ e.1 ∧ d.2 ≠ e.2)

theorem mem_queueRemove {r : Request} {q : List (Nat × Request)} {e : Nat × Request} :
    e ∈ queueRemove r q ↔ e ∈ q ∧ e.2 ≠ r := by
  simp [queueRemove]

theorem ordered_queueRemove {r : Request} {q : List (Nat × Request)} (h : Ordered q) : Ordered (queueRemove r q) :=
  List.Pairwise.filter _ h

theorem mem_queueInsert {n : Nat} {r : Request} {q : List (Nat × Request)} {e : Nat × Request} :
    e ∈ queueInsert n r q ↔ e = (n, r) ∨ e ∈ q := by
  induction q with
  | nil => simp [queueInsert]
  | cons d q ih =>
    unfold queueInsert
    split
    · rw [List.mem_cons, ih, List.mem_cons]; tauto
    · simp

/-- Inserting a request that is not in an ordered queue keeps it ordered (R352). -/
theorem ordered_queueInsert {n : Nat} {r : Request} {q : List (Nat × Request)} (h : Ordered q)
    (hr : ∀ e ∈ q, e.2 ≠ r) : Ordered (queueInsert n r q) := by
  induction q with
  | nil => simp [queueInsert]
  | cons d q ih =>
    obtain ⟨hd, hq⟩ := List.pairwise_cons.1 h
    unfold queueInsert
    split
    · rename_i hle
      refine List.pairwise_cons.2 ⟨fun e he => ?_, ih hq (fun e he => hr e (by simp [he]))⟩
      rcases mem_queueInsert.1 he with rfl | he
      · exact ⟨hle, hr d (by simp)⟩
      · exact hd e he
    · rename_i hle
      refine List.pairwise_cons.2 ⟨fun e he => ?_, h⟩
      have hne : r ≠ e.2 := (hr e he).symm
      rcases List.mem_cons.1 he with rfl | he
      · exact ⟨by simp; omega, hne⟩
      · have := (hd e he).1
        exact ⟨by simp; omega, hne⟩

/-- After `Queue(target, r)` the queue is ordered (R350, R351). -/
theorem ordered_enqueue {s : State} (n : Nat) (r : Request) (h : Ordered s.queue) : Ordered (s.enqueue n r).queue :=
  ordered_queueInsert (ordered_queueRemove h) (fun _ he => (mem_queueRemove.1 he).2)

theorem mem_enqueue {s : State} {n : Nat} {r : Request} {e : Nat × Request} :
    e ∈ (s.enqueue n r).queue ↔ e = (n, r) ∨ e ∈ s.queue ∧ e.2 ≠ r := by
  simp [State.enqueue, mem_queueInsert, mem_queueRemove]

theorem mem_cancel {s : State} {r : Request} {e : Nat × Request} :
    e ∈ (s.cancel r).queue ↔ e ∈ s.queue ∧ e.2 ≠ r := by
  simp [State.cancel, mem_queueRemove]

theorem queued_iff {s : State} {r : Request} : s.queued r = true ↔ ∃ n, (n, r) ∈ s.queue := by
  simp [State.queued]

theorem not_queued_iff {s : State} {r : Request} : s.queued r = false ↔ ∀ e ∈ s.queue, e.2 ≠ r := by
  simp [State.queued]

/-- In an ordered queue the deadline bounds every target from below. -/
theorem nextDeadline_le {s : State} (h : Ordered s.queue) {e : Nat × Request} (he : e ∈ s.queue) :
    s.nextDeadline ≤ e.1 := by
  unfold State.nextDeadline
  cases hq : s.queue with
  | nil => simp [hq] at he
  | cons d q =>
    rw [hq] at h he
    rcases List.mem_cons.1 he with rfl | he
    · simp
    · exact ((List.pairwise_cons.1 h).1 e he).1

end Sys2Proof.Machine
end

