-- ==== Sys2Proof/Laws/Chip.lean ====
section
/-! SUPPORT. What each TimerChip operation does to the timers, the interrupt registers and the queue. -/

namespace Sys2Proof.Machine

section
variable (s : State) (k j : ChipId) (t u : TimerId)

theorem timer_setChip (c : TimerChip) (h : ∀ u, c.timer u = (s.chip k).timer u) :
    (s.setChip k c).timer j u = s.timer j u := by
  simp only [State.timer, chip_setChip]
  split
  · rename_i hj; rw [h, hj]
  · rfl

/-- `SetIcr` sets exactly the two interrupt registers of the chip (R330). -/
theorem chip_setIcr (f m : BitVec 5) :
    (s.setIcr k f m).chip j = if j = k then { s.chip k with icrFlags := f, icrMask := m } else s.chip j := by
  unfold State.setIcr
  simp only
  split
  · rw [chip_requestIrq, chip_setChip]
  · split
    · rw [chip_unrequestIrq, chip_setChip]
    · rw [chip_setChip]

@[simp] theorem timer_setIcr (f m : BitVec 5) : (s.setIcr k f m).timer j u = s.timer j u := by
  simp only [State.timer, chip_setIcr]
  split
  · rename_i h; rw [h]; cases u <;> rfl
  · rfl

@[simp] theorem queue_setIcr (f m : BitVec 5) : (s.setIcr k f m).queue = s.queue := by
  unfold State.setIcr
  simp only
  split
  · simp
  · split <;> simp

@[simp] theorem cycles_setIcr (f m : BitVec 5) : (s.setIcr k f m).cycles = s.cycles := (only_setIcr ..).cycles

@[simp] theorem timer_enqueue (n : Nat) (r : Request) : (s.enqueue n r).timer k t = s.timer k t := by
  simp [State.timer]

@[simp] theorem timer_cancel (r : Request) : (s.cancel r).timer k t = s.timer k t := by
  simp [State.timer]

/-! `AdvanceTimer` on one timer (R322). -/

variable (tm : Timer) (n : Nat)

@[simp] theorem advance_latch : (tm.advance n).1.latch = tm.latch := by
  unfold Timer.advance; split
  · rfl
  · split <;> rfl

@[simp] theorem advance_last : (tm.advance n).1.last = tm.last := by
  unfold Timer.advance; split
  · rfl
  · split <;> rfl

/-- Counts that do not exceed the counter are subtracted, with no underflow. -/
theorem advance_within (h : n ≤ tm.counter.toNat) :
    tm.advance n = ({ tm with counter := BitVec.ofNat 16 (tm.counter.toNat - n) }, 0) := by
  simp [Timer.advance, h]

/-- `AdvanceTimer` changes no bit of the control register but bit 0. -/
theorem advance_cr (i : Nat) (h : i ≠ 0) (hi : i < 8) :
    (tm.advance n).1.cr.getLsbD i = tm.cr.getLsbD i := by
  unfold Timer.advance
  split
  · rfl
  · split
    · have : i = 1 ∨ i = 2 ∨ i = 3 ∨ i = 4 ∨ i = 5 ∨ i = 6 ∨ i = 7 := by omega
      rcases this with h | h | h | h | h | h | h <;> subst h <;> simp
    · rfl

theorem advance_clockSourced : clockSourced t (tm.advance n).1 = clockSourced t tm := by
  have h5 := advance_cr tm n 5 (by decide) (by decide)
  have h6 := advance_cr tm n 6 (by decide) (by decide)
  cases t <;> simp only [clockSourced, h5, h6]

/-- A timer that does not count the clock does not start counting it by being advanced. -/
theorem advance_counting (h : counting t tm = false) : counting t (tm.advance n).1 = false := by
  unfold counting at *
  rw [advance_clockSourced]
  cases hc : clockSourced t tm
  · simp
  · have hs : tm.started = false := by simpa [hc] using h
    have : (tm.advance n).1.started = false := by
      unfold Timer.started at *
      unfold Timer.advance
      split
      · exact hs
      · split
        · simp
        · exact hs
    simp [this]

theorem timer_advanceOne : (s.advanceOne k t n).1.timer j u =
    if j = k ∧ u = t then ((s.timer k t).advance n).1 else s.timer j u := by
  unfold State.advanceOne
  simp only
  split
  · rw [timer_setTimer]
  · rw [timer_setIcr, timer_setTimer]

@[simp] theorem queue_advanceOne : (s.advanceOne k t n).1.queue = s.queue := by
  unfold State.advanceOne
  simp only
  split <;> simp

@[simp] theorem advanceOne_underflows : (s.advanceOne k t n).2 = ((s.timer k t).advance n).2 := rfl

/-- Timer B counts A's underflows only when it does not count the clock (R321). -/
theorem bCountsA_not_counting {c : TimerChip} (h : c.bCountsA = true) : counting .b c.tb = false := by
  simp only [TimerChip.bCountsA, Bool.and_eq_true] at h
  simp [counting, clockSourced, h.2.1]

/-- What `AdvanceTimer` does to the timers: the advanced timer's own change, and in a cascade timer B's (R322). -/
theorem timer_advanceTimer : (s.advanceTimer k t n).timer j u =
    if j = k ∧ u = t then ((s.timer k t).advance n).1
    else if j = k ∧ t = .a ∧ u = .b ∧ ((s.timer k .a).advance n).2 ≠ 0 ∧ ((s.advanceOne k .a n).1.chip k).bCountsA = true
      then ((s.timer k .b).advance ((s.timer k .a).advance n).2).1
    else s.timer j u := by
  cases t with
  | b => simp [State.advanceTimer, timer_advanceOne]
  | a =>
    have he : s.advanceTimer k .a n = if ((s.timer k .a).advance n).2 ≠ 0 ∧ ((s.advanceOne k .a n).1.chip k).bCountsA = true
        then ((s.advanceOne k .a n).1.advanceOne k .b ((s.timer k .a).advance n).2).1 else (s.advanceOne k .a n).1 := rfl
    rw [he]
    by_cases h : ((s.timer k .a).advance n).2 ≠ 0 ∧ ((s.advanceOne k .a n).1.chip k).bCountsA = true
    · rw [if_pos h, timer_advanceOne]
      cases u <;> by_cases hj : j = k <;> simp_all [timer_advanceOne]
    · rw [if_neg h, timer_advanceOne]
      cases u <;> by_cases hj : j = k <;> simp_all

@[simp] theorem queue_advanceTimer : (s.advanceTimer k t n).queue = s.queue := by
  cases t with
  | b => simp [State.advanceTimer]
  | a =>
    simp only [State.advanceTimer]
    split <;> simp

/-- A timer other than the advanced one keeps counting or not counting the clock, and while it counts it is untouched: only timer B
in cascade is advanced, and that one does not count the clock. -/
theorem advanceTimer_other (h : ¬(j = k ∧ u = t)) :
    counting u ((s.advanceTimer k t n).timer j u) = counting u (s.timer j u) ∧
    (counting u (s.timer j u) = true → (s.advanceTimer k t n).timer j u = s.timer j u) := by
  rw [timer_advanceTimer]
  simp only [h, if_false]
  split
  · rename_i hc
    obtain ⟨rfl, rfl, rfl, -, hb⟩ := hc
    have h1 := bCountsA_not_counting hb
    have h2 : ((s.advanceOne j .a n).1.chip j).tb = s.timer j .b := by
      have := timer_advanceOne s j j .a .b n
      simpa [State.timer, TimerChip.timer] using this
    rw [h2] at h1
    exact ⟨by rw [advance_counting _ _ _ h1, h1], by simp [h1]⟩
  · exact ⟨rfl, fun _ => rfl⟩

@[simp] theorem queue_updateTimer : (s.updateTimer k t).queue = s.queue := by
  unfold State.updateTimer
  simp only
  split <;> simp

@[simp] theorem cycles_updateTimer : (s.updateTimer k t).cycles = s.cycles := (only_updateTimer ..).cycles

theorem updateTimer_of_not_counting (h : counting t (s.timer k t) = false) : s.updateTimer k t = s := by
  simp [State.updateTimer, h]

/-- The updated timer of a timer that counts the clock (R320). -/
theorem updateTimer_own (h : counting t (s.timer k t) = true) : (s.updateTimer k t).timer k t =
    ({ s.timer k t with last := s.cycles }.advance (s.cycles - (s.timer k t).last)).1 := by
  simp [State.updateTimer, h, timer_advanceTimer]

/-- The lazy update leaves every other timer's counting as it is, and a counting one untouched. -/
theorem updateTimer_other (h : ¬(j = k ∧ u = t)) :
    counting u ((s.updateTimer k t).timer j u) = counting u (s.timer j u) ∧
    (counting u (s.timer j u) = true → (s.updateTimer k t).timer j u = s.timer j u) := by
  by_cases hc : counting t (s.timer k t) = true
  · have ho := advanceTimer_other (s.setTimer k t { s.timer k t with last := s.cycles }) k j t u
      (s.cycles - (s.timer k t).last) h
    have hs : (s.setTimer k t { s.timer k t with last := s.cycles }).timer j u = s.timer j u := by
      rw [timer_setTimer]; simp [h]
    rw [hs] at ho
    have he : s.updateTimer k t = (s.setTimer k t { s.timer k t with last := s.cycles }).advanceTimer k t
        (s.cycles - (s.timer k t).last) := by simp [State.updateTimer, hc]
    rw [he]
    exact ho
  · rw [updateTimer_of_not_counting _ _ _ (by simpa using hc)]
    exact ⟨rfl, fun _ => rfl⟩

theorem timer_startTimer : (s.startTimer k t).timer j u =
    if j = k ∧ u = t ∧ counting t (s.timer k t) = true then { s.timer k t with last := s.cycles } else s.timer j u := by
  unfold State.startTimer
  simp only
  split
  · rename_i h
    rw [timer_enqueue, timer_setTimer]
    simp [h]
  · rename_i h
    simp [h]

theorem queue_startTimer : (s.startTimer k t).queue =
    if counting t (s.timer k t) = true
    then queueInsert (s.cycles + (s.timer k t).counter.toNat + 1) ⟨k, t⟩ (queueRemove ⟨k, t⟩ s.queue)
    else queueRemove ⟨k, t⟩ s.queue := by
  unfold State.startTimer
  simp only
  split <;> simp

end

end Sys2Proof.Machine
end

