-- ==== Sys2Proof/Laws/Advance.lean ====
section
/-! SUPPORT. `AdvanceTimer` said once: what advancing does to a chip as plain data, and that the block takes the advanced chip in the
place of the old one, whose output can only rise. -/

namespace Sys2Proof.Machine

/-- The block with one chip replaced by one whose interrupt output is up wherever the old one's was: the output's rise requests the
chip's source (R330). -/
def State.putChip (s : State) (k : ChipId) (c : TimerChip) : State :=
  if c.line && !(s.chip k).line then (s.setChip k c).requestIrq k.source else s.setChip k c

/-- `AdvanceTimer` on one timer of a chip: its counter, its start bit and its flag bit, raised when it underflows (R322). -/
def TimerChip.advanceOne (c : TimerChip) (t : TimerId) (n : Nat) : TimerChip :=
  let r := (c.timer t).advance n
  { c.setTimer t r.1 with icrFlags := if r.2 = 0 then c.icrFlags else c.icrFlags ||| t.flag }

/-- `AdvanceTimer` on a chip, the cascade with it (R322, R332). -/
def TimerChip.advance (c : TimerChip) (t : TimerId) (n : Nat) : TimerChip :=
  match t with
  | .a =>
    if (c.ta.advance n).2 ≠ 0 ∧ c.bCountsA = true then (c.advanceOne .a n).advanceOne .b (c.ta.advance n).2
    else c.advanceOne .a n
  | .b => c.advanceOne .b n

section
variable (s : State) (k : ChipId) (t : TimerId) (c d : TimerChip) (n m : Nat)

/-! The output under raised flags. -/

theorem line_or {c : TimerChip} (f : BitVec 5) (h : c.line = true) :
    TimerChip.line { c with icrFlags := c.icrFlags ||| f } = true := by
  unfold TimerChip.line at *
  simp only [bne_iff_ne, ne_eq] at *
  intro h0
  apply h
  rw [BitVec.eq_of_getLsbD_eq_iff] at h0 ⊢
  intro i hi
  have hi' := h0 i hi
  revert hi'
  simp only [BitVec.getLsbD_and, BitVec.getLsbD_or]
  cases c.icrFlags.getLsbD i <;> cases c.icrMask.getLsbD i <;> simp

theorem line_advanceOne (h : c.line = true) : (c.advanceOne t n).line = true := by
  unfold TimerChip.advanceOne
  simp only
  split
  · cases t <;> exact h
  · cases t <;> exact line_or (c := c) _ h

theorem line_advance (h : c.line = true) : (c.advance t n).line = true := by
  cases t with
  | b => exact line_advanceOne _ _ _ h
  | a =>
    unfold TimerChip.advance
    by_cases hf : (c.ta.advance n).2 ≠ 0 ∧ c.bCountsA = true
    · simp only [if_pos hf]; exact line_advanceOne _ _ _ (line_advanceOne _ _ _ h)
    · simp only [if_neg hf]; exact line_advanceOne _ _ _ h

/-! Putting chips. -/

@[simp] theorem chip_putChip : (s.putChip k c).chip k = c := by
  unfold State.putChip; split <;> simp

theorem chip_putChip_ne {j : ChipId} (h : j ≠ k) : (s.putChip k c).chip j = s.chip j := by
  unfold State.putChip; split <;> simp [setChip_chip_ne s c h]

/-- Raised flags are a put of the chip with them. -/
theorem setIcr_raise (f : BitVec 5) : s.setIcr k ((s.chip k).icrFlags ||| f) (s.chip k).icrMask =
    s.putChip k { s.chip k with icrFlags := (s.chip k).icrFlags ||| f } := by
  have h := line_or (c := s.chip k) f
  unfold State.setIcr State.putChip
  simp only
  generalize { s.chip k with icrFlags := (s.chip k).icrFlags ||| f } = d at *
  cases hc : (s.chip k).line <;> cases hd : d.line <;> simp_all

/-- Of two puts with a rising output the later one stands. -/
theorem putChip_putChip (h1 : (s.chip k).line = true → c.line = true) (h2 : c.line = true → d.line = true) :
    (s.putChip k c).putChip k d = s.putChip k d := by
  unfold State.putChip at *
  cases k <;> cases ha : (s.chip _).line <;> cases hb : c.line <;> cases hd : d.line <;>
    simp_all [State.setChip, State.chip, State.requestIrq, State.recomputeIrq, State.flag, statusGet]

theorem putChip_of_line (h : c.line = (s.chip k).line) : s.putChip k c = s.setChip k c := by
  unfold State.putChip; rw [h]; simp

theorem setTimer_put (tm : Timer) : s.setTimer k t tm = s.putChip k ((s.chip k).setTimer t tm) :=
  (putChip_of_line _ _ _ (by cases t <;> rfl)).symm

theorem advanceOne_put : (s.advanceOne k t n).1 = s.putChip k ((s.chip k).advanceOne t n) := by
  have hr : s.timer k t = (s.chip k).timer t := rfl
  unfold State.advanceOne TimerChip.advanceOne
  simp only [hr]
  by_cases h0 : (((s.chip k).timer t).advance n).2 = 0
  · simp only [if_pos h0, setTimer_put]; cases t <;> rfl
  · simp only [if_neg h0]
    rw [setIcr_raise, setTimer_put, chip_putChip, putChip_putChip]
    · cases t <;> rfl
    · intro h; cases t <;> exact h
    · exact line_or _

/-- What `AdvanceTimer` does, once for all: the advanced chip is put in the place of the old one. -/
theorem advanceTimer_put : s.advanceTimer k t n = s.putChip k ((s.chip k).advance t n) := by
  cases t with
  | b => exact advanceOne_put ..
  | a =>
    have hb : ((s.chip k).advanceOne .a n).bCountsA = (s.chip k).bCountsA := rfl
    unfold State.advanceTimer TimerChip.advance
    simp only [advanceOne_underflows, advanceOne_put, chip_putChip, hb]
    by_cases hf : ((s.timer k .a).advance n).2 ≠ 0 ∧ (s.chip k).bCountsA = true
    · have hf' : ((s.chip k).ta.advance n).2 ≠ 0 ∧ (s.chip k).bCountsA = true := hf
      rw [if_pos hf, if_pos hf']
      exact putChip_putChip _ _ _ _ (line_advanceOne _ _ _) (line_advanceOne _ _ _)
    · have hf' : ¬(((s.chip k).ta.advance n).2 ≠ 0 ∧ (s.chip k).bCountsA = true) := hf
      rw [if_neg hf, if_neg hf']

end

end Sys2Proof.Machine
end

