-- ==== Sys2Proof/Laws/Alu.lean ====
section
/-! SUPPORT. The adder and the compares as integer arithmetic. -/

namespace Sys2Proof.Machine

/-- The adder as integer arithmetic (R170, R175). -/
theorem add8_spec (a m : Byte) (c : Bool) :
    (add8 a m c).result.toNat = (a.toNat + m.toNat + c.toNat) % 256 ∧
    ((add8 a m c).carry = true ↔ 255 < a.toNat + m.toNat + c.toNat) ∧
    ((add8 a m c).overflow = true ↔ a.toInt + m.toInt + c.toNat < -128 ∨ 127 < a.toInt + m.toInt + c.toNat) := by
  have := a.isLt; have := m.isLt
  have hc : c.toNat ≤ 1 := by cases c <;> simp
  simp only [add8, BitVec.toNat_ofNat, bne_iff_ne, ne_eq, BitVec.toInt]
  refine ⟨trivial, ?_, ?_⟩
  · omega
  · split <;> split <;> omega

/-- The complement's unsigned and signed value (R172). -/
theorem complement_spec (m : Byte) : (complement m).toNat = 255 - m.toNat ∧ (complement m).toInt = -1 - m.toInt := by
  revert m; decide

/-- What the compares' sum says of its operands (R200). -/
theorem compare_spec (r m : Byte) : ((add8 r (complement m) true).carry = true ↔ m.toNat ≤ r.toNat) ∧
    (((add8 r (complement m) true).result == 0) = true ↔ r = m) ∧
    (add8 r (complement m) true).result.getLsbD 7 = decide (128 ≤ (r.toNat + 256 - m.toNat) % 256) := by
  obtain ⟨h1, h2, -⟩ := add8_spec r (complement m) true
  obtain ⟨k1, -⟩ := complement_spec m
  have := m.isLt; have := r.isLt
  rw [k1] at h1 h2
  refine ⟨by rw [h2]; simp; omega, ?_, ?_⟩
  · rw [beq_iff_eq, ← BitVec.toNat_inj, h1, ← BitVec.toNat_inj]; simp; omega
  · rw [BitVec.getLsbD, Nat.testBit_eq_decide_div_mod_eq, h1, decide_eq_decide]; simp; omega

/-- The shifts and rotates as integer arithmetic (R191 to R194). -/
theorem shift_spec (v : Byte) (c : Bool) :
    (shiftLeft v c).result.toNat = 2 * v.toNat % 256 ∧ (shiftRight v c).result.toNat = v.toNat / 2 ∧
    (rotateLeft v c).result.toNat = (2 * v.toNat + c.toNat) % 256 ∧
    (rotateRight v c).result.toNat = v.toNat / 2 + 128 * c.toNat := by
  revert v c; decide

end Sys2Proof.Machine
end

