-- ==== Sys2Proof/Laws/Bits.lean ====
section
/-! SUPPORT. Byte order and extension as arithmetic. -/

namespace Sys2Proof.Machine

theorem word_toNat (lo hi : Byte) : (word lo hi).toNat = hi.toNat * 256 + lo.toNat := by
  unfold word
  rw [BitVec.toNat_append, ← Nat.shiftLeft_add_eq_or_of_lt lo.isLt, Nat.shiftLeft_eq]

theorem loByte_toNat (a : Addr) : (loByte a).toNat = a.toNat % 256 := by
  simp [loByte]

theorem hiByte_toNat (a : Addr) : (hiByte a).toNat = a.toNat / 256 := by
  have := a.isLt
  simp [hiByte, Nat.shiftRight_eq_div_pow]
  omega

@[simp] theorem loByte_word (lo hi : Byte) : loByte (word lo hi) = lo := by
  apply BitVec.eq_of_toNat_eq
  have := lo.isLt
  rw [loByte_toNat, word_toNat]; omega

@[simp] theorem hiByte_word (lo hi : Byte) : hiByte (word lo hi) = hi := by
  apply BitVec.eq_of_toNat_eq
  have := lo.isLt
  rw [hiByte_toNat, word_toNat]; omega

@[simp] theorem word_loByte_hiByte (a : Addr) : word (loByte a) (hiByte a) = a := by
  apply BitVec.eq_of_toNat_eq
  rw [word_toNat, loByte_toNat, hiByte_toNat]; omega

theorem zeroPage_toNat (b : Byte) : (zeroPage b).toNat = b.toNat := by
  have := b.isLt
  simp [zeroPage]
  omega

end Sys2Proof.Machine
end

