-- ==== Sys2Proof/Laws/Memory.lean ====
section
/-! SUPPORT. The laws of a byte store: read after write, and that a write keeps the canonical form. -/

namespace Sys2Proof.Machine.Memory

/-- A listed address is above the head's. -/
theorem read_below {m : Memory} {a : Nat} (h : ∀ c ∈ m, a < c.1) : Memory.read m a = Config.unlistedByte := by
  induction m with
  | nil => rfl
  | cons c m ih =>
    have hc : c.1 ≠ a := by have := h c (by simp); omega
    simp [Memory.read, hc, ih (fun d hd => h d (by simp [hd]))]

theorem wf_tail {n : Nat} {c : Host.Cell} {m : Memory} (h : Memory.wf n (c :: m)) : Memory.wf n m :=
  ⟨(List.pairwise_cons.1 h.1).2, fun d hd => h.2 d (by simp [hd])⟩

theorem wf_head_lt {n : Nat} {c : Host.Cell} {m : Memory} (h : Memory.wf n (c :: m)) : ∀ d ∈ m, c.1 < d.1 :=
  (List.pairwise_cons.1 h.1).1

theorem wf_nil (n : Nat) : Memory.wf n [] := ⟨List.Pairwise.nil, by simp⟩

/-- The listed addresses after a write are the old ones and perhaps the written one. -/
theorem mem_write {m : Memory} {a : Nat} {v : Byte} {c : Host.Cell} (h : c ∈ Memory.write m a v) :
    c ∈ m ∨ c = (a, v) ∧ v ≠ Config.unlistedByte := by
  induction m with
  | nil =>
    unfold Memory.write at h
    split at h <;> simp_all
  | cons d m ih =>
    unfold Memory.write at h
    split at h
    · rcases List.mem_cons.1 h with rfl | h
      · simp
      · rcases ih h with h | h <;> simp [h]
    · split at h
      · split at h
        · simp [h]
        · rcases List.mem_cons.1 h with rfl | h <;> simp_all
      · split at h
        · exact .inl h
        · rcases List.mem_cons.1 h with rfl | h <;> simp_all

/-- A write inside the store's size keeps the canonical form. -/
theorem wf_write {n : Nat} {m : Memory} {a : Nat} (v : Byte) (ha : a < n) (h : Memory.wf n m) :
    Memory.wf n (Memory.write m a v) := by
  refine ⟨?_, fun c hc => ?_⟩
  · induction m with
    | nil => unfold Memory.write; split <;> simp
    | cons d m ih =>
      have hd := wf_head_lt h
      have ht := wf_tail h
      unfold Memory.write
      split
      · rename_i hlt
        refine List.pairwise_cons.2 ⟨fun c hc => ?_, ih ht⟩
        rcases mem_write hc with hc | ⟨rfl, -⟩
        · exact hd c hc
        · exact hlt
      · split
        · split
          · exact ht.1
          · exact List.pairwise_cons.2 ⟨fun c hc => by have := hd c hc; simp; omega, ht.1⟩
        · split
          · exact h.1
          · refine List.pairwise_cons.2 ⟨fun c hc => ?_, h.1⟩
            rcases List.mem_cons.1 hc with rfl | hc
            · simp; omega
            · have := hd c hc; simp; omega
  · rcases mem_write hc with hc | ⟨rfl, hv⟩
    · exact h.2 c hc
    · exact ⟨ha, hv⟩

/-- Writing one address leaves every other address reading as before. -/
theorem read_write_ne {m : Memory} {a b : Nat} (v : Byte) (h : b ≠ a) :
    Memory.read (Memory.write m a v) b = Memory.read m b := by
  induction m with
  | nil => unfold Memory.write; split <;> simp [Memory.read, Ne.symm h]
  | cons d m ih =>
    unfold Memory.write
    split
    · simp [Memory.read, ih]
    · split
      · rename_i hd
        split <;> simp [Memory.read, hd, Ne.symm h]
      · split <;> simp [Memory.read, Ne.symm h]

/-- A byte written in a canonical store is read back. -/
theorem read_write_same {n : Nat} {m : Memory} (a : Nat) (v : Byte) (h : Memory.wf n m) :
    Memory.read (Memory.write m a v) a = v := by
  induction m with
  | nil => unfold Memory.write; split <;> simp_all [Memory.read]
  | cons d m ih =>
    have hd := wf_head_lt h
    unfold Memory.write
    split
    · rename_i hlt
      simp [Memory.read, Nat.ne_of_lt hlt, ih (wf_tail h)]
    · split
      · rename_i hda
        split
        · rename_i hv
          rw [hv]; exact read_below (fun c hc => hda ▸ hd c hc)
        · simp [Memory.read]
      · rename_i h1 h2
        split
        · rename_i hv
          rw [hv]
          refine read_below (fun c hc => ?_)
          rcases List.mem_cons.1 hc with rfl | hc
          · omega
          · have := hd c hc; omega
        · simp [Memory.read]

/-- Canonical stores that read alike everywhere are equal. -/
theorem ext_of_read {n : Nat} {m m' : Memory} (h : Memory.wf n m) (h' : Memory.wf n m')
    (hr : ∀ a, Memory.read m a = Memory.read m' a) : m = m' := by
  induction m generalizing m' with
  | nil =>
    cases m' with
    | nil => rfl
    | cons d m' => exact absurd (by have := hr d.1; simpa [Memory.read] using this.symm) (h'.2 d (by simp)).2
  | cons c m ih =>
    cases m' with
    | nil => exact absurd (by have := hr c.1; simpa [Memory.read] using this) (h.2 c (by simp)).2
    | cons d m' =>
      have hc := wf_head_lt h
      have hd := wf_head_lt h'
      have hcd : c.1 = d.1 := by
        rcases Nat.lt_trichotomy c.1 d.1 with hlt | heq | hgt
        · have hb : Memory.read (d :: m') c.1 = Config.unlistedByte := read_below (fun e he => by
            rcases List.mem_cons.1 he with rfl | he
            · exact hlt
            · exact Nat.lt_trans hlt (hd e he))
          have := hr c.1
          rw [hb] at this
          exact absurd (by simpa [Memory.read] using this) (h.2 c (by simp)).2
        · exact heq
        · have hb : Memory.read (c :: m) d.1 = Config.unlistedByte := read_below (fun e he => by
            rcases List.mem_cons.1 he with rfl | he
            · exact hgt
            · exact Nat.lt_trans hgt (hc e he))
          have := hr d.1
          rw [hb] at this
          exact absurd (by simpa [Memory.read] using this.symm) (h'.2 d (by simp)).2
      have hv : c.2 = d.2 := by
        have := hr c.1
        simpa [Memory.read, hcd] using this
      have hm : m = m' := ih (wf_tail h) (wf_tail h') (fun a => by
        by_cases ha : c.1 = a
        · rw [read_below (fun e he => ha ▸ hc e he), read_below (fun e he => (hcd.symm.trans ha) ▸ hd e he)]
        · have := hr a
          simpa [Memory.read, ha, hcd ▸ ha] using this)
      rw [hm, Prod.ext hcd hv]

end Sys2Proof.Machine.Memory
end

