-- ==== Sys2Proof/Laws/Bus.lean ====
section
/-! SUPPORT. What reads and writes of the address space do: which storage an address reaches, and the frame of each access. -/

namespace Sys2Proof.Machine

/-- What an address reaches depends on the bank latches alone (R65, R79). -/
theorem source_congr {s t : State} (hd : t.bankDdr = s.bankDdr) (hp : t.bankPort = s.bankPort) (a : Addr) :
    t.source a = s.source a := by
  have he : t.effPort = s.effPort := by simp [State.effPort, hd, hp]
  unfold State.source State.loram State.hiram State.charen
  rw [he]

/-- A byte that is not selected I-O depends on the storage alone. -/
theorem byteAt_congr {s t : State} (hd : t.bankDdr = s.bankDdr) (hp : t.bankPort = s.bankPort)
    (hk : t.romKernel = s.romKernel) (hb : t.romBasic = s.romBasic) (hc : t.romChar = s.romChar) {a : Addr}
    (hr : t.ram.read a.toNat = s.ram.read a.toNat) (hio : s.source a ≠ .io) : t.byteAt a = s.byteAt a := by
  have hs := source_congr hd hp a
  unfold State.byteAt State.read
  rw [hs]
  cases hsrc : s.source a <;> simp_all [State.effPort]

theorem source_congr_only {s t : State} (h : OnlyDevices s t) (a : Addr) : t.source a = s.source a :=
  source_congr h.bankDdr h.bankPort a

/-- An address below 0xA000 and above 1 is RAM under every bank setting (R77). -/
theorem source_low {s : State} {a : Addr} (h1 : 1 < a.toNat) (h2 : a.toNat < 0xA000) : s.source a = .ram := by
  unfold State.source
  repeat (split; omega)
  rfl

/-- 0xC000 to 0xCFFF is RAM under every bank setting (R77). -/
theorem source_c000 {s : State} {a : Addr} (h1 : 0xC000 ≤ a.toNat) (h2 : a.toNat < 0xD000) : s.source a = .ram := by
  unfold State.source
  repeat (split; omega)
  rfl

/-- Only 0xD000 to 0xDFFF can be selected I-O (R75). -/
theorem source_ne_io {s : State} {a : Addr} (h : a.toNat < 0xD000 ∨ 0xDFFF < a.toNat) : s.source a ≠ .io := by
  unfold State.source
  split
  · simp
  split
  · simp
  split
  · omega
  split
  · split <;> simp
  split
  · split <;> simp
  · simp

theorem stackAddr_toNat (sp : Byte) : (stackAddr sp).toNat = 256 + sp.toNat := by
  simp [stackAddr, word_toNat]

@[simp] theorem source_stack (s : State) (sp : Byte) : s.source (stackAddr sp) = .ram := by
  have := sp.isLt
  apply source_low <;> rw [stackAddr_toNat] <;> omega

theorem stackAddr_inj {p q : Byte} (h : stackAddr p = stackAddr q) : p = q := by
  have := congrArg BitVec.toNat h
  rw [stackAddr_toNat, stackAddr_toNat] at this
  exact BitVec.eq_of_toNat_eq (by omega)

theorem source_zeroPage (s : State) (z : Byte) : s.source (zeroPage z) ≠ .io := by
  apply source_ne_io
  rw [zeroPage_toNat]
  have := z.isLt
  omega

/-- A read that is not selected I-O has no effect (R66). -/
theorem afterRead_eq {s : State} {a : Addr} (h : s.source a ≠ .io) : s.afterRead a = s := by
  unfold State.afterRead State.read
  split <;> simp_all

@[simp] theorem afterRead_stack (s : State) (sp : Byte) : s.afterRead (stackAddr sp) = s := afterRead_eq (by simp)

@[simp] theorem afterRead_zeroPage (s : State) (z : Byte) : s.afterRead (zeroPage z) = s :=
  afterRead_eq (source_zeroPage s z)

theorem byteAt_stack (s : State) (sp : Byte) : s.byteAt (stackAddr sp) = s.ram.read (stackAddr sp).toNat := by
  simp [State.byteAt, State.read]

theorem read_eq (s : State) (a : Addr) : s.read a = (s.byteAt a, s.afterRead a) := rfl

/-! Writes. -/

/-- A write whose address is neither a latch nor selected I-O lands in RAM, under a ROM too (R67). -/
theorem write_ram {s : State} {a : Addr} (v : Byte) (h0 : a ≠ 0) (h1 : a ≠ 1) (hio : s.source a ≠ .io) :
    s.write a v = { s with ram := s.ram.write a.toNat v } := by
  have h0' : a.toNat ≠ 0 := fun h => h0 (BitVec.eq_of_toNat_eq h)
  have h1' : a.toNat ≠ 1 := fun h => h1 (BitVec.eq_of_toNat_eq h)
  have hd : s.source a ≠ .ddrLatch := by
    unfold State.source
    simp only [h0', h1', if_false]
    repeat (split <;> try simp)
  have hp : s.source a ≠ .portLatch := by
    unfold State.source
    simp only [h0', h1', if_false]
    repeat (split <;> try simp)
  unfold State.write
  cases hs : s.source a <;> simp_all

theorem write_io {s : State} {a : Addr} (v : Byte) (h : s.source a = .io) : s.write a v = s.ioWrite a v := by
  simp [State.write, h]

theorem write_ddr (s : State) (v : Byte) : s.write 0 v = { s with bankDdr := v } := by
  simp [State.write, State.source]

theorem write_port (s : State) (v : Byte) : s.write 1 v = { s with bankPort := v } := by
  simp [State.write, State.source]

/-- The four things a write can be (R67). -/
theorem write_cases (s : State) (a : Addr) (v : Byte) :
    (a = 0 ∧ s.write a v = { s with bankDdr := v }) ∨ (a = 1 ∧ s.write a v = { s with bankPort := v }) ∨
    (a ≠ 0 ∧ a ≠ 1 ∧ s.source a = .io ∧ s.write a v = s.ioWrite a v) ∨
    (a ≠ 0 ∧ a ≠ 1 ∧ s.source a ≠ .io ∧ s.write a v = { s with ram := s.ram.write a.toNat v }) := by
  by_cases h0 : a = 0
  · subst h0; exact .inl ⟨rfl, write_ddr s v⟩
  by_cases h1 : a = 1
  · subst h1; exact .inr (.inl ⟨rfl, write_port s v⟩)
  by_cases hio : s.source a = .io
  · exact .inr (.inr (.inl ⟨h0, h1, hio, write_io v hio⟩))
  · exact .inr (.inr (.inr ⟨h0, h1, hio, write_ram v h0 h1 hio⟩))

/-- Both latches are outside the I-O region. -/
theorem source_latch (s : State) : s.source 0 = .ddrLatch ∧ s.source 1 = .portLatch := by
  constructor <;> simp [State.source]

/-- A push stores in page one and decrements `S` (R140). -/
theorem push_eq (s : State) (v : Byte) :
    s.push v = { s with ram := s.ram.write (stackAddr s.sp).toNat v, sp := s.sp - 1 } := by
  simp [State.push, State.write]

/-- A pull increments `S` and reads page one (R141). -/
theorem pull_eq (s : State) :
    s.pull = (s.ram.read (stackAddr (s.sp + 1)).toNat, { s with sp := s.sp + 1 }) := by
  simp [State.pull, byteAt_stack]

end Sys2Proof.Machine
end

