-- ==== Sys2Proof/Laws/Encoding.lean ====
section
/-! SUPPORT. The opcode map against the printed one: what claims about encodings follow from. -/

namespace Sys2Proof

/-- Every assigned instruction has a printed row. -/
theorem printed_of_instr (i : Instr) (h : i.mnemonic ≠ .illegal) : (printedRows.any fun r =>
    r.mnemonic == i.mnemonic && r.format == i.form.format && r.opcode == i.opcode) = true := by
  cases i <;> first | rfl | exact absurd rfl h

/-- A list of encodings is a mnemonic's when the printed rows and the unassigned values say so. -/
theorem encodedAs_of {m : Mnemonic} {rows : List (Format × Byte)} (hm : m ≠ .illegal)
    (h : (printedRows.all fun r => (r.mnemonic == m) == rows.contains (r.format, r.opcode)) = true)
    (hu : (unassignedOpcodes.all fun op => !rows.contains (.imp, op)) = true) : EncodedAs m rows := by
  intro i hw
  by_cases hi : i.mnemonic = .illegal
  · have hf : i.form.format = .imp := by cases i <;> first | rfl | cases hi
    have hop : i.opcode ∈ unassignedOpcodes := by
      simpa [Instr.wf, hi] using hw
    have := List.all_eq_true.1 hu _ hop
    rw [hi, hf]
    refine ⟨fun he => absurd he.symm hm, fun he => ?_⟩
    simp [he] at this
  · obtain ⟨r, hr, he⟩ := List.any_eq_true.1 (printed_of_instr i hi)
    simp only [Bool.and_eq_true, beq_iff_eq] at he
    have := List.all_eq_true.1 h r hr
    rw [he.1.1, he.1.2, he.2] at this
    rw [beq_iff_eq] at this
    by_cases hmn : i.mnemonic = m
    · simp [hmn] at this
      simp [hmn, this]
    · have hmb : (i.mnemonic == m) = false := by simpa using hmn
      rw [hmb] at this
      simpa [hmn] using this

/-- The unassigned values are in no row of the opcode map. -/
theorem unassigned_not_mapped : (unassignedOpcodes.all fun op => opcodeMap.all fun row => row.opcode != op) = true := by
  decide +kernel

/-- The unassigned rows select ILLEGAL. -/
theorem rowOf_unassigned {op : Byte} (h : op ∈ unassignedOpcodes) : rowOf op = .none (.illegal op) := by
  have hn : opcodeMap.find? (fun row => row.opcode == op) = none := by
    rw [List.find?_eq_none]
    intro row hrow
    have := List.all_eq_true.1 (List.all_eq_true.1 unassigned_not_mapped op h) row hrow
    simpa using this
  simp [rowOf, hn]

end Sys2Proof
end

