-- ==== Sys2Proof/Laws/Flags.lean ====
section
/-! SUPPORT. What each status operation does to each flag. -/

namespace Sys2Proof.Machine

section
variable (s : State) (f g : Flag) (b : Bool) (v : Byte)

/-- Setting one flag sets that one. -/
@[simp] theorem flag_setFlag : (s.setFlag f b).flag g = if g = f then b else s.flag g := by
  cases f <;> cases g <;> cases b <;> simp [State.setFlag, State.flag, statusGet, statusSet, Flag.bit, Flag.mask]

/-- A flag depends on `P` alone. -/
theorem flag_congr {s t : State} (h : t.p = s.p) : t.flag g = s.flag g := by simp [State.flag, h]

@[simp] theorem flag_recomputeIrq : s.recomputeIrq.flag g = s.flag g := rfl

@[simp] theorem flag_setInterruptDisable : (s.setInterruptDisable b).flag g = if g = .i then b else s.flag g := by
  simp [State.setInterruptDisable]

/-- `SetNZ` sets N and Z and no other flag (R139). -/
theorem flag_setNZ : (s.setNZ v).flag g = if g = .n then v.getLsbD 7 else if g = .z then v == 0 else s.flag g := by
  simp only [State.setNZ, flag_setFlag, BitVec.msb_eq_getLsbD_last]

theorem negativeZero_setNZ : NegativeZero (s.setNZ v) v := by
  constructor <;> simp [flag_setNZ]

/-- Bit 5 is forced by `WriteP`, every other flag is the written byte's (R142). -/
theorem flag_writeP : (s.writeP v).flag g = if g = .u then true else statusGet v g := by
  cases g <;> simp [State.writeP, State.recomputeIrq, State.flag, statusGet, Flag.bit]

/-- After `RecomputeIrq()` the latch is current (R274). -/
theorem latch_recomputeIrq : s.recomputeIrq.LatchCurrent := rfl

end

end Sys2Proof.Machine
end

