-- ==== Sys2Proof/Laws/Frames.lean ====
section
/-! SUPPORT. The frames of the shared operations: what the claims' frame terms follow from. -/

namespace Sys2Proof.Machine

theorem SameDevices.refl (s : State) : SameDevices s s := ⟨⟨rfl, rfl, rfl, rfl, rfl, rfl⟩, rfl⟩

/-- Storage as before: every byte that is not selected I-O reads as before. -/
theorem memoryUntouched_of {s t : State} (hr : t.ram = s.ram) (hd : t.bankDdr = s.bankDdr) (hp : t.bankPort = s.bankPort)
    (hk : t.romKernel = s.romKernel) (hb : t.romBasic = s.romBasic) (hc : t.romChar = s.romChar) : MemoryUntouched s t :=
  ⟨hr, hd, hp, hk, hb, hc, fun b => ⟨source_congr hd hp b, fun hio => byteAt_congr hd hp hk hb hc (by rw [hr]) hio⟩⟩

theorem OnlyDevices.memory {s t : State} (h : OnlyDevices s t) : MemoryUntouched s t :=
  memoryUntouched_of h.ram h.bankDdr h.bankPort h.romKernel h.romBasic h.romChar

theorem only_readOperand (s : State) (o : Operand) : OnlyDevices s (s.readOperand o).state := by
  cases o with
  | imm => exact .refl s
  | mem m => exact only_afterRead ..

/-- A state that differs from the operand's own state in `A`, `X`, `Y` and `P` only, and the cost, is framed as a read. -/
theorem readFrame_of {s t : State} {o : Operand} (h : t = { (s.readOperand o).state with a := t.a, x := t.x, y := t.y, p := t.p }) :
    ReadFrame s (t.addCycles (readCycles o (s.readOperand o).crossed)) o := by
  have hm := only_readOperand s o
  rw [h]
  exact ⟨hm.pc, hm.sp, hm.running, memoryUntouched_of hm.ram hm.bankDdr hm.bankPort hm.romKernel hm.romBasic hm.romChar,
    .refl _, congrArg (· + _) hm.cycles⟩

/-- A write changes no register and no cycle count. -/
theorem registers_write (s : State) (a : Addr) (v : Byte) : RegistersKept s (s.write a v) ∧ (s.write a v).cycles = s.cycles := by
  rcases write_cases s a v with ⟨-, he⟩ | ⟨-, he⟩ | ⟨-, -, -, he⟩ | ⟨-, -, -, he⟩ <;> rw [he]
  · exact ⟨⟨rfl, rfl, rfl, rfl, rfl, rfl, rfl⟩, rfl⟩
  · exact ⟨⟨rfl, rfl, rfl, rfl, rfl, rfl, rfl⟩, rfl⟩
  · have h := only_ioWrite s a v
    exact ⟨⟨h.a, h.x, h.y, h.sp, h.p, h.pc, h.running⟩, h.cycles⟩
  · exact ⟨⟨rfl, rfl, rfl, rfl, rfl, rfl, rfl⟩, rfl⟩

/-- A store in canonical memory (R67, R70). -/
theorem storedAt_write {s : State} (h : s.MemoryCanonical) (a : Addr) (v : Byte) : StoredAt s (s.write a v) a v := by
  rcases write_cases s a v with ⟨ha, he⟩ | ⟨ha, he⟩ | ⟨h0, h1, hio, he⟩ | ⟨h0, h1, hio, he⟩
  · subst ha
    have hs := (source_latch s).1
    rw [he]
    refine ⟨fun _ _ => rfl, rfl, rfl, rfl, by simp, by simp, fun hh => absurd rfl hh, by simp, ?_⟩
    simp only [hs, reduceCtorEq, if_false]
    exact .refl s
  · subst ha
    have hs := (source_latch s).2
    rw [he]
    refine ⟨fun _ _ => rfl, rfl, rfl, rfl, by simp, by simp, fun _ hh => absurd rfl hh, by simp, ?_⟩
    simp only [hs, reduceCtorEq, if_false]
    exact .refl s
  · have ho : OnlyDevices s (s.ioWrite a v) := only_ioWrite ..
    rw [he]
    refine ⟨fun _ _ => by rw [ho.ram], ho.romKernel, ho.romBasic, ho.romChar, by rw [if_neg h0, ho.bankDdr],
      by rw [if_neg h1, ho.bankPort], fun _ _ b => ⟨source_congr_only ho b, fun _ hb => (ho.memory.2.2.2.2.2.2 b).2 hb⟩,
      by simp [hio, ho.ram], ?_⟩
    simp only [hio, if_true]
    exact .refl _
  · rw [he]
    refine ⟨fun b hb => ?_, rfl, rfl, rfl, (if_neg h0).symm, (if_neg h1).symm,
      fun _ _ b => ⟨source_congr rfl rfl b, fun hb hio' => ?_⟩, ?_, ?_⟩
    · exact Memory.read_write_ne _ (fun hh => hb (BitVec.eq_of_toNat_eq hh))
    · have hr : (s.ram.write a.toNat v).read b.toNat = s.ram.read b.toNat :=
        Memory.read_write_ne _ (fun hh => hb (BitVec.eq_of_toNat_eq hh))
      apply byteAt_congr <;> first | rfl | exact hr | exact hio'
    · simp only [h0, h1, hio, or_self, if_false]
      exact Memory.read_write_same _ _ h.1
    · simp only [hio, if_false]
      exact .refl s

/-- `StoredAt` depends on the storage, the latches and the devices of the state after. -/
theorem StoredAt.congr {s t u : State} {a : Addr} {v : Byte} (h : StoredAt s t a v) (hr : u.ram = t.ram)
    (hd : u.bankDdr = t.bankDdr) (hp : u.bankPort = t.bankPort) (hk : u.romKernel = t.romKernel)
    (hb : u.romBasic = t.romBasic) (hc : u.romChar = t.romChar) (hdev : SameDevices t u) : StoredAt s u a v := by
  have hm : MemoryUntouched t u := memoryUntouched_of hr hd hp hk hb hc
  obtain ⟨k1, k2, k3, k4, k5, k6, k7, k8, k9⟩ := h
  refine ⟨fun b hne => by rw [hr]; exact k1 b hne, hk.trans k2, hb.trans k3, hc.trans k4, hd.trans k5, hp.trans k6,
    fun h0 h1 b => ?_, by rw [hr]; exact k8, ?_⟩
  · obtain ⟨hs, hbyte⟩ := k7 h0 h1 b
    refine ⟨(hm.2.2.2.2.2.2 b).1.trans hs, fun hne hio => ?_⟩
    exact ((hm.2.2.2.2.2.2 b).2 (by rw [hs]; exact hio)).trans (hbyte hne hio)
  · obtain ⟨⟨d1, d2, d3, d4, d5, d6⟩, d7⟩ := hdev
    obtain ⟨⟨e1, e2, e3, e4, e5, e6⟩, e7⟩ := k9
    exact ⟨⟨d1.trans e1, d2.trans e2, d3.trans e3, d4.trans e4, d5.trans e5, d6.trans e6⟩, d7.trans e7⟩

theorem canonical_afterRead {s : State} (h : s.MemoryCanonical) (a : Addr) : (s.afterRead a).MemoryCanonical := by
  have ho : OnlyDevices s (s.afterRead a) := only_afterRead ..
  unfold State.MemoryCanonical
  rw [ho.ram, ho.romKernel, ho.romBasic, ho.romChar]
  exact h

/-- A read and then a write of one address leave `P`. -/
theorem p_readWrite (s : State) (a : Addr) (r : Byte) : ((s.afterRead a).write a r).p = s.p :=
  (registers_write _ _ _).1.2.2.2.2.1.trans (only_afterRead ..).p

/-- The frame of a read-modify-write instruction on memory, whatever the flags take. -/
theorem modified_mem {s u : State} (hc : s.MemoryCanonical) (m : ModMode) (r p : Byte)
    (hu : u = { ((s.afterRead (s.effAddr m.ea).addr).write (s.effAddr m.ea).addr r).addCycles (modifyCycles (.mem m)) with
      p := p }) : Modified s u (.mem m) r := by
  subst hu
  have hr := registers_write (s.afterRead (s.effAddr m.ea).addr) (s.effAddr m.ea).addr r
  have ho := only_afterRead s (s.effAddr m.ea).addr
  exact ⟨hr.1.2.1.trans ho.x, hr.1.2.2.1.trans ho.y, hr.1.2.2.2.1.trans ho.sp, hr.1.2.2.2.2.2.1.trans ho.pc,
    hr.1.2.2.2.2.2.2.trans ho.running, congrArg (· + _) (hr.2.trans ho.cycles), hr.1.1.trans ho.a,
    (storedAt_write (canonical_afterRead hc _) _ _).congr rfl rfl rfl rfl rfl rfl (.refl _)⟩

/-- The frame of a read-modify-write instruction on the accumulator, whatever the flags take. -/
theorem modified_acc {s u : State} (r p : Byte) (hu : u = { s.addCycles (modifyCycles .acc) with p := p, a := r }) :
    Modified s u .acc r := by
  subst hu
  exact ⟨rfl, rfl, rfl, rfl, rfl, rfl, rfl, memoryUntouched_of rfl rfl rfl rfl rfl rfl, .refl _⟩

/-- The stack addresses of up to 256 pushes are all different (R23, R140). -/
theorem stackAddr_sub_ne {sp : Byte} {j k : Nat} (hj : j < 256) (hk : k < 256) (h : j ≠ k) :
    stackAddr (sp - BitVec.ofNat 8 j) ≠ stackAddr (sp - BitVec.ofNat 8 k) := by
  intro he
  have := stackAddr_inj he
  apply h
  have h2 : (sp - BitVec.ofNat 8 j).toNat = (sp - BitVec.ofNat 8 k).toNat := congrArg BitVec.toNat this
  simp only [BitVec.toNat_sub, BitVec.toNat_ofNat] at h2
  have := sp.isLt
  omega

/-- Nothing pushed. -/
theorem pushed_nil (s : State) : Pushed s s [] := by
  refine ⟨by simp, by simp, fun b _ => ⟨rfl, fun _ => rfl⟩, fun _ => rfl, rfl, rfl, rfl, rfl, rfl⟩

/-- One more byte pushed, in canonical memory. -/
theorem Pushed.push {s t : State} {bytes : List Byte} (h : Pushed s t bytes) (hc : t.MemoryCanonical)
    (hlen : bytes.length < 255) (v : Byte) : Pushed s (t.push v) (bytes ++ [v]) := by
  obtain ⟨h1, h2, h3, h4, h5, h6, h7, h8, h9⟩ := h
  rw [push_eq]
  have hsp : t.sp = s.sp - BitVec.ofNat 8 bytes.length := h1
  have hsrc : ∀ b, State.source { t with ram := t.ram.write (stackAddr t.sp).toNat v, sp := t.sp - 1 } b = t.source b :=
    fun b => source_congr rfl rfl b
  refine ⟨?_, fun k w hw => ?_, fun b hb => ⟨?_, fun hio => ?_⟩, fun b => (hsrc b).trans (h4 b), h5, h6, h7, h8, h9⟩
  · simp only [hsp, List.length_append, List.length_singleton]
    apply BitVec.eq_of_toNat_eq
    simp only [BitVec.toNat_sub, BitVec.toNat_ofNat, BitVec.ofNat_eq_ofNat]
    have := s.sp.isLt
    omega
  · rcases Nat.lt_trichotomy k bytes.length with hk | hk | hk
    · rw [List.getElem?_append_left hk] at hw
      rw [hsp, Memory.read_write_ne]
      · exact h2 k w hw
      · intro he
        exact stackAddr_sub_ne (by omega) (by omega) (Nat.ne_of_lt hk) (BitVec.eq_of_toNat_eq he)
    · subst hk
      have : v = w := by simpa using hw
      rw [hsp, ← this]
      exact Memory.read_write_same _ _ hc.1
    · rw [List.getElem?_eq_none (by simp; omega)] at hw
      cases hw
  · have hne : b ≠ stackAddr t.sp := hsp ▸ hb bytes.length (by simp)
    rw [Memory.read_write_ne _ (fun he => hne (BitVec.eq_of_toNat_eq he))]
    exact (h3 b (fun k hk => hb k (by simp; omega))).1
  · have hne : b ≠ stackAddr t.sp := hsp ▸ hb bytes.length (by simp)
    have hb3 := (h3 b (fun k hk => hb k (by simp; omega))).2 hio
    rw [← hb3]
    have hr : (t.ram.write (stackAddr t.sp).toNat v).read b.toNat = t.ram.read b.toNat :=
      Memory.read_write_ne _ (fun he => hne (BitVec.eq_of_toNat_eq he))
    apply byteAt_congr <;> first | rfl | exact hr | (rw [h4]; exact hio)

theorem canonical_push {s : State} (h : s.MemoryCanonical) (v : Byte) : (s.push v).MemoryCanonical := by
  rw [push_eq]
  exact ⟨Memory.wf_write v (stackAddr s.sp).isLt h.1, h.2⟩

/-- `Pushed` depends on the storage, the latches and the stack pointer. -/
theorem Pushed.congr {s t u : State} {bytes : List Byte} (h : Pushed s t bytes) (hsp : u.sp = t.sp) (hr : u.ram = t.ram)
    (hd : u.bankDdr = t.bankDdr) (hp : u.bankPort = t.bankPort) (hk : u.romKernel = t.romKernel)
    (hb : u.romBasic = t.romBasic) (hc : u.romChar = t.romChar) : Pushed s u bytes := by
  have hm : MemoryUntouched t u := memoryUntouched_of hr hd hp hk hb hc
  obtain ⟨h1, h2, h3, h4, h5, h6, h7, h8, h9⟩ := h
  refine ⟨hsp.trans h1, by rw [hr]; exact h2, fun b hne => ⟨by rw [hr]; exact (h3 b hne).1, fun hio => ?_⟩,
    fun b => (hm.2.2.2.2.2.2 b).1.trans (h4 b), hd.trans h5, hp.trans h6, hk.trans h7, hb.trans h8, hc.trans h9⟩
  exact ((hm.2.2.2.2.2.2 b).2 (by rw [h4]; exact hio)).trans ((h3 b hne).2 hio)

end Sys2Proof.Machine
end

