-- ==== Sys2Proof/Laws/Exception.lean ====
section
/-! SUPPORT. Taking an exception and returning from one: everything each does, said once (R260, R261, R276). -/

namespace Sys2Proof.Machine

/-- Canonical memory after a word is pushed. -/
theorem canonical_pushWord {s : State} (h : s.MemoryCanonical) (w : Addr) : (s.pushWord w).MemoryCanonical :=
  canonical_push (canonical_push h _) _

/-- A pushed word lies on the stack high byte first (R80). -/
theorem pushed_pushWord {s : State} (h : s.MemoryCanonical) (w : Addr) : Pushed s (s.pushWord w) [hiByte w, loByte w] :=
  ((pushed_nil s).push h (by simp) _).push (canonical_push h _) (by simp) _

/-- The state of a push, field by field but for RAM and the stack pointer. -/
theorem push_rest (s : State) (v : Byte) : s.push v = { s with ram := (s.push v).ram, sp := (s.push v).sp } := by
  rw [push_eq]

theorem pushWord_rest (s : State) (w : Addr) : s.pushWord w = { s with ram := (s.pushWord w).ram, sp := (s.pushWord w).sp } := by
  unfold State.pushWord
  rw [push_rest (s.push _), push_rest s]

/-- The three bytes an exception pushes. -/
theorem pushed_exception {s : State} (h : s.MemoryCanonical) (ret : Addr) (status : Byte) :
    Pushed s ((s.pushWord ret).push status) [hiByte ret, loByte ret, status] :=
  (pushed_pushWord h ret).push (canonical_pushWord h ret) (by simp) status

/-- The vector is above the stack and not in the I-O region, so the pushes do not change it. -/
theorem vector_pushed {s t : State} {bytes : List Byte} (h : Pushed s t bytes) {a : Addr} (ha : 0xE000 ≤ a.toNat) :
    t.byteAt a = s.byteAt a := by
  refine (h.2.2.1 a (fun k _ he => ?_)).2 (source_ne_io (by omega))
  have h1 := congrArg BitVec.toNat he
  rw [stackAddr_toNat] at h1
  have := (s.sp - BitVec.ofNat 8 k).isLt
  omega

/-- Taking an exception changes RAM, `S`, `P`, the latch and `PC`, and nothing else. -/
theorem takeException_rest (s : State) (ret : Addr) (status : Byte) : s.takeException ret status =
    { s with ram := ((s.pushWord ret).push status).ram, sp := ((s.pushWord ret).push status).sp
             p := statusSet s.p .i true, irqPending := false
             pc := ((s.pushWord ret).push status).vector Config.irqVector } := by
  have h : (s.pushWord ret).push status =
      { s with ram := ((s.pushWord ret).push status).ram, sp := ((s.pushWord ret).push status).sp } := by
    rw [push_rest, pushWord_rest]
  have hv : (((s.pushWord ret).push status).setInterruptDisable true).vector Config.irqVector =
      ((s.pushWord ret).push status).vector Config.irqVector := by
    have hm : MemoryUntouched ((s.pushWord ret).push status) (((s.pushWord ret).push status).setInterruptDisable true) :=
      memoryUntouched_of rfl rfl rfl rfl rfl rfl
    unfold State.vector
    rw [(hm.2.2.2.2.2.2 _).2 (source_ne_io (by simp [Config.irqVector])),
      (hm.2.2.2.2.2.2 _).2 (source_ne_io (by simp [Config.irqVector]))]
  unfold State.takeException
  simp only
  rw [hv, h]
  simp [State.setInterruptDisable, State.setFlag, State.recomputeIrq, State.flag, statusGet, statusSet, Flag.bit, Flag.mask]

/-- Where an exception goes: the word at the vector as it was before the pushes (R72, R276). -/
theorem takeException_pc {s : State} (h : s.MemoryCanonical) (ret : Addr) (status : Byte) :
    (s.takeException ret status).pc = word (s.byteAt 0xFFFE#16) (s.byteAt 0xFFFF#16) := by
  have hp := pushed_exception h ret status
  rw [takeException_rest]
  unfold State.vector
  rw [vector_pushed hp (by simp [Config.irqVector]), vector_pushed hp (by simp [Config.irqVector])]
  rfl

theorem takeException_pushed {s : State} (h : s.MemoryCanonical) (ret : Addr) (status : Byte) :
    Pushed s (s.takeException ret status) [hiByte ret, loByte ret, status] := by
  rw [takeException_rest]
  exact (pushed_exception h ret status).congr rfl rfl
    (by rw [push_rest, pushWord_rest]) (by rw [push_rest, pushWord_rest]) (by rw [push_rest, pushWord_rest])
    (by rw [push_rest, pushWord_rest]) (by rw [push_rest, pushWord_rest])

/-- The `n`-th pulled byte. -/
theorem pull_stackByte (s : State) : s.pull = (s.stackByte 1, { s with sp := s.sp + 1 }) := by
  rw [pull_eq, State.stackByte, byteAt_stack]
  rfl

/-- A pulled word (R215, R261). -/
theorem pullWord_stackBytes (s : State) :
    s.pullWord = (word (s.stackByte 1) (s.stackByte 2), { s with sp := s.sp + 2 }) := by
  have h2 : State.stackByte { s with sp := s.sp + 1 } 1 = s.stackByte 2 := by
    simp [State.stackByte, byteAt_stack, BitVec.add_assoc]
  have h3 : s.sp + 1 + 1 = s.sp + 2 := by rw [BitVec.add_assoc]; rfl
  unfold State.pullWord
  simp only [pull_stackByte, h2, h3]

/-- Returning from an exception, whole (R261). -/
theorem returnFromException_eq (s : State) : s.returnFromException =
    { s with p := s.stackByte 1 ||| 0x20#8, sp := s.sp + 3, pc := word (s.stackByte 2) (s.stackByte 3)
             irqPending := s.irqSources != 0 && !(s.stackByte 1).getLsbD 2 } := by
  have h1 : State.stackByte (State.writeP { s with sp := s.sp + 1 } (s.stackByte 1)) 1 = s.stackByte 2 := by
    simp [State.stackByte, byteAt_stack, BitVec.add_assoc]
  have h2 : State.stackByte (State.writeP { s with sp := s.sp + 1 } (s.stackByte 1)) 2 = s.stackByte 3 := by
    simp [State.stackByte, byteAt_stack, BitVec.add_assoc]
  have h3 : s.sp + 1 + 2 = s.sp + 3 := by rw [BitVec.add_assoc]; rfl
  unfold State.returnFromException
  simp only [pull_stackByte, pullWord_stackBytes, h1, h2]
  simp only [State.writeP, State.recomputeIrq, State.flag, statusGet, Flag.bit, h3]
  simp

end Sys2Proof.Machine
end

