-- ==== Sys2Proof/Laws/Exec.lean ====
section
/-! SUPPORT. What any instruction can do, said once: it completes at a cost of 2 to 7 cycles in a state reached by register
writes, flag writes, reads and writes of the address space; only an unassigned opcode halts. -/

namespace Sys2Proof.Machine

/-- A property that everything an instruction does keeps, the advance of `cycles` and the halt apart. -/
structure KeptByInstr (P : State → Prop) : Prop where
  regs : ∀ (s : State) (a x y sp : Byte) (pc : Addr), P s → P { s with a := a, x := x, y := y, sp := sp, pc := pc }
  flag : ∀ (s : State) (f : Flag) (b : Bool), f ≠ .u → f ≠ .i → P s → P (s.setFlag f b)
  mask : ∀ (s : State) (b : Bool), P s → P (s.setInterruptDisable b)
  status : ∀ (s : State) (v : Byte), P s → P (s.writeP v)
  read : ∀ (s : State) (a : Addr), P s → P (s.afterRead a)
  write : ∀ (s : State) (a : Addr) (v : Byte), P s → P (s.write a v)

namespace KeptByInstr

variable {P : State → Prop} (h : KeptByInstr P) (s : State)
include h

theorem setA (v : Byte) (hs : P s) : P { s with a := v } := h.regs s v s.x s.y s.sp s.pc hs
theorem setX (v : Byte) (hs : P s) : P { s with x := v } := h.regs s s.a v s.y s.sp s.pc hs
theorem setY (v : Byte) (hs : P s) : P { s with y := v } := h.regs s s.a s.x v s.sp s.pc hs
theorem setSp (v : Byte) (hs : P s) : P { s with sp := v } := h.regs s s.a s.x s.y v s.pc hs
theorem setPc (v : Addr) (hs : P s) : P { s with pc := v } := h.regs s s.a s.x s.y s.sp v hs

theorem setNZ (v : Byte) (hs : P s) : P (s.setNZ v) :=
  h.flag _ _ _ (by simp) (by simp) (h.flag _ _ _ (by simp) (by simp) hs)

theorem compare (r m : Byte) (hs : P s) : P (s.compare r m) :=
  h.setNZ _ _ (h.flag _ _ _ (by simp) (by simp) hs)

theorem addToA (m : Byte) (hs : P s) : P (s.addToA m) :=
  h.setNZ _ _ (h.flag _ _ _ (by simp) (by simp) (h.flag _ _ _ (by simp) (by simp) (h.setA _ _ hs)))

theorem push (v : Byte) (hs : P s) : P (s.push v) := h.setSp _ _ (h.write _ _ _ hs)

theorem pull (hs : P s) : P s.pull.2 := h.setSp _ _ hs

theorem pushWord (w : Addr) (hs : P s) : P (s.pushWord w) := h.push _ _ (h.push _ _ hs)

theorem pullWord (hs : P s) : P s.pullWord.2 := h.pull _ (h.pull _ hs)

theorem takeException (r : Addr) (v : Byte) (hs : P s) : P (s.takeException r v) :=
  h.setPc _ _ (h.mask _ _ (h.push _ _ (h.pushWord _ _ hs)))

theorem returnFromException (hs : P s) : P s.returnFromException :=
  h.setPc _ _ (h.pullWord _ (h.status _ _ (h.pull _ hs)))

theorem fetch8 (hs : P s) : P s.fetch8.2 := h.setPc _ _ (h.read _ _ hs)

theorem fetchInstr (hs : P s) : P s.fetchInstr.2 := by
  simp only [State.fetchInstr]
  split
  · exact h.fetch8 _ hs
  · exact h.fetch8 _ (h.fetch8 _ hs)
  · exact h.fetch8 _ (h.fetch8 _ (h.fetch8 _ hs))

theorem readOperand (o : Operand) (hs : P s) : P (s.readOperand o).state := by
  cases o with
  | imm => exact hs
  | mem m => exact h.read _ _ hs

end KeptByInstr

/-- An outcome of an instruction in state `s`: completed, at a cost of 2 to 7 cycles (R395), in a state that has every property
of `s` that instructions keep. -/
def Completes (s : State) (r : Result) : Prop :=
  ∃ n u, 2 ≤ n ∧ n ≤ 7 ∧ r = complete n u ∧ ∀ P : State → Prop, KeptByInstr P → P s → P u

theorem completes_intro {s u : State} {n : Nat} (h2 : 2 ≤ n) (h7 : n ≤ 7)
    (h : ∀ P : State → Prop, KeptByInstr P → P s → P u) : Completes s (complete n u) := ⟨n, u, h2, h7, rfl, h⟩

theorem readCycles_bounds (o : Operand) (c : Bool) : 2 ≤ readCycles o c ∧ readCycles o c ≤ 7 := by
  cases o with
  | imm => simp [readCycles]
  | mem m => cases m <;> cases c <;> simp [readCycles]

theorem storeCycles_bounds (m : EaMode) : 2 ≤ storeCycles m ∧ storeCycles m ≤ 7 := by
  cases m <;> simp [storeCycles]

theorem modifyCycles_bounds (t : Target) : 2 ≤ modifyCycles t ∧ modifyCycles t ≤ 7 := by
  cases t with
  | acc => simp [modifyCycles]
  | mem m => cases m <;> simp [modifyCycles]

section
variable (s : State)

theorem completes_read (f : Byte → State → State) (o : Operand)
    (hf : ∀ P : State → Prop, KeptByInstr P → ∀ v t, P t → P (f v t)) : Completes s (readInstr f o s) :=
  completes_intro (readCycles_bounds ..).1 (readCycles_bounds ..).2
    (fun P hP hs => hf P hP _ _ (hP.readOperand _ _ hs))

theorem completes_store (v : Byte) (m : EaMode) : Completes s (storeInstr v m s) :=
  completes_intro (storeCycles_bounds m).1 (storeCycles_bounds m).2 (fun _ hP hs => hP.write _ _ _ hs)

theorem completes_modify (f : Byte → Byte) (fl : Byte → State → State) (t : Target)
    (hf : ∀ P : State → Prop, KeptByInstr P → ∀ v u, P u → P (fl v u)) : Completes s (modifyInstr f fl t s) := by
  cases t with
  | acc =>
    exact completes_intro (modifyCycles_bounds .acc).1 (modifyCycles_bounds .acc).2
      (fun P hP hs => hf P hP _ _ (hP.setA _ _ hs))
  | mem m =>
    exact completes_intro (modifyCycles_bounds _).1 (modifyCycles_bounds _).2
      (fun P hP hs => hf P hP _ _ (hP.write _ _ _ (hP.read _ _ hs)))

theorem completes_branch (c : Bool) (off : Byte) : Completes s (branchInstr c off s) := by
  unfold branchInstr
  simp only
  split
  · split <;> exact completes_intro (by simp) (by simp) (fun _ hP hs => hP.setPc _ _ hs)
  · exact completes_intro (by simp) (by simp) (fun _ _ hs => hs)

theorem completes_lda (o : Operand) : Completes s (lda o s) :=
  completes_read s _ o (fun _ hP _ _ ht => hP.setNZ _ _ (hP.setA _ _ ht))
theorem completes_ldx (o : Operand) : Completes s (ldx o s) :=
  completes_read s _ o (fun _ hP _ _ ht => hP.setNZ _ _ (hP.setX _ _ ht))
theorem completes_ldy (o : Operand) : Completes s (ldy o s) :=
  completes_read s _ o (fun _ hP _ _ ht => hP.setNZ _ _ (hP.setY _ _ ht))
theorem completes_sta (m : EaMode) : Completes s (sta m s) := completes_store s _ m
theorem completes_stx (m : EaMode) : Completes s (stx m s) := completes_store s _ m
theorem completes_sty (m : EaMode) : Completes s (sty m s) := completes_store s _ m
theorem completes_adc (o : Operand) : Completes s (adc o s) :=
  completes_read s _ o (fun _ hP _ _ ht => hP.addToA _ _ ht)
theorem completes_sbc (o : Operand) : Completes s (sbc o s) :=
  completes_read s _ o (fun _ hP _ _ ht => hP.addToA _ _ ht)
theorem completes_ora (o : Operand) : Completes s (ora o s) :=
  completes_read s _ o (fun _ hP _ _ ht => hP.setNZ _ _ (hP.setA _ _ ht))
theorem completes_andA (o : Operand) : Completes s (andA o s) :=
  completes_read s _ o (fun _ hP _ _ ht => hP.setNZ _ _ (hP.setA _ _ ht))
theorem completes_eor (o : Operand) : Completes s (eor o s) :=
  completes_read s _ o (fun _ hP _ _ ht => hP.setNZ _ _ (hP.setA _ _ ht))
theorem completes_bitTest (o : Operand) : Completes s (bitTest o s) :=
  completes_read s _ o (fun _ hP _ _ ht => hP.flag _ _ _ (by simp) (by simp)
    (hP.flag _ _ _ (by simp) (by simp) (hP.flag _ _ _ (by simp) (by simp) ht)))
theorem completes_cmp (o : Operand) : Completes s (cmp o s) :=
  completes_read s _ o (fun _ hP _ _ ht => hP.compare _ _ _ ht)
theorem completes_cpx (o : Operand) : Completes s (cpx o s) :=
  completes_read s _ o (fun _ hP _ _ ht => hP.compare _ _ _ ht)
theorem completes_cpy (o : Operand) : Completes s (cpy o s) :=
  completes_read s _ o (fun _ hP _ _ ht => hP.compare _ _ _ ht)

theorem completes_shift (f : Byte → Bool → Shifted) (t : Target) : Completes s (shiftInstr f t s) :=
  completes_modify s (fun v => (f v (s.flag .c)).result)
    (fun v u => (u.setFlag .c (f v (s.flag .c)).carry).setNZ (f v (s.flag .c)).result) t
    (fun _ hP _ _ hu => hP.setNZ _ _ (hP.flag _ _ _ (by simp) (by simp) hu))
theorem completes_asl (t : Target) : Completes s (asl t s) := completes_shift s _ t
theorem completes_lsr (t : Target) : Completes s (lsr t s) := completes_shift s _ t
theorem completes_rol (t : Target) : Completes s (rol t s) := completes_shift s _ t
theorem completes_ror (t : Target) : Completes s (ror t s) := completes_shift s _ t
theorem completes_inc (m : ModMode) : Completes s (inc m s) :=
  completes_modify s _ _ _ (fun _ hP _ _ hu => hP.setNZ _ _ hu)
theorem completes_dec (m : ModMode) : Completes s (dec m s) :=
  completes_modify s _ _ _ (fun _ hP _ _ hu => hP.setNZ _ _ hu)

end

/-- Every instruction but an unassigned opcode completes. -/
theorem exec_completes (i : Instr) (s : State) (hi : i.mnemonic ≠ .illegal) : Completes s (exec i s) := by
  cases i with
  | ldaImm _ => exact completes_lda s _
  | ldaZp _ => exact completes_lda s _
  | ldaZpx _ => exact completes_lda s _
  | ldaAbs _ => exact completes_lda s _
  | ldaAbsx _ => exact completes_lda s _
  | ldaAbsy _ => exact completes_lda s _
  | ldaIndx _ => exact completes_lda s _
  | ldaIndy _ => exact completes_lda s _
  | ldxImm _ => exact completes_ldx s _
  | ldxZp _ => exact completes_ldx s _
  | ldxZpy _ => exact completes_ldx s _
  | ldxAbs _ => exact completes_ldx s _
  | ldxAbsy _ => exact completes_ldx s _
  | ldyImm _ => exact completes_ldy s _
  | ldyZp _ => exact completes_ldy s _
  | ldyZpx _ => exact completes_ldy s _
  | ldyAbs _ => exact completes_ldy s _
  | ldyAbsx _ => exact completes_ldy s _
  | staZp _ => exact completes_sta s _
  | staZpx _ => exact completes_sta s _
  | staAbs _ => exact completes_sta s _
  | staAbsx _ => exact completes_sta s _
  | staAbsy _ => exact completes_sta s _
  | staIndx _ => exact completes_sta s _
  | staIndy _ => exact completes_sta s _
  | stxZp _ => exact completes_stx s _
  | stxZpy _ => exact completes_stx s _
  | stxAbs _ => exact completes_stx s _
  | styZp _ => exact completes_sty s _
  | styZpx _ => exact completes_sty s _
  | styAbs _ => exact completes_sty s _
  | tax => exact completes_intro (by simp) (by simp) (fun _ hP hs => hP.setNZ _ _ (hP.setX _ _ hs))
  | tay => exact completes_intro (by simp) (by simp) (fun _ hP hs => hP.setNZ _ _ (hP.setY _ _ hs))
  | txa => exact completes_intro (by simp) (by simp) (fun _ hP hs => hP.setNZ _ _ (hP.setA _ _ hs))
  | tya => exact completes_intro (by simp) (by simp) (fun _ hP hs => hP.setNZ _ _ (hP.setA _ _ hs))
  | tsx => exact completes_intro (by simp) (by simp) (fun _ hP hs => hP.setNZ _ _ (hP.setX _ _ hs))
  | txs => exact completes_intro (by simp) (by simp) (fun _ hP hs => hP.setSp _ _ hs)
  | adcImm _ => exact completes_adc s _
  | adcZp _ => exact completes_adc s _
  | adcZpx _ => exact completes_adc s _
  | adcAbs _ => exact completes_adc s _
  | adcAbsx _ => exact completes_adc s _
  | adcAbsy _ => exact completes_adc s _
  | adcIndx _ => exact completes_adc s _
  | adcIndy _ => exact completes_adc s _
  | sbcImm _ => exact completes_sbc s _
  | sbcZp _ => exact completes_sbc s _
  | sbcZpx _ => exact completes_sbc s _
  | sbcAbs _ => exact completes_sbc s _
  | sbcAbsx _ => exact completes_sbc s _
  | sbcAbsy _ => exact completes_sbc s _
  | sbcIndx _ => exact completes_sbc s _
  | sbcIndy _ => exact completes_sbc s _
  | oraImm _ => exact completes_ora s _
  | oraZp _ => exact completes_ora s _
  | oraZpx _ => exact completes_ora s _
  | oraAbs _ => exact completes_ora s _
  | oraAbsx _ => exact completes_ora s _
  | oraAbsy _ => exact completes_ora s _
  | oraIndx _ => exact completes_ora s _
  | oraIndy _ => exact completes_ora s _
  | andImm _ => exact completes_andA s _
  | andZp _ => exact completes_andA s _
  | andZpx _ => exact completes_andA s _
  | andAbs _ => exact completes_andA s _
  | andAbsx _ => exact completes_andA s _
  | andAbsy _ => exact completes_andA s _
  | andIndx _ => exact completes_andA s _
  | andIndy _ => exact completes_andA s _
  | eorImm _ => exact completes_eor s _
  | eorZp _ => exact completes_eor s _
  | eorZpx _ => exact completes_eor s _
  | eorAbs _ => exact completes_eor s _
  | eorAbsx _ => exact completes_eor s _
  | eorAbsy _ => exact completes_eor s _
  | eorIndx _ => exact completes_eor s _
  | eorIndy _ => exact completes_eor s _
  | bitZp _ => exact completes_bitTest s _
  | bitAbs _ => exact completes_bitTest s _
  | aslAcc => exact completes_asl s .acc
  | aslZp zp => exact completes_asl s (.mem (.zp zp))
  | aslZpx zp => exact completes_asl s (.mem (.zpx zp))
  | aslAbs addr => exact completes_asl s (.mem (.abs addr))
  | aslAbsx addr => exact completes_asl s (.mem (.absx addr))
  | lsrAcc => exact completes_lsr s .acc
  | lsrZp zp => exact completes_lsr s (.mem (.zp zp))
  | lsrZpx zp => exact completes_lsr s (.mem (.zpx zp))
  | lsrAbs addr => exact completes_lsr s (.mem (.abs addr))
  | lsrAbsx addr => exact completes_lsr s (.mem (.absx addr))
  | rolAcc => exact completes_rol s .acc
  | rolZp zp => exact completes_rol s (.mem (.zp zp))
  | rolZpx zp => exact completes_rol s (.mem (.zpx zp))
  | rolAbs addr => exact completes_rol s (.mem (.abs addr))
  | rolAbsx addr => exact completes_rol s (.mem (.absx addr))
  | rorAcc => exact completes_ror s .acc
  | rorZp zp => exact completes_ror s (.mem (.zp zp))
  | rorZpx zp => exact completes_ror s (.mem (.zpx zp))
  | rorAbs addr => exact completes_ror s (.mem (.abs addr))
  | rorAbsx addr => exact completes_ror s (.mem (.absx addr))
  | cmpImm _ => exact completes_cmp s _
  | cmpZp _ => exact completes_cmp s _
  | cmpZpx _ => exact completes_cmp s _
  | cmpAbs _ => exact completes_cmp s _
  | cmpAbsx _ => exact completes_cmp s _
  | cmpAbsy _ => exact completes_cmp s _
  | cmpIndx _ => exact completes_cmp s _
  | cmpIndy _ => exact completes_cmp s _
  | cpxImm _ => exact completes_cpx s _
  | cpxZp _ => exact completes_cpx s _
  | cpxAbs _ => exact completes_cpx s _
  | cpyImm _ => exact completes_cpy s _
  | cpyZp _ => exact completes_cpy s _
  | cpyAbs _ => exact completes_cpy s _
  | pha => exact completes_intro (by simp) (by simp) (fun _ hP hs => hP.push _ _ hs)
  | pla => exact completes_intro (by simp) (by simp) (fun _ hP hs => hP.setNZ _ _ (hP.setA _ _ (hP.pull _ hs)))
  | php => exact completes_intro (by simp) (by simp) (fun _ hP hs => hP.push _ _ hs)
  | plp => exact completes_intro (by simp) (by simp) (fun _ hP hs => hP.status _ _ (hP.pull _ hs))
  | jsr _ => exact completes_intro (by simp) (by simp) (fun _ hP hs => hP.setPc _ _ (hP.pushWord _ _ hs))
  | rts => exact completes_intro (by simp) (by simp) (fun _ hP hs => hP.setPc _ _ (hP.pullWord _ hs))
  | bpl _ => exact completes_branch s _ _
  | bmi _ => exact completes_branch s _ _
  | bvc _ => exact completes_branch s _ _
  | bvs _ => exact completes_branch s _ _
  | bcc _ => exact completes_branch s _ _
  | bcs _ => exact completes_branch s _ _
  | bne _ => exact completes_branch s _ _
  | beq _ => exact completes_branch s _ _
  | jmpAbs _ => exact completes_intro (by simp) (by simp) (fun _ hP hs => hP.setPc _ _ hs)
  | jmpInd _ => exact completes_intro (by simp) (by simp) (fun _ hP hs => hP.setPc _ _ (hP.read _ _ (hP.read _ _ hs)))
  | clc => exact completes_intro (by simp) (by simp) (fun _ hP hs => hP.flag _ _ _ (by simp) (by simp) hs)
  | sec => exact completes_intro (by simp) (by simp) (fun _ hP hs => hP.flag _ _ _ (by simp) (by simp) hs)
  | cli => exact completes_intro (by simp) (by simp) (fun _ hP hs => hP.mask _ _ hs)
  | sei => exact completes_intro (by simp) (by simp) (fun _ hP hs => hP.mask _ _ hs)
  | clv => exact completes_intro (by simp) (by simp) (fun _ hP hs => hP.flag _ _ _ (by simp) (by simp) hs)
  | cld => exact completes_intro (by simp) (by simp) (fun _ hP hs => hP.flag _ _ _ (by simp) (by simp) hs)
  | sed => exact completes_intro (by simp) (by simp) (fun _ hP hs => hP.flag _ _ _ (by simp) (by simp) hs)
  | incZp _ => exact completes_inc s _
  | incZpx _ => exact completes_inc s _
  | incAbs _ => exact completes_inc s _
  | incAbsx _ => exact completes_inc s _
  | decZp _ => exact completes_dec s _
  | decZpx _ => exact completes_dec s _
  | decAbs _ => exact completes_dec s _
  | decAbsx _ => exact completes_dec s _
  | inx => exact completes_intro (by simp) (by simp) (fun _ hP hs => hP.setNZ _ _ (hP.setX _ _ hs))
  | iny => exact completes_intro (by simp) (by simp) (fun _ hP hs => hP.setNZ _ _ (hP.setY _ _ hs))
  | dex => exact completes_intro (by simp) (by simp) (fun _ hP hs => hP.setNZ _ _ (hP.setX _ _ hs))
  | dey => exact completes_intro (by simp) (by simp) (fun _ hP hs => hP.setNZ _ _ (hP.setY _ _ hs))
  | brk => exact completes_intro (by simp) (by simp) (fun _ hP hs => hP.takeException _ _ _ hs)
  | rti => exact completes_intro (by simp) (by simp) (fun _ hP hs => hP.returnFromException _ hs)
  | nop => exact completes_intro (by simp) (by simp) (fun _ _ hs => hs)
  | illegal op => exact absurd rfl hi

/-- An unassigned opcode halts the Processor and changes nothing else (R263). -/
theorem exec_illegal {i : Instr} (s : State) (hi : i.mnemonic = .illegal) : exec i s = .next { s with running := false } := by
  cases i <;> first | rfl | cases hi

/-- What an instruction answers (R120 (c), (d)): it always answers a next state. -/
theorem exec_cases (i : Instr) (s : State) :
    (i.mnemonic = .illegal ∧ exec i s = .next { s with running := false }) ∨
    (i.mnemonic ≠ .illegal ∧ Completes s (exec i s)) := by
  by_cases hi : i.mnemonic = .illegal
  · exact .inl ⟨hi, exec_illegal s hi⟩
  · exact .inr ⟨hi, exec_completes i s hi⟩

/-- The four cases of `Step` (R120), read from a next state. -/
theorem stepProcessor_cases {s t : State} (h : stepProcessor s = .next t) :
    s.running = true ∧
    ((s.irqPending = true ∧ s.flag .i = false ∧ t = s.interruptEntry.addCycles Config.irqEntryCycles) ∨
     ((s.irqPending && !s.flag .i) = false ∧ exec s.fetchInstr.1 s.fetchInstr.2 = .next t)) := by
  unfold stepProcessor at h
  split at h
  · cases h
  · rename_i hr
    refine ⟨by simpa using hr, ?_⟩
    split at h
    · rename_i hi
      cases h
      simp at hi
      exact .inl ⟨hi.1, hi.2, rfl⟩
    · rename_i hi
      exact .inr ⟨by simpa using hi, h⟩

/-- A running Processor always answers a next state (R124: no instruction can fault). -/
theorem stepProcessor_next {s : State} (hr : s.running = true) : ∃ t, stepProcessor s = .next t := by
  unfold stepProcessor
  simp only [hr]
  by_cases hi : (s.irqPending && !s.flag .i) = true
  · exact ⟨_, by simp only [hi]; rfl⟩
  · rcases exec_cases s.fetchInstr.1 s.fetchInstr.2 with ⟨-, he⟩ | ⟨-, n, u, -, -, he, -⟩
    · exact ⟨_, by simp only [hi]; exact he⟩
    · exact ⟨_, by simp only [hi]; exact he⟩

/-- What one `Step` of a Processor that is running leads to, for a property that instructions keep: it advances `cycles` by 2 to 7
after work that keeps the property, or it halts. -/
theorem stepProcessor_keeps {P : State → Prop} (hP : KeptByInstr P) {s t : State} (hs : P s)
    (h : stepProcessor s = .next t) :
    ∃ u, P u ∧ ((∃ n, 2 ≤ n ∧ n ≤ 7 ∧ t = u.addCycles n) ∨ t = { u with running := false }) := by
  obtain ⟨-, ⟨-, -, rfl⟩ | ⟨-, he⟩⟩ := stepProcessor_cases h
  · exact ⟨_, hP.takeException _ _ _ hs, .inl ⟨7, by simp, by simp, rfl⟩⟩
  · rcases exec_cases s.fetchInstr.1 s.fetchInstr.2 with ⟨-, hi⟩ | ⟨-, n, u, h2, h7, hi, hu⟩
    · rw [hi] at he
      cases he
      exact ⟨_, hP.fetchInstr _ hs, .inr rfl⟩
    · rw [hi] at he
      cases he
      exact ⟨u, hu P hP (hP.fetchInstr _ hs), .inl ⟨n, h2, h7, rfl⟩⟩

end Sys2Proof.Machine
end

