-- ==== Sys2Proof/Laws/Invariant.lean ====
section
/-! SUPPORT. How each operation treats the parts of `State.Inv`: what keeps it, and that servicing the queue leaves no due
entry behind. -/

namespace Sys2Proof.Machine

/-- One timer's part of `State.TimersArmed`. -/
def Armed (s : State) (k : ChipId) (t : TimerId) : Prop :=
  if counting t (s.timer k t) then
    (s.timer k t).last ≤ s.cycles ∧ ((s.timer k t).last + (s.timer k t).counter.toNat + 1, ⟨k, t⟩) ∈ s.queue
  else s.queued ⟨k, t⟩ = false

/-- Every deadline is in the future: what the run loop establishes before each instruction (R331). -/
def NoneDue (s : State) : Prop := ∀ e ∈ s.queue, s.cycles < e.1

/-- The invariant without the arming of timers. -/
structure Sound (s : State) : Prop where
  memory : s.MemoryCanonical
  unused : s.UnusedSet
  forceLoad : s.ForceLoadClear
  latch : s.LatchCurrent
  lines : s.LinesFollow
  queue : s.QueueOrdered

theorem inv_iff {s : State} : s.Inv ↔ Sound s ∧ ∀ k t, Armed s k t :=
  ⟨fun h => ⟨⟨h.memory, h.unused, h.forceLoad, h.latch, h.lines, h.queue⟩, h.armed⟩,
   fun h => ⟨h.1.memory, h.1.unused, h.1.forceLoad, h.1.latch, h.1.lines, h.1.queue, h.2⟩⟩

/-! What the status operations do to bit 5. -/

theorem setFlag_unused (s : State) (f : Flag) (b : Bool) (hf : f ≠ .u) : (s.setFlag f b).flag .u = s.flag .u := by
  cases f <;> first | exact absurd rfl hf | cases b <;> simp [State.setFlag, State.flag, statusGet, statusSet, Flag.bit, Flag.mask]

theorem setFlag_interrupt (s : State) (f : Flag) (b : Bool) (hf : f ≠ .i) : (s.setFlag f b).flag .i = s.flag .i := by
  cases f <;> first | exact absurd rfl hf | cases b <;> simp [State.setFlag, State.flag, statusGet, statusSet, Flag.bit, Flag.mask]

theorem writeP_unused (s : State) (v : Byte) : (s.writeP v).flag .u = true := by
  simp [State.writeP, State.recomputeIrq, State.flag, statusGet, Flag.bit]

/-! Writes to the two sides of the machine. -/

/-- A state that differs in registers only has the chips' part of the invariant. -/
theorem Sound.core {s t : State} (h : Sound s) (hm : t.MemoryCanonical) (hu : t.UnusedSet) (hl : t.LatchCurrent)
    (hs : t.irqSources = s.irqSources) (h0 : t.chip0 = s.chip0) (h1 : t.chip1 = s.chip1) (hq : t.queue = s.queue) :
    Sound t where
  memory := hm
  unused := hu
  latch := hl
  forceLoad := fun k u => by
    have := h.forceLoad k u
    cases k <;> simpa [State.timer, State.chip, h0, h1] using this
  lines := fun k => by
    have := h.lines k
    cases k <;> simpa [State.chip, h0, h1, hs] using this
  queue := by simpa [State.QueueOrdered, hq] using h.queue

theorem Armed.congr {s t : State} {k : ChipId} {u : TimerId} (h : Armed s k u) (ht : t.timer k u = s.timer k u)
    (hc : s.cycles ≤ t.cycles) (hq : t.queue = s.queue) : Armed t k u := by
  unfold Armed at *
  rw [ht]
  split
  · rename_i hk
    rw [if_pos hk] at h
    exact ⟨h.1.trans hc, hq ▸ h.2⟩
  · rename_i hk
    rw [if_neg hk] at h
    simpa [State.queued, hq] using h

theorem timer_congr {s t : State} (h0 : t.chip0 = s.chip0) (h1 : t.chip1 = s.chip1) (k : ChipId) (u : TimerId) :
    t.timer k u = s.timer k u := by
  cases k <;> simp [State.timer, State.chip, h0, h1]

/-! The chips. -/

theorem line_setTimer (c : TimerChip) (t : TimerId) (tm : Timer) : (c.setTimer t tm).line = c.line := by
  cases t <;> rfl

/-- A timer replaced by one with a clear force-load bit. -/
theorem Sound.setTimer {s : State} (h : Sound s) (k : ChipId) (t : TimerId) {tm : Timer} (hcr : tm.cr.getLsbD 4 = false) :
    Sound (s.setTimer k t tm) where
  memory := by
    have := h.memory
    cases k <;> exact this
  unused := by
    have := h.unused
    cases k <;> exact this
  latch := by
    have := h.latch
    cases k <;> exact this
  forceLoad := fun j u => by
    rw [timer_setTimer]
    split
    · exact hcr
    · exact h.forceLoad j u
  lines := fun j => by
    have := h.lines j
    cases k <;> cases j <;> simpa [State.setTimer, State.setChip, State.chip, line_setTimer] using this
  queue := by
    have := h.queue
    cases k <;> exact this

theorem Armed.setTimer {s : State} {j : ChipId} {u : TimerId} (h : Armed s j u) (k : ChipId) (t : TimerId) (tm : Timer)
    (hne : ¬(j = k ∧ u = t)) : Armed (s.setTimer k t tm) j u := by
  refine h.congr ?_ ?_ ?_
  · rw [timer_setTimer, if_neg hne]
  · exact Nat.le_of_eq (only_setTimer s k t tm).cycles.symm
  · cases k <;> rfl

/-- A chip's other registers replaced. -/
theorem Sound.setChip {s : State} (h : Sound s) (k : ChipId) {c : TimerChip} (ht : ∀ u, c.timer u = s.timer k u)
    (hl : c.line = (s.chip k).line) : Sound (s.setChip k c) where
  memory := by
    have := h.memory
    cases k <;> exact this
  unused := by
    have := h.unused
    cases k <;> exact this
  latch := by
    have := h.latch
    cases k <;> exact this
  forceLoad := fun j u => by rw [timer_setChip s k j u c ht]; exact h.forceLoad j u
  lines := fun j => by
    have := h.lines j
    have hs : (s.setChip k c).irqSources = s.irqSources := by cases k <;> rfl
    rw [chip_setChip, hs]
    split
    · rename_i hj; subst hj; rw [hl]; exact this
    · exact this
  queue := by
    have := h.queue
    cases k <;> exact this

theorem Armed.setChip {s : State} {j : ChipId} {u : TimerId} (h : Armed s j u) (k : ChipId) {c : TimerChip}
    (ht : ∀ u, c.timer u = s.timer k u) : Armed (s.setChip k c) j u :=
  h.congr (timer_setChip s k j u c ht) (by cases k <;> exact Nat.le_refl _) (by cases k <;> rfl)

/-- The source bits after a request or a withdrawal, chip by chip (R272, R273). -/
theorem sources_request (b : Byte) (k j : ChipId) :
    (b ||| sourceMask k.source).getLsbD j.source.val = (if j = k then true else b.getLsbD j.source.val) ∧
    (b &&& ~~~sourceMask k.source).getLsbD j.source.val = (if j = k then false else b.getLsbD j.source.val) := by
  cases k <;> cases j <;> simp [sourceMask, ChipId.source]

/-- `SetIcr` keeps the line of each chip equal to its source bit, and the latch current (R330, R274). -/
theorem Sound.setIcr {s : State} (h : Sound s) (k : ChipId) (f m : BitVec 5) : Sound (s.setIcr k f m) where
  memory := by
    have := only_setIcr s k f m
    unfold State.MemoryCanonical
    rw [this.ram, this.romKernel, this.romBasic, this.romChar]
    exact h.memory
  unused := by
    unfold State.UnusedSet
    rw [(only_setIcr s k f m).flag]
    exact h.unused
  forceLoad := fun j u => by rw [timer_setIcr]; exact h.forceLoad j u
  latch := by
    have := h.latch
    unfold State.setIcr
    simp only
    split
    · rfl
    · split
      · rfl
      · cases k <;> exact this
  lines := fun j => by
    have hj := h.lines j
    rw [chip_setIcr]
    unfold State.setIcr
    simp only
    have hsrc : ∀ c, (s.setChip k c).irqSources = s.irqSources := fun c => by cases k <;> rfl
    split
    · rename_i hr
      show (((s.setChip k _).irqSources ||| sourceMask k.source).getLsbD j.source.val) = _
      rw [hsrc, (sources_request s.irqSources k j).1]
      by_cases hjk : j = k
      · simp only [Bool.and_eq_true] at hr
        rw [if_pos hjk, if_pos hjk]; exact hr.1.symm
      · rw [if_neg hjk, if_neg hjk]; exact hj
    · rename_i hr
      split
      · rename_i hw
        show (((s.setChip k _).irqSources &&& ~~~sourceMask k.source).getLsbD j.source.val) = _
        rw [hsrc, (sources_request s.irqSources k j).2]
        by_cases hjk : j = k
        · simp only [Bool.and_eq_true, Bool.not_eq_true'] at hw
          rw [if_pos hjk, if_pos hjk]; exact hw.2.symm
        · rw [if_neg hjk, if_neg hjk]; exact hj
      · rename_i hw
        rw [hsrc, hj]
        by_cases hjk : j = k
        · subst hjk
          rw [if_pos rfl]
          cases h1 : (s.chip j).line <;> simp_all
        · rw [if_neg hjk]
  queue := by
    unfold State.QueueOrdered
    rw [queue_setIcr]
    exact h.queue

theorem Armed.setIcr {s : State} {j : ChipId} {u : TimerId} (h : Armed s j u) (k : ChipId) (f m : BitVec 5) :
    Armed (s.setIcr k f m) j u :=
  h.congr (by simp) (by simp) (by simp)

theorem advance_forceLoad {tm : Timer} (n : Nat) (h : tm.cr.getLsbD 4 = false) : (tm.advance n).1.cr.getLsbD 4 = false := by
  rw [advance_cr tm n 4 (by decide) (by decide)]; exact h

theorem Sound.advanceOne {s : State} (h : Sound s) (k : ChipId) (t : TimerId) (n : Nat) : Sound (s.advanceOne k t n).1 := by
  have h1 : Sound (s.setTimer k t ((s.timer k t).advance n).1) :=
    h.setTimer k t (advance_forceLoad n (h.forceLoad k t))
  unfold State.advanceOne
  simp only
  split
  · exact h1
  · exact h1.setIcr ..

theorem Sound.advanceTimer {s : State} (h : Sound s) (k : ChipId) (t : TimerId) (n : Nat) : Sound (s.advanceTimer k t n) := by
  cases t
  · simp only [State.advanceTimer]
    split
    · exact (h.advanceOne ..).advanceOne ..
    · exact h.advanceOne ..
  · exact h.advanceOne ..

theorem Sound.updateTimer {s : State} (h : Sound s) (k : ChipId) (t : TimerId) : Sound (s.updateTimer k t) := by
  unfold State.updateTimer
  simp only
  split
  · have h1 : Sound (s.setTimer k t { s.timer k t with last := s.cycles }) := h.setTimer k t (h.forceLoad k t)
    exact h1.advanceTimer ..
  · exact h

/-- A timer other than the updated one stays armed. -/
theorem Armed.updateTimer {s : State} {j : ChipId} {u : TimerId} (h : Armed s j u) (k : ChipId) (t : TimerId)
    (hne : ¬(j = k ∧ u = t)) : Armed (s.updateTimer k t) j u := by
  obtain ⟨hc, hk⟩ := updateTimer_other s k j t u hne
  unfold Armed at *
  rw [hc]
  split
  · rename_i hcount
    rw [if_pos hcount] at h
    rw [hk hcount, cycles_updateTimer, queue_updateTimer]
    exact h
  · rename_i hcount
    rw [if_neg hcount] at h
    simpa [State.queued] using h

theorem Sound.queued {s : State} (h : Sound s) {q : List (Nat × Request)} (hq : Ordered q) : Sound { s with queue := q } :=
  ⟨h.memory, h.unused, h.forceLoad, h.latch, h.lines, hq⟩

theorem Sound.startTimer {s : State} (h : Sound s) (k : ChipId) (t : TimerId) : Sound (s.startTimer k t) := by
  unfold State.startTimer
  simp only
  split
  · have h1 : Sound (s.setTimer k t { s.timer k t with last := s.cycles }) := h.setTimer k t (h.forceLoad k t)
    exact h1.queued (ordered_enqueue _ _ h1.queue)
  · exact h.queued (ordered_queueRemove h.queue)

/-- `StartTimer` arms its timer, whatever its state before (R325). -/
theorem armed_startTimer (s : State) (k : ChipId) (t : TimerId) : Armed (s.startTimer k t) k t := by
  unfold Armed
  rw [timer_startTimer]
  have hcy : (s.startTimer k t).cycles = s.cycles := (only_startTimer s k t).cycles
  by_cases hc : counting t (s.timer k t) = true
  · have hc' : counting t { s.timer k t with last := s.cycles } = true := by
      cases t <;> exact hc
    simp only [hc, and_self, if_true, hc', hcy]
    refine ⟨Nat.le_refl _, ?_⟩
    rw [queue_startTimer, if_pos hc, mem_queueInsert]
    exact .inl rfl
  · have htm : (if k = k ∧ t = t ∧ counting t (s.timer k t) = true then { s.timer k t with last := s.cycles }
        else s.timer k t) = s.timer k t := if_neg (fun hh => hc hh.2.2)
    rw [htm, if_neg hc, not_queued_iff]
    intro e he
    rw [queue_startTimer, if_neg hc] at he
    exact (mem_queueRemove.1 he).2

/-- A timer other than the started one stays armed. -/
theorem Armed.startTimer {s : State} {j : ChipId} {u : TimerId} (h : Armed s j u) (k : ChipId) (t : TimerId)
    (hne : ¬(j = k ∧ u = t)) : Armed (s.startTimer k t) j u := by
  have hreq : (⟨j, u⟩ : Request) ≠ ⟨k, t⟩ := fun he => hne (by cases he; exact ⟨rfl, rfl⟩)
  have hcy : (s.startTimer k t).cycles = s.cycles := (only_startTimer s k t).cycles
  have htm : (s.startTimer k t).timer j u = s.timer j u := by
    rw [timer_startTimer, if_neg (fun hh => hne ⟨hh.1, hh.2.1⟩)]
  have hmem : ∀ n, (n, (⟨j, u⟩ : Request)) ∈ (s.startTimer k t).queue ↔ (n, (⟨j, u⟩ : Request)) ∈ s.queue := fun n => by
    rw [queue_startTimer]
    split
    · rw [mem_queueInsert, mem_queueRemove]; simp [hreq]
    · rw [mem_queueRemove]; simp [hreq]
  unfold Armed at *
  rw [htm]
  split
  · rename_i hc
    rw [if_pos hc] at h
    exact ⟨hcy ▸ h.1, (hmem _).2 h.2⟩
  · rename_i hc
    rw [if_neg hc] at h
    have hno : ¬ (s.startTimer k t).queued ⟨j, u⟩ = true := fun hq => by
      obtain ⟨n, hn⟩ := queued_iff.1 hq
      have := queued_iff.2 ⟨n, (hmem n).1 hn⟩
      rw [h] at this; cases this
    simpa using hno

/-- After `StartTimer`, every entry that is not the started timer's was there before; the started one is in the future. -/
theorem mem_startTimer {s : State} {k : ChipId} {t : TimerId} {e : Nat × Request} (he : e ∈ (s.startTimer k t).queue) :
    s.cycles < e.1 ∨ e ∈ s.queue := by
  rw [queue_startTimer] at he
  split at he
  · rcases mem_queueInsert.1 he with rfl | he
    · left; simp only; omega
    · exact .inr (mem_queueRemove.1 he).1
  · exact .inr (mem_queueRemove.1 he).1

/-! The invariant through the lazy update with no deadline due (R331): nothing underflows. -/

/-- A quiet machine: the invariant holds and no deadline is due. -/
structure Quiet (s : State) : Prop where
  sound : Sound s
  armed : ∀ k t, Armed s k t
  none : NoneDue s

/-- A quiet timer that counts the clock has not reached its underflow (R331). -/
theorem Quiet.within {s : State} (h : Quiet s) {k : ChipId} {t : TimerId} (hc : counting t (s.timer k t) = true) :
    (s.timer k t).last ≤ s.cycles ∧ s.cycles - (s.timer k t).last ≤ (s.timer k t).counter.toNat := by
  have ha := h.armed k t
  unfold Armed at ha
  rw [if_pos hc] at ha
  have := h.none _ ha.2
  simp only at this
  exact ⟨ha.1, by omega⟩

/-- Counts within the counter move the counter and nothing else (R322). -/
theorem advanceTimer_within (s : State) (k : ChipId) (t : TimerId) {n : Nat} (h : n ≤ (s.timer k t).counter.toNat) :
    s.advanceTimer k t n =
      s.setTimer k t { s.timer k t with counter := BitVec.ofNat 16 ((s.timer k t).counter.toNat - n) } := by
  have hone : s.advanceOne k t n =
      (s.setTimer k t { s.timer k t with counter := BitVec.ofNat 16 ((s.timer k t).counter.toNat - n) }, 0) := by
    unfold State.advanceOne
    rw [advance_within _ _ h]
    rfl
  unfold State.advanceTimer
  rw [hone]
  cases t <;> simp

/-- The lazy update of a quiet machine only moves the timer's counter and reference (R320, R331). -/
theorem Quiet.updateTimer_eq {s : State} (h : Quiet s) {k : ChipId} {t : TimerId} (hc : counting t (s.timer k t) = true) :
    s.updateTimer k t = s.setTimer k t { s.timer k t with
      last := s.cycles
      counter := BitVec.ofNat 16 ((s.timer k t).counter.toNat - (s.cycles - (s.timer k t).last)) } := by
  have hw := (h.within hc).2
  have hown : ∀ tm, (s.setTimer k t tm).timer k t = tm := fun tm => by rw [timer_setTimer]; simp
  have htwice : ∀ a b : Timer, (s.setTimer k t a).setTimer k t b = s.setTimer k t b := fun a b => by
    cases k <;> cases t <;> rfl
  unfold State.updateTimer
  simp only [hc, if_true]
  rw [advanceTimer_within _ _ _ (by rw [hown]; exact hw), htwice, hown]

theorem Quiet.updateTimer {s : State} (h : Quiet s) (k : ChipId) (t : TimerId) : Quiet (s.updateTimer k t) := by
  refine ⟨h.sound.updateTimer k t, fun j u => ?_, fun e he => ?_⟩
  · by_cases hne : j = k ∧ u = t
    · obtain ⟨rfl, rfl⟩ := hne
      by_cases hc : counting u (s.timer j u) = true
      · have hw := h.within hc
        have ha := h.armed j u
        unfold Armed at *
        rw [if_pos hc] at ha
        have htm : (s.updateTimer j u).timer j u = { s.timer j u with
            last := s.cycles
            counter := BitVec.ofNat 16 ((s.timer j u).counter.toNat - (s.cycles - (s.timer j u).last)) } := by
          rw [h.updateTimer_eq hc, timer_setTimer]; simp
        have hc' : counting u ((s.updateTimer j u).timer j u) = true := by
          rw [htm]; cases u <;> exact hc
        rw [if_pos hc', htm, cycles_updateTimer, queue_updateTimer]
        refine ⟨Nat.le_refl _, ?_⟩
        have hlt := (s.timer j u).counter.isLt
        have : s.cycles + (BitVec.ofNat 16 ((s.timer j u).counter.toNat - (s.cycles - (s.timer j u).last))).toNat + 1 =
            (s.timer j u).last + (s.timer j u).counter.toNat + 1 := by
          rw [BitVec.toNat_ofNat, Nat.mod_eq_of_lt (by omega)]; omega
        simp only [this]
        exact ha.2
      · rw [updateTimer_of_not_counting _ _ _ (by simpa using hc)]
        exact h.armed j u
    · exact (h.armed j u).updateTimer k t hne
  · rw [queue_updateTimer] at he
    rw [cycles_updateTimer]
    exact h.none e he

theorem Quiet.setIcr {s : State} (h : Quiet s) (k : ChipId) (f m : BitVec 5) : Quiet (s.setIcr k f m) :=
  ⟨h.sound.setIcr k f m, fun j u => (h.armed j u).setIcr k f m, fun e he => by
    rw [queue_setIcr] at he; rw [cycles_setIcr]; exact h.none e he⟩

theorem Quiet.setChip {s : State} (h : Quiet s) (k : ChipId) {c : TimerChip} (ht : ∀ u, c.timer u = s.timer k u)
    (hl : c.line = (s.chip k).line) : Quiet (s.setChip k c) :=
  ⟨h.sound.setChip k ht hl, fun j u => (h.armed j u).setChip k ht, by
    have := h.none; cases k <;> exact this⟩

/-- A timer replaced without touching what its deadline depends on. -/
theorem Quiet.setTimer {s : State} (h : Quiet s) (k : ChipId) (t : TimerId) {tm : Timer} (hcr : tm.cr = (s.timer k t).cr)
    (hl : counting t (s.timer k t) = true → tm.last = (s.timer k t).last ∧ tm.counter = (s.timer k t).counter) :
    Quiet (s.setTimer k t tm) := by
  refine ⟨h.sound.setTimer k t (hcr ▸ h.sound.forceLoad k t), fun j u => ?_, ?_⟩
  · by_cases hne : j = k ∧ u = t
    · obtain ⟨rfl, rfl⟩ := hne
      have ha := h.armed j u
      have hcount : counting u tm = counting u (s.timer j u) := by
        cases u <;> simp [counting, clockSourced, Timer.started, hcr]
      have hcy : (s.setTimer j u tm).cycles = s.cycles := (only_setTimer s j u tm).cycles
      have hq : (s.setTimer j u tm).queue = s.queue := by cases j <;> rfl
      unfold Armed at *
      rw [timer_setTimer]
      simp only [and_self, if_true, hcount]
      split
      · rename_i hc
        rw [if_pos hc] at ha
        rw [(hl hc).1, (hl hc).2, hcy, hq]
        exact ha
      · rename_i hc
        rw [if_neg hc] at ha
        simpa [State.queued, hq] using ha
    · exact (h.armed j u).setTimer k t tm hne
  · have := h.none
    cases k <;> exact this

/-- A timer whose control register is written is armed anew (R319, R325). -/
theorem Quiet.restart {s : State} (h : Quiet s) (k : ChipId) (t : TimerId) {tm : Timer} (hcr : tm.cr.getLsbD 4 = false) :
    Quiet ((s.setTimer k t tm).startTimer k t) := by
  refine ⟨(h.sound.setTimer k t hcr).startTimer k t, fun j u => ?_, fun e he => ?_⟩
  · by_cases hne : j = k ∧ u = t
    · obtain ⟨rfl, rfl⟩ := hne
      exact armed_startTimer ..
    · exact ((h.armed j u).setTimer k t tm hne).startTimer k t hne
  · rw [(only_startTimer ..).cycles, (only_setTimer ..).cycles]
    have hq : (s.setTimer k t tm).queue = s.queue := by cases k <;> rfl
    rcases mem_startTimer he with hlt | hin
    · rwa [(only_setTimer ..).cycles] at hlt
    · exact h.none e (hq ▸ hin)

theorem writeControl_forceLoad (tm : Timer) (v : Byte) : (tm.writeControl v).cr.getLsbD 4 = false := by
  unfold Timer.writeControl
  simp only
  split <;> simp

/-- A state that differs from a quiet one in the model's own fields only is quiet. -/
theorem Quiet.own {s : State} (h : Quiet s) (n : Nat) (os : List Output) : Quiet { s with draws := n, outputs := os } :=
  ⟨⟨h.sound.memory, h.sound.unused, h.sound.forceLoad, h.sound.latch, h.sound.lines, h.sound.queue⟩, h.armed, h.none⟩

theorem Quiet.emit {s : State} (h : Quiet s) (o : Output) : Quiet (s.emit o) := h.own _ _

theorem Quiet.writePort {s : State} (h : Quiet s) (k : ChipId) {c : TimerChip} (ht : ∀ u, c.timer u = s.timer k u)
    (hl : c.line = (s.chip k).line) : Quiet (s.writePort k c) := by
  rw [writePort_eq]
  exact .emit (h.setChip k (c := c.snapshot) (fun u => by rw [← ht u]; cases u <;> rfl) hl) _

theorem Quiet.readReg {s : State} (h : Quiet s) (k : ChipId) (r : ChipReg) : Quiet (s.readReg k r).2 := by
  cases r with
  | portA => simp only [State.readReg, State.samplePins]; split <;> exact h.own _ _
  | portB => simp only [State.readReg, State.samplePins]; split <;> exact h.own _ _
  | timerLow t => exact h.updateTimer k t
  | timerHigh t => exact h.updateTimer k t
  | control t => exact h.updateTimer k t
  | icr => exact h.setIcr ..
  | _ => exact h

theorem Quiet.writeReg {s : State} (h : Quiet s) (k : ChipId) (r : ChipReg) (v : Byte) : Quiet (s.writeReg k r v) := by
  cases r with
  | portA => exact h.writePort k (fun u => by cases u <;> rfl) rfl
  | portB => exact h.writePort k (fun u => by cases u <;> rfl) rfl
  | ddrA => exact h.setChip k (fun u => by cases u <;> rfl) rfl
  | ddrB => exact h.setChip k (fun u => by cases u <;> rfl) rfl
  | timerLow t => exact (h.updateTimer k t).setTimer k t rfl (fun _ => ⟨rfl, rfl⟩)
  | timerHigh t =>
    refine (h.updateTimer k t).setTimer k t ?_ ?_
    · unfold Timer.writeHigh; simp only; split <;> rfl
    · intro hc
      have hs : ((s.updateTimer k t).timer k t).started = true := by
        unfold counting at hc; simp at hc; exact hc.1
      unfold Timer.writeHigh
      simp [hs]
  | unimplemented => exact h
  | icr => exact h.setIcr ..
  | control t => exact (h.updateTimer k t).restart k t (writeControl_forceLoad ..)

theorem Quiet.ioRead {s : State} (h : Quiet s) (a : Addr) : Quiet (s.ioRead a).2 := by
  unfold State.ioRead
  split
  · exact h.readReg ..
  · exact h.own _ _
  · exact h

theorem Quiet.ioWrite {s : State} (h : Quiet s) (a : Addr) (v : Byte) : Quiet (s.ioWrite a v) := by
  unfold State.ioWrite
  split
  · exact h.writeReg ..
  · exact h.emit _
  · exact h

/-- A state whose devices are a quiet state's, and whose own part of the invariant holds, is quiet. -/
theorem Quiet.core {s t : State} (h : Quiet s) (hm : t.MemoryCanonical) (hu : t.UnusedSet) (hl : t.LatchCurrent)
    (hs : t.irqSources = s.irqSources) (h0 : t.chip0 = s.chip0) (h1 : t.chip1 = s.chip1) (hq : t.queue = s.queue)
    (hc : t.cycles = s.cycles) : Quiet t :=
  ⟨h.sound.core hm hu hl hs h0 h1 hq,
   fun k u => (h.armed k u).congr (timer_congr h0 h1 k u) (Nat.le_of_eq hc.symm) hq,
   fun e he => hc ▸ h.none e (hq ▸ he)⟩

/-- Everything an instruction does keeps a quiet machine quiet. -/
theorem quiet_kept : KeptByInstr Quiet where
  regs := fun s a x y sp pc h => h.core h.sound.memory h.sound.unused h.sound.latch rfl rfl rfl rfl rfl
  flag := fun s f b hu hi h => by
    refine h.core h.sound.memory ?_ ?_ rfl rfl rfl rfl rfl
    · exact (setFlag_unused s f b hu).trans h.sound.unused
    · have := h.sound.latch
      unfold State.LatchCurrent at *
      rw [setFlag_interrupt s f b hi]
      exact this
  mask := fun s b h => h.core h.sound.memory ((setFlag_unused s .i b (by simp)).trans h.sound.unused) rfl rfl rfl rfl rfl rfl
  status := fun s v h => h.core h.sound.memory (writeP_unused s v) rfl rfl rfl rfl rfl rfl
  read := fun s a h => by
    by_cases hio : s.source a = .io
    · unfold State.afterRead State.read
      rw [hio]
      exact h.ioRead a
    · rw [afterRead_eq hio]; exact h
  write := fun s a v h => by
    rcases write_cases s a v with ⟨-, he⟩ | ⟨-, he⟩ | ⟨-, -, -, he⟩ | ⟨-, -, -, he⟩
    · rw [he]; exact h.core h.sound.memory h.sound.unused h.sound.latch rfl rfl rfl rfl rfl
    · rw [he]; exact h.core h.sound.memory h.sound.unused h.sound.latch rfl rfl rfl rfl rfl
    · rw [he]; exact h.ioWrite a v
    · rw [he]
      have hm := h.sound.memory
      exact h.core ⟨Memory.wf_write v a.isLt hm.1, hm.2⟩ h.sound.unused h.sound.latch rfl rfl rfl rfl rfl

/-! Servicing the queue. -/

/-- One due entry popped and its callback run: the invariant is kept, and every entry left was there before or is in the future. -/
theorem callback_keeps {s : State} {target : Nat} {r : Request} {q : List (Nat × Request)} (hs : Sound s)
    (ha : ∀ k t, Armed s k t) (hq : s.queue = (target, r) :: q) :
    Sound (State.timerCallback { s with queue := q } r) ∧
    (∀ k t, Armed (State.timerCallback { s with queue := q } r) k t) ∧
    (∀ e ∈ (State.timerCallback { s with queue := q } r).queue, s.cycles < e.1 ∨ e ∈ q) := by
  have hord : Ordered ((target, r) :: q) := hq ▸ hs.queue
  have hpop : Sound { s with queue := q } := hs.queued (List.pairwise_cons.1 hord).2
  have hother : ∀ k t, ¬(k = r.chip ∧ t = r.timer) → Armed { s with queue := q } k t := fun k t hne => by
    have hr : (⟨k, t⟩ : Request) ≠ r := fun he => hne (by subst he; exact ⟨rfl, rfl⟩)
    have := ha k t
    have htm : State.timer { s with queue := q } k t = s.timer k t := timer_congr rfl rfl k t
    unfold Armed at *
    rw [htm]
    split
    · rename_i hc
      rw [if_pos hc, hq] at this
      refine ⟨this.1, ?_⟩
      rcases List.mem_cons.1 this.2 with he | he
      · exact absurd (congrArg Prod.snd he) hr
      · exact he
    · rename_i hc
      rw [if_neg hc, not_queued_iff, hq] at this
      rw [not_queued_iff]
      exact fun e he => this e (List.mem_cons_of_mem _ he)
  refine ⟨(hpop.updateTimer _ _).startTimer _ _, fun k t => ?_, fun e he => ?_⟩
  · by_cases hne : k = r.chip ∧ t = r.timer
    · obtain ⟨rfl, rfl⟩ := hne
      exact armed_startTimer ..
    · exact ((hother k t hne).updateTimer _ _ hne).startTimer _ _ hne
  · rcases mem_startTimer he with hlt | hin
    · left; rwa [cycles_updateTimer] at hlt
    · right; rwa [queue_updateTimer] at hin

/-- The due entries of a queue. -/
def dueCount (s : State) : Nat := (s.queue.filter (fun e => e.1 ≤ s.cycles)).length

theorem drainDue_keeps (fuel : Nat) : ∀ s : State, Sound s → (∀ k t, Armed s k t) →
    Sound (drainDue s.cycles fuel s) ∧ ∀ k t, Armed (drainDue s.cycles fuel s) k t := by
  induction fuel with
  | zero => exact fun s hs ha => ⟨hs, ha⟩
  | succ fuel ih =>
    intro s hs ha
    unfold drainDue
    cases hq : s.queue with
    | nil => exact ⟨hs, ha⟩
    | cons e q =>
      obtain ⟨target, r⟩ := e
      simp only
      split
      · obtain ⟨h1, h2, -⟩ := callback_keeps hs ha hq
        have hc : (State.timerCallback { s with queue := q } r).cycles = s.cycles := (only_timerCallback _ r).cycles
        have := ih _ h1 h2
        rwa [hc] at this
      · exact ⟨hs, ha⟩

/-- Running one callback of a due entry takes one off the due entries. -/
theorem dueCount_callback {s : State} {target : Nat} {r : Request} {q : List (Nat × Request)}
    (hq : s.queue = (target, r) :: q) (hd : target ≤ s.cycles) :
    dueCount (State.timerCallback { s with queue := q } r) < dueCount s := by
  have hc : (State.timerCallback { s with queue := q } r).cycles = s.cycles := (only_timerCallback _ r).cycles
  have hins : ∀ n q, s.cycles < n → (queueInsert n r q).filter (fun e => e.1 ≤ s.cycles) =
      q.filter (fun e => e.1 ≤ s.cycles) := fun n q hn => by
    induction q with
    | nil => simp [queueInsert, hn]
    | cons d q ih =>
      unfold queueInsert
      split
      · rw [List.filter_cons, List.filter_cons, ih]
      · rw [List.filter_cons]; simp [hn]
  have hrem : ((queueRemove r q).filter (fun e => e.1 ≤ s.cycles)).length ≤ (q.filter (fun e => e.1 ≤ s.cycles)).length :=
    (List.Sublist.filter _ List.filter_sublist).length_le
  have hle : ((State.timerCallback { s with queue := q } r).queue.filter (fun e => e.1 ≤ s.cycles)).length ≤
      (q.filter (fun e => e.1 ≤ s.cycles)).length := by
    unfold State.timerCallback
    rw [queue_startTimer, queue_updateTimer, cycles_updateTimer]
    split
    · rw [hins _ _ (by simp only; omega)]; exact hrem
    · exact hrem
  unfold dueCount
  rw [hc, hq, List.filter_cons]
  simp only [hd, decide_true, if_true, List.length_cons]
  omega

/-- Fuel beyond the due entries changes nothing (R354). -/
theorem drainDue_fuel (fuel more : Nat) : ∀ s : State, dueCount s ≤ fuel →
    drainDue s.cycles (fuel + more) s = drainDue s.cycles fuel s := by
  induction fuel with
  | zero =>
    intro s hf
    cases more with
    | zero => rfl
    | succ more =>
      rw [Nat.zero_add]
      unfold drainDue
      cases hq : s.queue with
      | nil => rfl
      | cons e q =>
        obtain ⟨target, r⟩ := e
        have hd : ¬target ≤ s.cycles := fun hd => by have := dueCount_callback hq hd; omega
        simp [hd]
  | succ fuel ih =>
    intro s hf
    rw [Nat.succ_add]
    unfold drainDue
    cases hq : s.queue with
    | nil => rfl
    | cons e q =>
      obtain ⟨target, r⟩ := e
      simp only
      split
      · rename_i hd
        have hc : (State.timerCallback { s with queue := q } r).cycles = s.cycles := (only_timerCallback _ r).cycles
        have := ih (State.timerCallback { s with queue := q } r) (by have := dueCount_callback hq hd; omega)
        rwa [hc] at this
      · rfl

/-- With no more due entries than fuel, none is left due (R354). -/
theorem drainDue_none (fuel : Nat) : ∀ s : State, Sound s → (∀ k t, Armed s k t) → dueCount s ≤ fuel →
    NoneDue (drainDue s.cycles fuel s) := by
  induction fuel with
  | zero =>
    intro s hs _ hf e he
    have : s.queue.filter (fun e => e.1 ≤ s.cycles) = [] := List.length_eq_zero_iff.1 (Nat.le_zero.1 hf)
    have hlt : s.cycles < e.1 := by simpa using List.filter_eq_nil_iff.1 this e he
    exact hlt
  | succ fuel ih =>
    intro s hs ha hf
    unfold drainDue
    cases hq : s.queue with
    | nil => intro e he; simp [hq] at he
    | cons e q =>
      obtain ⟨target, r⟩ := e
      simp only
      split
      · rename_i hd
        obtain ⟨h1, h2, -⟩ := callback_keeps hs ha hq
        have hc : (State.timerCallback { s with queue := q } r).cycles = s.cycles := (only_timerCallback _ r).cycles
        have := dueCount_callback hq hd
        have := ih _ h1 h2 (by omega)
        rwa [hc] at this
      · rename_i hd
        intro e he
        have hle := nextDeadline_le hs.queue he
        unfold State.nextDeadline at hle
        rw [hq] at hle
        simp only at hle
        omega

/-- Before each instruction the run loop leaves a quiet machine (R354, R360, R331). -/
theorem quiet_serviceDue {s : State} (h : s.Inv) : Quiet s.serviceDue := by
  obtain ⟨hs, ha⟩ := inv_iff.1 h
  unfold State.serviceDue
  split
  · obtain ⟨h1, h2⟩ := drainDue_keeps s.queue.length s hs ha
    exact ⟨h1, h2, drainDue_none _ s hs ha (List.length_filter_le ..)⟩
  · rename_i hd
    exact ⟨hs, ha, fun e he => by have := nextDeadline_le hs.queue he; omega⟩

/-- The invariant through what ends a step: the advance of `cycles`, or the halt. -/
theorem Quiet.inv {s : State} (h : Quiet s) : s.Inv := inv_iff.2 ⟨h.sound, h.armed⟩

theorem inv_addCycles {s : State} (h : s.Inv) (n : Nat) : (s.addCycles n).Inv :=
  inv_iff.2 ⟨(inv_iff.1 h).1.core h.memory h.unused h.latch rfl rfl rfl rfl,
    fun k t => ((inv_iff.1 h).2 k t).congr rfl (Nat.le_add_right ..) rfl⟩

theorem inv_halt {s : State} (h : s.Inv) : State.Inv { s with running := false } :=
  inv_iff.2 ⟨(inv_iff.1 h).1.core h.memory h.unused h.latch rfl rfl rfl rfl,
    fun k t => ((inv_iff.1 h).2 k t).congr rfl (Nat.le_refl _) rfl⟩

/-- The trace of outputs is outside the invariant. -/
theorem inv_emit {s : State} (h : s.Inv) (o : Output) : (s.emit o).Inv :=
  inv_iff.2 ⟨(inv_iff.1 h).1.core h.memory h.unused h.latch rfl rfl rfl rfl,
    fun k t => ((inv_iff.1 h).2 k t).congr rfl (Nat.le_refl _) rfl⟩

end Sys2Proof.Machine
end

