-- ==== Sys2Proof/Laws/Outputs.lean ====
section
/-! SUPPORT. The trace of outputs through the shared operations: an earlier past changes nothing they do, and an access adds no
`VideoAdvance` (R14). -/

namespace Sys2Proof.Machine

section
variable (s : State) (k : ChipId) (t : TimerId) (past : List Output)

/-! Past outputs are not read. -/

@[simp] theorem behind_chip : (s.behind past).chip k = s.chip k := by cases k <;> rfl

@[simp] theorem behind_timer : (s.behind past).timer k t = s.timer k t := by cases k <;> rfl

@[simp] theorem behind_cycles : (s.behind past).cycles = s.cycles := rfl

@[simp] theorem behind_emit (o : Output) : (s.behind past).emit o = (s.emit o).behind past := rfl

@[simp] theorem behind_setChip (c : TimerChip) : (s.behind past).setChip k c = (s.setChip k c).behind past := by
  cases k <;> rfl

@[simp] theorem behind_setTimer (tm : Timer) : (s.behind past).setTimer k t tm = (s.setTimer k t tm).behind past := by
  cases k <;> rfl

@[simp] theorem behind_setIcr (f m : BitVec 5) : (s.behind past).setIcr k f m = (s.setIcr k f m).behind past := by
  unfold State.setIcr
  simp only [behind_chip, behind_setChip]
  split
  · rfl
  · split <;> rfl

@[simp] theorem behind_advanceOne (n : Nat) : (s.behind past).advanceOne k t n =
    ((s.advanceOne k t n).1.behind past, (s.advanceOne k t n).2) := by
  unfold State.advanceOne
  simp only [behind_timer, behind_setTimer, behind_chip, behind_setIcr]
  split <;> rfl

@[simp] theorem behind_advanceTimer (n : Nat) : (s.behind past).advanceTimer k t n = (s.advanceTimer k t n).behind past := by
  cases t <;> simp only [State.advanceTimer, behind_advanceOne, behind_chip]
  split <;> rfl

@[simp] theorem behind_updateTimer : (s.behind past).updateTimer k t = (s.updateTimer k t).behind past := by
  unfold State.updateTimer
  simp only [behind_timer, behind_cycles, behind_setTimer, behind_advanceTimer]
  split <;> rfl

@[simp] theorem behind_startTimer : (s.behind past).startTimer k t = (s.startTimer k t).behind past := by
  unfold State.startTimer
  simp only [behind_timer, behind_cycles, behind_setTimer]
  split <;> rfl

theorem behind_readReg (r : ChipReg) : (s.behind past).readReg k r = ((s.readReg k r).1, (s.readReg k r).2.behind past) := by
  cases r with
  | portA => cases h : (s.chip k).pinsA <;> simp only [State.readReg, State.samplePins, State.preReadHook, behind_chip, h] <;> rfl
  | portB => cases h : (s.chip k).pinsB <;> simp only [State.readReg, State.samplePins, State.preReadHook, behind_chip, h] <;> rfl
  | _ => simp [State.readReg]

theorem behind_writeReg (r : ChipReg) (v : Byte) : (s.behind past).writeReg k r v = (s.writeReg k r v).behind past := by
  cases r <;> simp [State.writeReg, writePort_eq]

theorem behind_read (a : Addr) : (s.behind past).read a = ((s.read a).1, (s.read a).2.behind past) := by
  have hs : (s.behind past).source a = s.source a := rfl
  unfold State.read State.ioRead
  rw [hs]
  split <;> try rfl
  split
  · exact behind_readReg ..
  · rfl
  · rfl

@[simp] theorem behind_byteAt (a : Addr) : (s.behind past).byteAt a = s.byteAt a := by
  unfold State.byteAt; rw [behind_read]

@[simp] theorem behind_afterRead (a : Addr) : (s.behind past).afterRead a = (s.afterRead a).behind past := by
  unfold State.afterRead; rw [behind_read]

@[simp] theorem behind_write (a : Addr) (v : Byte) : (s.behind past).write a v = (s.write a v).behind past := by
  have hs : (s.behind past).source a = s.source a := rfl
  unfold State.write State.ioWrite
  rw [hs]
  split <;> try rfl
  split
  · exact behind_writeReg ..
  · rfl
  · rfl

theorem behind_drainDue (n fuel : Nat) : drainDue n fuel (s.behind past) = (drainDue n fuel s).behind past := by
  induction fuel generalizing s with
  | zero => rfl
  | succ fuel ih =>
    have hq : (s.behind past).queue = s.queue := rfl
    have hpop : ∀ q, ({ s.behind past with queue := q } : State) = State.behind { s with queue := q } past := fun _ => rfl
    unfold drainDue
    rw [hq]
    cases s.queue with
    | nil => rfl
    | cons e q =>
      simp only [hpop, State.timerCallback, behind_updateTimer, behind_startTimer, ih]
      split <;> rfl

@[simp] theorem behind_serviceDue : (s.behind past).serviceDue = s.serviceDue.behind past := by
  have hd : (s.behind past).nextDeadline = s.nextDeadline := rfl
  have hq : (s.behind past).queue = s.queue := rfl
  unfold State.serviceDue State.handleDue
  simp only [hd, hq, behind_cycles, behind_drainDue]
  split <;> rfl

/-- An outcome with its next state standing after an earlier past. -/
def outcomeBehind (past : List Output) : Result → Result
  | .next t => .next (t.behind past)
  | .fault f => .fault f
  | .refused r => .refused r

theorem behind_complete (n : Nat) : complete n (s.behind past) = outcomeBehind past (complete n s) := rfl

@[simp] theorem behind_zpPointer (z : Byte) : (s.behind past).zpPointer z = s.zpPointer z := by simp [State.zpPointer]

@[simp] theorem behind_effAddr (m : EaMode) : (s.behind past).effAddr m = s.effAddr m := by
  cases m <;> simp only [State.effAddr, behind_zpPointer] <;> rfl

theorem behind_readOperand (o : Operand) : (s.behind past).readOperand o =
    { s.readOperand o with state := (s.readOperand o).state.behind past } := by
  cases o <;> simp [State.readOperand]

theorem behind_readInstr {f : Byte → State → State} (hf : ∀ v t, f v (State.behind t past) = (f v t).behind past) (o : Operand) :
    readInstr f o (s.behind past) = outcomeBehind past (readInstr f o s) := by
  simp only [readInstr, behind_readOperand, hf, behind_complete]

theorem behind_storeInstr (v : Byte) (m : EaMode) :
    storeInstr v m (s.behind past) = outcomeBehind past (storeInstr v m s) := by
  simp only [storeInstr, behind_effAddr, behind_write, behind_complete]

theorem behind_modifyInstr (f : Byte → Byte) {fl : Byte → State → State}
    (hf : ∀ v t, fl v (State.behind t past) = (fl v t).behind past) (g : Target) :
    modifyInstr f fl g (s.behind past) = outcomeBehind past (modifyInstr f fl g s) := by
  cases g with
  | acc => exact congrArg (complete (modifyCycles .acc)) (hf s.a { s with a := f s.a })
  | mem m => simp only [modifyInstr, behind_effAddr, behind_byteAt, behind_afterRead, behind_write, hf, behind_complete]

theorem behind_branchInstr (c : Bool) (off : Byte) :
    branchInstr c off (s.behind past) = outcomeBehind past (branchInstr c off s) := by
  have hp : (s.behind past).pc = s.pc := rfl
  unfold branchInstr
  simp only [hp]
  split <;> rfl

@[simp] theorem behind_push (v : Byte) : (s.behind past).push v = (s.push v).behind past := by
  simp only [push_eq]; rfl

@[simp] theorem behind_pull : (s.behind past).pull = (s.pull.1, s.pull.2.behind past) := by
  simp only [pull_eq]; rfl

@[simp] theorem behind_takeException (ret : Addr) (v : Byte) :
    (s.behind past).takeException ret v = (s.takeException ret v).behind past := by
  have hm : ∀ u : State, (u.behind past).setInterruptDisable true = (u.setInterruptDisable true).behind past := fun _ => rfl
  simp only [State.takeException, State.pushWord, behind_push, hm, State.vector, behind_byteAt]
  rfl

@[simp] theorem behind_fetch8 : (s.behind past).fetch8 = (s.fetch8.1, s.fetch8.2.behind past) := by
  have hp : (s.behind past).pc = s.pc := rfl
  simp only [State.fetch8, hp, behind_read]
  rfl

@[simp] theorem behind_fetchInstr : (s.behind past).fetchInstr = (s.fetchInstr.1, s.fetchInstr.2.behind past) := by
  simp only [State.fetchInstr, behind_fetch8]
  split <;> rfl

theorem behind_pushWord (w : Addr) : (s.behind past).pushWord w = (s.pushWord w).behind past := by
  simp only [State.pushWord, behind_push]

theorem behind_pullWord : (s.behind past).pullWord = (s.pullWord.1, s.pullWord.2.behind past) := by
  simp only [State.pullWord, behind_pull]

theorem behind_returnFromException : (s.behind past).returnFromException = s.returnFromException.behind past := by
  have hw : ∀ (u : State) v, (u.behind past).writeP v = (u.writeP v).behind past := fun _ _ => rfl
  simp only [State.returnFromException, behind_pull, hw, behind_pullWord]
  rfl

theorem behind_jumpIndirect (ptr : Addr) : (s.behind past).jumpIndirect ptr = (s.jumpIndirect ptr).behind past := by
  simp only [State.jumpIndirect, behind_read]
  rfl

theorem behind_lda (o : Operand) : lda o (s.behind past) = outcomeBehind past (lda o s) :=
  behind_readInstr s past (fun _ _ => rfl) o
theorem behind_ldx (o : Operand) : ldx o (s.behind past) = outcomeBehind past (ldx o s) :=
  behind_readInstr s past (fun _ _ => rfl) o
theorem behind_ldy (o : Operand) : ldy o (s.behind past) = outcomeBehind past (ldy o s) :=
  behind_readInstr s past (fun _ _ => rfl) o
theorem behind_adc (o : Operand) : adc o (s.behind past) = outcomeBehind past (adc o s) :=
  behind_readInstr s past (fun _ _ => rfl) o
theorem behind_sbc (o : Operand) : sbc o (s.behind past) = outcomeBehind past (sbc o s) :=
  behind_readInstr s past (fun _ _ => rfl) o
theorem behind_ora (o : Operand) : ora o (s.behind past) = outcomeBehind past (ora o s) :=
  behind_readInstr s past (fun _ _ => rfl) o
theorem behind_andA (o : Operand) : andA o (s.behind past) = outcomeBehind past (andA o s) :=
  behind_readInstr s past (fun _ _ => rfl) o
theorem behind_eor (o : Operand) : eor o (s.behind past) = outcomeBehind past (eor o s) :=
  behind_readInstr s past (fun _ _ => rfl) o
theorem behind_bitTest (o : Operand) : bitTest o (s.behind past) = outcomeBehind past (bitTest o s) :=
  behind_readInstr s past (fun _ _ => rfl) o
theorem behind_cmp (o : Operand) : cmp o (s.behind past) = outcomeBehind past (cmp o s) :=
  behind_readInstr s past (fun _ _ => rfl) o
theorem behind_cpx (o : Operand) : cpx o (s.behind past) = outcomeBehind past (cpx o s) :=
  behind_readInstr s past (fun _ _ => rfl) o
theorem behind_cpy (o : Operand) : cpy o (s.behind past) = outcomeBehind past (cpy o s) :=
  behind_readInstr s past (fun _ _ => rfl) o
theorem behind_sta (m : EaMode) : sta m (s.behind past) = outcomeBehind past (sta m s) := behind_storeInstr s past _ m
theorem behind_stx (m : EaMode) : stx m (s.behind past) = outcomeBehind past (stx m s) := behind_storeInstr s past _ m
theorem behind_sty (m : EaMode) : sty m (s.behind past) = outcomeBehind past (sty m s) := behind_storeInstr s past _ m
theorem behind_shift (f : Byte → Bool → Shifted) (g : Target) :
    shiftInstr f g (s.behind past) = outcomeBehind past (shiftInstr f g s) :=
  behind_modifyInstr s past (fun v => (f v (s.flag .c)).result)
    (fl := fun v u => (u.setFlag .c (f v (s.flag .c)).carry).setNZ (f v (s.flag .c)).result) (fun _ _ => rfl) g
theorem behind_asl (g : Target) : asl g (s.behind past) = outcomeBehind past (asl g s) := behind_shift s past _ g
theorem behind_lsr (g : Target) : lsr g (s.behind past) = outcomeBehind past (lsr g s) := behind_shift s past _ g
theorem behind_rol (g : Target) : rol g (s.behind past) = outcomeBehind past (rol g s) := behind_shift s past _ g
theorem behind_ror (g : Target) : ror g (s.behind past) = outcomeBehind past (ror g s) := behind_shift s past _ g
theorem behind_inc (m : ModMode) : inc m (s.behind past) = outcomeBehind past (inc m s) :=
  behind_modifyInstr s past _ (fun _ _ => rfl) _
theorem behind_dec (m : ModMode) : dec m (s.behind past) = outcomeBehind past (dec m s) :=
  behind_modifyInstr s past _ (fun _ _ => rfl) _

end

/-- What an instruction does does not depend on what was driven outward before it (R14). -/
theorem behind_exec (i : Instr) (s : State) (past : List Output) : exec i (s.behind past) = outcomeBehind past (exec i s) := by
  cases i with
  | ldaImm _ => exact behind_lda s past _
  | ldaZp _ => exact behind_lda s past _
  | ldaZpx _ => exact behind_lda s past _
  | ldaAbs _ => exact behind_lda s past _
  | ldaAbsx _ => exact behind_lda s past _
  | ldaAbsy _ => exact behind_lda s past _
  | ldaIndx _ => exact behind_lda s past _
  | ldaIndy _ => exact behind_lda s past _
  | ldxImm _ => exact behind_ldx s past _
  | ldxZp _ => exact behind_ldx s past _
  | ldxZpy _ => exact behind_ldx s past _
  | ldxAbs _ => exact behind_ldx s past _
  | ldxAbsy _ => exact behind_ldx s past _
  | ldyImm _ => exact behind_ldy s past _
  | ldyZp _ => exact behind_ldy s past _
  | ldyZpx _ => exact behind_ldy s past _
  | ldyAbs _ => exact behind_ldy s past _
  | ldyAbsx _ => exact behind_ldy s past _
  | staZp _ => exact behind_sta s past _
  | staZpx _ => exact behind_sta s past _
  | staAbs _ => exact behind_sta s past _
  | staAbsx _ => exact behind_sta s past _
  | staAbsy _ => exact behind_sta s past _
  | staIndx _ => exact behind_sta s past _
  | staIndy _ => exact behind_sta s past _
  | stxZp _ => exact behind_stx s past _
  | stxZpy _ => exact behind_stx s past _
  | stxAbs _ => exact behind_stx s past _
  | styZp _ => exact behind_sty s past _
  | styZpx _ => exact behind_sty s past _
  | styAbs _ => exact behind_sty s past _
  | tax => exact rfl
  | tay => exact rfl
  | txa => exact rfl
  | tya => exact rfl
  | tsx => exact rfl
  | txs => exact rfl
  | adcImm _ => exact behind_adc s past _
  | adcZp _ => exact behind_adc s past _
  | adcZpx _ => exact behind_adc s past _
  | adcAbs _ => exact behind_adc s past _
  | adcAbsx _ => exact behind_adc s past _
  | adcAbsy _ => exact behind_adc s past _
  | adcIndx _ => exact behind_adc s past _
  | adcIndy _ => exact behind_adc s past _
  | sbcImm _ => exact behind_sbc s past _
  | sbcZp _ => exact behind_sbc s past _
  | sbcZpx _ => exact behind_sbc s past _
  | sbcAbs _ => exact behind_sbc s past _
  | sbcAbsx _ => exact behind_sbc s past _
  | sbcAbsy _ => exact behind_sbc s past _
  | sbcIndx _ => exact behind_sbc s past _
  | sbcIndy _ => exact behind_sbc s past _
  | oraImm _ => exact behind_ora s past _
  | oraZp _ => exact behind_ora s past _
  | oraZpx _ => exact behind_ora s past _
  | oraAbs _ => exact behind_ora s past _
  | oraAbsx _ => exact behind_ora s past _
  | oraAbsy _ => exact behind_ora s past _
  | oraIndx _ => exact behind_ora s past _
  | oraIndy _ => exact behind_ora s past _
  | andImm _ => exact behind_andA s past _
  | andZp _ => exact behind_andA s past _
  | andZpx _ => exact behind_andA s past _
  | andAbs _ => exact behind_andA s past _
  | andAbsx _ => exact behind_andA s past _
  | andAbsy _ => exact behind_andA s past _
  | andIndx _ => exact behind_andA s past _
  | andIndy _ => exact behind_andA s past _
  | eorImm _ => exact behind_eor s past _
  | eorZp _ => exact behind_eor s past _
  | eorZpx _ => exact behind_eor s past _
  | eorAbs _ => exact behind_eor s past _
  | eorAbsx _ => exact behind_eor s past _
  | eorAbsy _ => exact behind_eor s past _
  | eorIndx _ => exact behind_eor s past _
  | eorIndy _ => exact behind_eor s past _
  | bitZp _ => exact behind_bitTest s past _
  | bitAbs _ => exact behind_bitTest s past _
  | aslAcc => exact behind_asl s past .acc
  | aslZp zp => exact behind_asl s past (.mem (.zp zp))
  | aslZpx zp => exact behind_asl s past (.mem (.zpx zp))
  | aslAbs addr => exact behind_asl s past (.mem (.abs addr))
  | aslAbsx addr => exact behind_asl s past (.mem (.absx addr))
  | lsrAcc => exact behind_lsr s past .acc
  | lsrZp zp => exact behind_lsr s past (.mem (.zp zp))
  | lsrZpx zp => exact behind_lsr s past (.mem (.zpx zp))
  | lsrAbs addr => exact behind_lsr s past (.mem (.abs addr))
  | lsrAbsx addr => exact behind_lsr s past (.mem (.absx addr))
  | rolAcc => exact behind_rol s past .acc
  | rolZp zp => exact behind_rol s past (.mem (.zp zp))
  | rolZpx zp => exact behind_rol s past (.mem (.zpx zp))
  | rolAbs addr => exact behind_rol s past (.mem (.abs addr))
  | rolAbsx addr => exact behind_rol s past (.mem (.absx addr))
  | rorAcc => exact behind_ror s past .acc
  | rorZp zp => exact behind_ror s past (.mem (.zp zp))
  | rorZpx zp => exact behind_ror s past (.mem (.zpx zp))
  | rorAbs addr => exact behind_ror s past (.mem (.abs addr))
  | rorAbsx addr => exact behind_ror s past (.mem (.absx addr))
  | cmpImm _ => exact behind_cmp s past _
  | cmpZp _ => exact behind_cmp s past _
  | cmpZpx _ => exact behind_cmp s past _
  | cmpAbs _ => exact behind_cmp s past _
  | cmpAbsx _ => exact behind_cmp s past _
  | cmpAbsy _ => exact behind_cmp s past _
  | cmpIndx _ => exact behind_cmp s past _
  | cmpIndy _ => exact behind_cmp s past _
  | cpxImm _ => exact behind_cpx s past _
  | cpxZp _ => exact behind_cpx s past _
  | cpxAbs _ => exact behind_cpx s past _
  | cpyImm _ => exact behind_cpy s past _
  | cpyZp _ => exact behind_cpy s past _
  | cpyAbs _ => exact behind_cpy s past _
  | pha => exact congrArg (complete 3) (behind_push s past _)
  | pla => exact congrArg (fun r => complete 4 (State.setNZ { r.2 with a := r.1 } r.1)) (behind_pull s past)
  | php => exact congrArg (complete 3) (behind_push s past _)
  | plp => exact congrArg (fun r => complete 4 (State.writeP r.2 r.1)) (behind_pull s past)
  | jsr a => exact congrArg (fun u => complete 6 { u with pc := a }) (behind_pushWord s past _)
  | rts => exact congrArg (fun r => complete 6 { r.2 with pc := r.1 + 1 }) (behind_pullWord s past)
  | bpl _ => exact behind_branchInstr s past _ _
  | bmi _ => exact behind_branchInstr s past _ _
  | bvc _ => exact behind_branchInstr s past _ _
  | bvs _ => exact behind_branchInstr s past _ _
  | bcc _ => exact behind_branchInstr s past _ _
  | bcs _ => exact behind_branchInstr s past _ _
  | bne _ => exact behind_branchInstr s past _ _
  | beq _ => exact behind_branchInstr s past _ _
  | jmpAbs _ => exact rfl
  | jmpInd _ => exact congrArg (complete 5) (behind_jumpIndirect s past _)
  | clc => exact rfl
  | sec => exact rfl
  | cli => exact rfl
  | sei => exact rfl
  | clv => exact rfl
  | cld => exact rfl
  | sed => exact rfl
  | incZp _ => exact behind_inc s past _
  | incZpx _ => exact behind_inc s past _
  | incAbs _ => exact behind_inc s past _
  | incAbsx _ => exact behind_inc s past _
  | decZp _ => exact behind_dec s past _
  | decZpx _ => exact behind_dec s past _
  | decAbs _ => exact behind_dec s past _
  | decAbsx _ => exact behind_dec s past _
  | inx => exact rfl
  | iny => exact rfl
  | dex => exact rfl
  | dey => exact rfl
  | brk => exact congrArg (complete 7) (behind_takeException s past _ _)
  | rti => exact congrArg (complete 6) (behind_returnFromException s past)
  | nop => exact rfl
  | illegal op => exact rfl

/-! What an access adds to the trace. -/

/-- `t` has the trace of `s` and then outputs among which is no `VideoAdvance`. -/
def OnlyAccesses (s t : State) : Prop := ∃ new, t.outputs = new ++ s.outputs ∧ videoCycles new = 0

theorem OnlyAccesses.of_eq {s t : State} (h : t.outputs = s.outputs) : OnlyAccesses s t := ⟨[], h, rfl⟩

theorem videoCycles_append (os ps : List Output) : videoCycles (os ++ ps) = videoCycles os + videoCycles ps := by
  induction os with
  | nil => simp [videoCycles]
  | cons o os ih => cases o <;> simp [videoCycles, ih, Nat.add_assoc]

theorem OnlyAccesses.trans {s t u : State} (h : OnlyAccesses s t) (k : OnlyAccesses t u) : OnlyAccesses s u := by
  obtain ⟨m, hm, zm⟩ := h
  obtain ⟨n, hn, zn⟩ := k
  exact ⟨n ++ m, by rw [hn, hm, List.append_assoc], by rw [videoCycles_append, zm, zn]⟩

section
variable (s : State) (k : ChipId) (t : TimerId)

/-! The timers drive nothing outward. -/

@[simp] theorem outputs_setIcr (f m : BitVec 5) : (s.setIcr k f m).outputs = s.outputs := by
  unfold State.setIcr
  simp only
  split
  · simp
  · split <;> simp

@[simp] theorem outputs_advanceOne (n : Nat) : (s.advanceOne k t n).1.outputs = s.outputs := by
  unfold State.advanceOne
  simp only
  split <;> simp

@[simp] theorem outputs_updateTimer : (s.updateTimer k t).outputs = s.outputs := by
  unfold State.updateTimer State.advanceTimer
  simp only
  split
  · cases t <;> simp only
    · split <;> simp
    · simp
  · rfl

@[simp] theorem outputs_startTimer : (s.startTimer k t).outputs = s.outputs := by
  unfold State.startTimer
  simp only
  split <;> simp

theorem accesses_readReg (r : ChipReg) : OnlyAccesses s (s.readReg k r).2 := by
  cases r with
  | portA => cases h : (s.chip k).pinsA <;> simp only [State.readReg, State.samplePins, h] <;> exact ⟨[_], rfl, rfl⟩
  | portB => cases h : (s.chip k).pinsB <;> simp only [State.readReg, State.samplePins, h] <;> exact ⟨[_], rfl, rfl⟩
  | _ => exact .of_eq (by simp [State.readReg])

theorem accesses_writeReg (r : ChipReg) (v : Byte) : OnlyAccesses s (s.writeReg k r v) := by
  cases r with
  | portA => exact ⟨[_], by simp only [State.writeReg, writePort_eq]; simp; rfl, rfl⟩
  | portB => exact ⟨[_], by simp only [State.writeReg, writePort_eq]; simp; rfl, rfl⟩
  | _ => exact .of_eq (by simp [State.writeReg])

/-- A read drives at most its own access outward (R14, R312). -/
theorem accesses_afterRead (a : Addr) : OnlyAccesses s (s.afterRead a) := by
  unfold State.afterRead State.read State.ioRead
  split <;> try exact .of_eq rfl
  split
  · exact accesses_readReg ..
  · exact ⟨[_], rfl, rfl⟩
  · exact .of_eq rfl

/-- A write drives at most its own access outward (R14, R312). -/
theorem accesses_write (a : Addr) (v : Byte) : OnlyAccesses s (s.write a v) := by
  unfold State.write State.ioWrite
  split <;> try exact .of_eq rfl
  split
  · exact accesses_writeReg ..
  · exact ⟨[_], rfl, rfl⟩
  · exact .of_eq rfl

end

/-- An instruction drives its accesses outward and nothing else (R14). -/
theorem keptByInstr_accesses (s : State) : KeptByInstr (OnlyAccesses s) where
  regs _ _ _ _ _ _ h := h
  flag _ _ _ _ _ h := h
  mask _ _ h := h
  status _ _ h := h
  read u a h := h.trans (accesses_afterRead u a)
  write u a v h := h.trans (accesses_write u a v)

/-- Callbacks drive nothing outward. -/
theorem outputs_serviceDue (s : State) : s.serviceDue.outputs = s.outputs := by
  have h : ∀ n fuel (s : State), (drainDue n fuel s).outputs = s.outputs := by
    intro n fuel
    induction fuel with
    | zero => intro s; rfl
    | succ fuel ih =>
      intro s
      unfold drainDue
      split
      · rfl
      · split
        · rw [ih]; simp [State.timerCallback]
        · rfl
  unfold State.serviceDue
  split
  · exact h ..
  · rfl

end Sys2Proof.Machine
end

