-- ==== Sys2Proof/Laws/PerInstr.lean ====
section
/-! SUPPORT. A statement about every instruction as syntax, constructor by constructor: its encoding has its length, and a format
fixes that length (R101, R102). -/

namespace Sys2Proof.Laws.EncodedLength

/-- The encoding is the opcode byte and the operand bytes its format has, 1 to 3 bytes in all (R100 to R102). -/
def Statement (i : Instr) : Prop :=
  (encode i).head? = some i.opcode ∧ (encode i).length = i.form.format.operandBytes + 1 ∧ i.length = (encode i).length ∧
    i.length ≤ 3

theorem ldaImm (imm : Byte) : Statement (.ldaImm imm) := ⟨rfl, rfl, rfl, Nat.le_of_ble_eq_true rfl⟩
theorem ldaZp (zp : Byte) : Statement (.ldaZp zp) := ⟨rfl, rfl, rfl, Nat.le_of_ble_eq_true rfl⟩
theorem ldaZpx (zp : Byte) : Statement (.ldaZpx zp) := ⟨rfl, rfl, rfl, Nat.le_of_ble_eq_true rfl⟩
theorem ldaAbs (addr : Addr) : Statement (.ldaAbs addr) := ⟨rfl, rfl, rfl, Nat.le_of_ble_eq_true rfl⟩
theorem ldaAbsx (addr : Addr) : Statement (.ldaAbsx addr) := ⟨rfl, rfl, rfl, Nat.le_of_ble_eq_true rfl⟩
theorem ldaAbsy (addr : Addr) : Statement (.ldaAbsy addr) := ⟨rfl, rfl, rfl, Nat.le_of_ble_eq_true rfl⟩
theorem ldaIndx (zp : Byte) : Statement (.ldaIndx zp) := ⟨rfl, rfl, rfl, Nat.le_of_ble_eq_true rfl⟩
theorem ldaIndy (zp : Byte) : Statement (.ldaIndy zp) := ⟨rfl, rfl, rfl, Nat.le_of_ble_eq_true rfl⟩
theorem ldxImm (imm : Byte) : Statement (.ldxImm imm) := ⟨rfl, rfl, rfl, Nat.le_of_ble_eq_true rfl⟩
theorem ldxZp (zp : Byte) : Statement (.ldxZp zp) := ⟨rfl, rfl, rfl, Nat.le_of_ble_eq_true rfl⟩
theorem ldxZpy (zp : Byte) : Statement (.ldxZpy zp) := ⟨rfl, rfl, rfl, Nat.le_of_ble_eq_true rfl⟩
theorem ldxAbs (addr : Addr) : Statement (.ldxAbs addr) := ⟨rfl, rfl, rfl, Nat.le_of_ble_eq_true rfl⟩
theorem ldxAbsy (addr : Addr) : Statement (.ldxAbsy addr) := ⟨rfl, rfl, rfl, Nat.le_of_ble_eq_true rfl⟩
theorem ldyImm (imm : Byte) : Statement (.ldyImm imm) := ⟨rfl, rfl, rfl, Nat.le_of_ble_eq_true rfl⟩
theorem ldyZp (zp : Byte) : Statement (.ldyZp zp) := ⟨rfl, rfl, rfl, Nat.le_of_ble_eq_true rfl⟩
theorem ldyZpx (zp : Byte) : Statement (.ldyZpx zp) := ⟨rfl, rfl, rfl, Nat.le_of_ble_eq_true rfl⟩
theorem ldyAbs (addr : Addr) : Statement (.ldyAbs addr) := ⟨rfl, rfl, rfl, Nat.le_of_ble_eq_true rfl⟩
theorem ldyAbsx (addr : Addr) : Statement (.ldyAbsx addr) := ⟨rfl, rfl, rfl, Nat.le_of_ble_eq_true rfl⟩
theorem staZp (zp : Byte) : Statement (.staZp zp) := ⟨rfl, rfl, rfl, Nat.le_of_ble_eq_true rfl⟩
theorem staZpx (zp : Byte) : Statement (.staZpx zp) := ⟨rfl, rfl, rfl, Nat.le_of_ble_eq_true rfl⟩
theorem staAbs (addr : Addr) : Statement (.staAbs addr) := ⟨rfl, rfl, rfl, Nat.le_of_ble_eq_true rfl⟩
theorem staAbsx (addr : Addr) : Statement (.staAbsx addr) := ⟨rfl, rfl, rfl, Nat.le_of_ble_eq_true rfl⟩
theorem staAbsy (addr : Addr) : Statement (.staAbsy addr) := ⟨rfl, rfl, rfl, Nat.le_of_ble_eq_true rfl⟩
theorem staIndx (zp : Byte) : Statement (.staIndx zp) := ⟨rfl, rfl, rfl, Nat.le_of_ble_eq_true rfl⟩
theorem staIndy (zp : Byte) : Statement (.staIndy zp) := ⟨rfl, rfl, rfl, Nat.le_of_ble_eq_true rfl⟩
theorem stxZp (zp : Byte) : Statement (.stxZp zp) := ⟨rfl, rfl, rfl, Nat.le_of_ble_eq_true rfl⟩
theorem stxZpy (zp : Byte) : Statement (.stxZpy zp) := ⟨rfl, rfl, rfl, Nat.le_of_ble_eq_true rfl⟩
theorem stxAbs (addr : Addr) : Statement (.stxAbs addr) := ⟨rfl, rfl, rfl, Nat.le_of_ble_eq_true rfl⟩
theorem styZp (zp : Byte) : Statement (.styZp zp) := ⟨rfl, rfl, rfl, Nat.le_of_ble_eq_true rfl⟩
theorem styZpx (zp : Byte) : Statement (.styZpx zp) := ⟨rfl, rfl, rfl, Nat.le_of_ble_eq_true rfl⟩
theorem styAbs (addr : Addr) : Statement (.styAbs addr) := ⟨rfl, rfl, rfl, Nat.le_of_ble_eq_true rfl⟩
theorem tax : Statement (.tax) := ⟨rfl, rfl, rfl, Nat.le_of_ble_eq_true rfl⟩
theorem tay : Statement (.tay) := ⟨rfl, rfl, rfl, Nat.le_of_ble_eq_true rfl⟩
theorem txa : Statement (.txa) := ⟨rfl, rfl, rfl, Nat.le_of_ble_eq_true rfl⟩
theorem tya : Statement (.tya) := ⟨rfl, rfl, rfl, Nat.le_of_ble_eq_true rfl⟩
theorem tsx : Statement (.tsx) := ⟨rfl, rfl, rfl, Nat.le_of_ble_eq_true rfl⟩
theorem txs : Statement (.txs) := ⟨rfl, rfl, rfl, Nat.le_of_ble_eq_true rfl⟩
theorem adcImm (imm : Byte) : Statement (.adcImm imm) := ⟨rfl, rfl, rfl, Nat.le_of_ble_eq_true rfl⟩
theorem adcZp (zp : Byte) : Statement (.adcZp zp) := ⟨rfl, rfl, rfl, Nat.le_of_ble_eq_true rfl⟩
theorem adcZpx (zp : Byte) : Statement (.adcZpx zp) := ⟨rfl, rfl, rfl, Nat.le_of_ble_eq_true rfl⟩
theorem adcAbs (addr : Addr) : Statement (.adcAbs addr) := ⟨rfl, rfl, rfl, Nat.le_of_ble_eq_true rfl⟩
theorem adcAbsx (addr : Addr) : Statement (.adcAbsx addr) := ⟨rfl, rfl, rfl, Nat.le_of_ble_eq_true rfl⟩
theorem adcAbsy (addr : Addr) : Statement (.adcAbsy addr) := ⟨rfl, rfl, rfl, Nat.le_of_ble_eq_true rfl⟩
theorem adcIndx (zp : Byte) : Statement (.adcIndx zp) := ⟨rfl, rfl, rfl, Nat.le_of_ble_eq_true rfl⟩
theorem adcIndy (zp : Byte) : Statement (.adcIndy zp) := ⟨rfl, rfl, rfl, Nat.le_of_ble_eq_true rfl⟩
theorem sbcImm (imm : Byte) : Statement (.sbcImm imm) := ⟨rfl, rfl, rfl, Nat.le_of_ble_eq_true rfl⟩
theorem sbcZp (zp : Byte) : Statement (.sbcZp zp) := ⟨rfl, rfl, rfl, Nat.le_of_ble_eq_true rfl⟩
theorem sbcZpx (zp : Byte) : Statement (.sbcZpx zp) := ⟨rfl, rfl, rfl, Nat.le_of_ble_eq_true rfl⟩
theorem sbcAbs (addr : Addr) : Statement (.sbcAbs addr) := ⟨rfl, rfl, rfl, Nat.le_of_ble_eq_true rfl⟩
theorem sbcAbsx (addr : Addr) : Statement (.sbcAbsx addr) := ⟨rfl, rfl, rfl, Nat.le_of_ble_eq_true rfl⟩
theorem sbcAbsy (addr : Addr) : Statement (.sbcAbsy addr) := ⟨rfl, rfl, rfl, Nat.le_of_ble_eq_true rfl⟩
theorem sbcIndx (zp : Byte) : Statement (.sbcIndx zp) := ⟨rfl, rfl, rfl, Nat.le_of_ble_eq_true rfl⟩
theorem sbcIndy (zp : Byte) : Statement (.sbcIndy zp) := ⟨rfl, rfl, rfl, Nat.le_of_ble_eq_true rfl⟩
theorem oraImm (imm : Byte) : Statement (.oraImm imm) := ⟨rfl, rfl, rfl, Nat.le_of_ble_eq_true rfl⟩
theorem oraZp (zp : Byte) : Statement (.oraZp zp) := ⟨rfl, rfl, rfl, Nat.le_of_ble_eq_true rfl⟩
theorem oraZpx (zp : Byte) : Statement (.oraZpx zp) := ⟨rfl, rfl, rfl, Nat.le_of_ble_eq_true rfl⟩
theorem oraAbs (addr : Addr) : Statement (.oraAbs addr) := ⟨rfl, rfl, rfl, Nat.le_of_ble_eq_true rfl⟩
theorem oraAbsx (addr : Addr) : Statement (.oraAbsx addr) := ⟨rfl, rfl, rfl, Nat.le_of_ble_eq_true rfl⟩
theorem oraAbsy (addr : Addr) : Statement (.oraAbsy addr) := ⟨rfl, rfl, rfl, Nat.le_of_ble_eq_true rfl⟩
theorem oraIndx (zp : Byte) : Statement (.oraIndx zp) := ⟨rfl, rfl, rfl, Nat.le_of_ble_eq_true rfl⟩
theorem oraIndy (zp : Byte) : Statement (.oraIndy zp) := ⟨rfl, rfl, rfl, Nat.le_of_ble_eq_true rfl⟩
theorem andImm (imm : Byte) : Statement (.andImm imm) := ⟨rfl, rfl, rfl, Nat.le_of_ble_eq_true rfl⟩
theorem andZp (zp : Byte) : Statement (.andZp zp) := ⟨rfl, rfl, rfl, Nat.le_of_ble_eq_true rfl⟩
theorem andZpx (zp : Byte) : Statement (.andZpx zp) := ⟨rfl, rfl, rfl, Nat.le_of_ble_eq_true rfl⟩
theorem andAbs (addr : Addr) : Statement (.andAbs addr) := ⟨rfl, rfl, rfl, Nat.le_of_ble_eq_true rfl⟩
theorem andAbsx (addr : Addr) : Statement (.andAbsx addr) := ⟨rfl, rfl, rfl, Nat.le_of_ble_eq_true rfl⟩
theorem andAbsy (addr : Addr) : Statement (.andAbsy addr) := ⟨rfl, rfl, rfl, Nat.le_of_ble_eq_true rfl⟩
theorem andIndx (zp : Byte) : Statement (.andIndx zp) := ⟨rfl, rfl, rfl, Nat.le_of_ble_eq_true rfl⟩
theorem andIndy (zp : Byte) : Statement (.andIndy zp) := ⟨rfl, rfl, rfl, Nat.le_of_ble_eq_true rfl⟩
theorem eorImm (imm : Byte) : Statement (.eorImm imm) := ⟨rfl, rfl, rfl, Nat.le_of_ble_eq_true rfl⟩
theorem eorZp (zp : Byte) : Statement (.eorZp zp) := ⟨rfl, rfl, rfl, Nat.le_of_ble_eq_true rfl⟩
theorem eorZpx (zp : Byte) : Statement (.eorZpx zp) := ⟨rfl, rfl, rfl, Nat.le_of_ble_eq_true rfl⟩
theorem eorAbs (addr : Addr) : Statement (.eorAbs addr) := ⟨rfl, rfl, rfl, Nat.le_of_ble_eq_true rfl⟩
theorem eorAbsx (addr : Addr) : Statement (.eorAbsx addr) := ⟨rfl, rfl, rfl, Nat.le_of_ble_eq_true rfl⟩
theorem eorAbsy (addr : Addr) : Statement (.eorAbsy addr) := ⟨rfl, rfl, rfl, Nat.le_of_ble_eq_true rfl⟩
theorem eorIndx (zp : Byte) : Statement (.eorIndx zp) := ⟨rfl, rfl, rfl, Nat.le_of_ble_eq_true rfl⟩
theorem eorIndy (zp : Byte) : Statement (.eorIndy zp) := ⟨rfl, rfl, rfl, Nat.le_of_ble_eq_true rfl⟩
theorem bitZp (zp : Byte) : Statement (.bitZp zp) := ⟨rfl, rfl, rfl, Nat.le_of_ble_eq_true rfl⟩
theorem bitAbs (addr : Addr) : Statement (.bitAbs addr) := ⟨rfl, rfl, rfl, Nat.le_of_ble_eq_true rfl⟩
theorem aslAcc : Statement (.aslAcc) := ⟨rfl, rfl, rfl, Nat.le_of_ble_eq_true rfl⟩
theorem aslZp (zp : Byte) : Statement (.aslZp zp) := ⟨rfl, rfl, rfl, Nat.le_of_ble_eq_true rfl⟩
theorem aslZpx (zp : Byte) : Statement (.aslZpx zp) := ⟨rfl, rfl, rfl, Nat.le_of_ble_eq_true rfl⟩
theorem aslAbs (addr : Addr) : Statement (.aslAbs addr) := ⟨rfl, rfl, rfl, Nat.le_of_ble_eq_true rfl⟩
theorem aslAbsx (addr : Addr) : Statement (.aslAbsx addr) := ⟨rfl, rfl, rfl, Nat.le_of_ble_eq_true rfl⟩
theorem lsrAcc : Statement (.lsrAcc) := ⟨rfl, rfl, rfl, Nat.le_of_ble_eq_true rfl⟩
theorem lsrZp (zp : Byte) : Statement (.lsrZp zp) := ⟨rfl, rfl, rfl, Nat.le_of_ble_eq_true rfl⟩
theorem lsrZpx (zp : Byte) : Statement (.lsrZpx zp) := ⟨rfl, rfl, rfl, Nat.le_of_ble_eq_true rfl⟩
theorem lsrAbs (addr : Addr) : Statement (.lsrAbs addr) := ⟨rfl, rfl, rfl, Nat.le_of_ble_eq_true rfl⟩
theorem lsrAbsx (addr : Addr) : Statement (.lsrAbsx addr) := ⟨rfl, rfl, rfl, Nat.le_of_ble_eq_true rfl⟩
theorem rolAcc : Statement (.rolAcc) := ⟨rfl, rfl, rfl, Nat.le_of_ble_eq_true rfl⟩
theorem rolZp (zp : Byte) : Statement (.rolZp zp) := ⟨rfl, rfl, rfl, Nat.le_of_ble_eq_true rfl⟩
theorem rolZpx (zp : Byte) : Statement (.rolZpx zp) := ⟨rfl, rfl, rfl, Nat.le_of_ble_eq_true rfl⟩
theorem rolAbs (addr : Addr) : Statement (.rolAbs addr) := ⟨rfl, rfl, rfl, Nat.le_of_ble_eq_true rfl⟩
theorem rolAbsx (addr : Addr) : Statement (.rolAbsx addr) := ⟨rfl, rfl, rfl, Nat.le_of_ble_eq_true rfl⟩
theorem rorAcc : Statement (.rorAcc) := ⟨rfl, rfl, rfl, Nat.le_of_ble_eq_true rfl⟩
theorem rorZp (zp : Byte) : Statement (.rorZp zp) := ⟨rfl, rfl, rfl, Nat.le_of_ble_eq_true rfl⟩
theorem rorZpx (zp : Byte) : Statement (.rorZpx zp) := ⟨rfl, rfl, rfl, Nat.le_of_ble_eq_true rfl⟩
theorem rorAbs (addr : Addr) : Statement (.rorAbs addr) := ⟨rfl, rfl, rfl, Nat.le_of_ble_eq_true rfl⟩
theorem rorAbsx (addr : Addr) : Statement (.rorAbsx addr) := ⟨rfl, rfl, rfl, Nat.le_of_ble_eq_true rfl⟩
theorem cmpImm (imm : Byte) : Statement (.cmpImm imm) := ⟨rfl, rfl, rfl, Nat.le_of_ble_eq_true rfl⟩
theorem cmpZp (zp : Byte) : Statement (.cmpZp zp) := ⟨rfl, rfl, rfl, Nat.le_of_ble_eq_true rfl⟩
theorem cmpZpx (zp : Byte) : Statement (.cmpZpx zp) := ⟨rfl, rfl, rfl, Nat.le_of_ble_eq_true rfl⟩
theorem cmpAbs (addr : Addr) : Statement (.cmpAbs addr) := ⟨rfl, rfl, rfl, Nat.le_of_ble_eq_true rfl⟩
theorem cmpAbsx (addr : Addr) : Statement (.cmpAbsx addr) := ⟨rfl, rfl, rfl, Nat.le_of_ble_eq_true rfl⟩
theorem cmpAbsy (addr : Addr) : Statement (.cmpAbsy addr) := ⟨rfl, rfl, rfl, Nat.le_of_ble_eq_true rfl⟩
theorem cmpIndx (zp : Byte) : Statement (.cmpIndx zp) := ⟨rfl, rfl, rfl, Nat.le_of_ble_eq_true rfl⟩
theorem cmpIndy (zp : Byte) : Statement (.cmpIndy zp) := ⟨rfl, rfl, rfl, Nat.le_of_ble_eq_true rfl⟩
theorem cpxImm (imm : Byte) : Statement (.cpxImm imm) := ⟨rfl, rfl, rfl, Nat.le_of_ble_eq_true rfl⟩
theorem cpxZp (zp : Byte) : Statement (.cpxZp zp) := ⟨rfl, rfl, rfl, Nat.le_of_ble_eq_true rfl⟩
theorem cpxAbs (addr : Addr) : Statement (.cpxAbs addr) := ⟨rfl, rfl, rfl, Nat.le_of_ble_eq_true rfl⟩
theorem cpyImm (imm : Byte) : Statement (.cpyImm imm) := ⟨rfl, rfl, rfl, Nat.le_of_ble_eq_true rfl⟩
theorem cpyZp (zp : Byte) : Statement (.cpyZp zp) := ⟨rfl, rfl, rfl, Nat.le_of_ble_eq_true rfl⟩
theorem cpyAbs (addr : Addr) : Statement (.cpyAbs addr) := ⟨rfl, rfl, rfl, Nat.le_of_ble_eq_true rfl⟩
theorem pha : Statement (.pha) := ⟨rfl, rfl, rfl, Nat.le_of_ble_eq_true rfl⟩
theorem pla : Statement (.pla) := ⟨rfl, rfl, rfl, Nat.le_of_ble_eq_true rfl⟩
theorem php : Statement (.php) := ⟨rfl, rfl, rfl, Nat.le_of_ble_eq_true rfl⟩
theorem plp : Statement (.plp) := ⟨rfl, rfl, rfl, Nat.le_of_ble_eq_true rfl⟩
theorem jsr (addr : Addr) : Statement (.jsr addr) := ⟨rfl, rfl, rfl, Nat.le_of_ble_eq_true rfl⟩
theorem rts : Statement (.rts) := ⟨rfl, rfl, rfl, Nat.le_of_ble_eq_true rfl⟩
theorem bpl (off : Byte) : Statement (.bpl off) := ⟨rfl, rfl, rfl, Nat.le_of_ble_eq_true rfl⟩
theorem bmi (off : Byte) : Statement (.bmi off) := ⟨rfl, rfl, rfl, Nat.le_of_ble_eq_true rfl⟩
theorem bvc (off : Byte) : Statement (.bvc off) := ⟨rfl, rfl, rfl, Nat.le_of_ble_eq_true rfl⟩
theorem bvs (off : Byte) : Statement (.bvs off) := ⟨rfl, rfl, rfl, Nat.le_of_ble_eq_true rfl⟩
theorem bcc (off : Byte) : Statement (.bcc off) := ⟨rfl, rfl, rfl, Nat.le_of_ble_eq_true rfl⟩
theorem bcs (off : Byte) : Statement (.bcs off) := ⟨rfl, rfl, rfl, Nat.le_of_ble_eq_true rfl⟩
theorem bne (off : Byte) : Statement (.bne off) := ⟨rfl, rfl, rfl, Nat.le_of_ble_eq_true rfl⟩
theorem beq (off : Byte) : Statement (.beq off) := ⟨rfl, rfl, rfl, Nat.le_of_ble_eq_true rfl⟩
theorem jmpAbs (addr : Addr) : Statement (.jmpAbs addr) := ⟨rfl, rfl, rfl, Nat.le_of_ble_eq_true rfl⟩
theorem jmpInd (ptr : Addr) : Statement (.jmpInd ptr) := ⟨rfl, rfl, rfl, Nat.le_of_ble_eq_true rfl⟩
theorem clc : Statement (.clc) := ⟨rfl, rfl, rfl, Nat.le_of_ble_eq_true rfl⟩
theorem sec : Statement (.sec) := ⟨rfl, rfl, rfl, Nat.le_of_ble_eq_true rfl⟩
theorem cli : Statement (.cli) := ⟨rfl, rfl, rfl, Nat.le_of_ble_eq_true rfl⟩
theorem sei : Statement (.sei) := ⟨rfl, rfl, rfl, Nat.le_of_ble_eq_true rfl⟩
theorem clv : Statement (.clv) := ⟨rfl, rfl, rfl, Nat.le_of_ble_eq_true rfl⟩
theorem cld : Statement (.cld) := ⟨rfl, rfl, rfl, Nat.le_of_ble_eq_true rfl⟩
theorem sed : Statement (.sed) := ⟨rfl, rfl, rfl, Nat.le_of_ble_eq_true rfl⟩
theorem incZp (zp : Byte) : Statement (.incZp zp) := ⟨rfl, rfl, rfl, Nat.le_of_ble_eq_true rfl⟩
theorem incZpx (zp : Byte) : Statement (.incZpx zp) := ⟨rfl, rfl, rfl, Nat.le_of_ble_eq_true rfl⟩
theorem incAbs (addr : Addr) : Statement (.incAbs addr) := ⟨rfl, rfl, rfl, Nat.le_of_ble_eq_true rfl⟩
theorem incAbsx (addr : Addr) : Statement (.incAbsx addr) := ⟨rfl, rfl, rfl, Nat.le_of_ble_eq_true rfl⟩
theorem decZp (zp : Byte) : Statement (.decZp zp) := ⟨rfl, rfl, rfl, Nat.le_of_ble_eq_true rfl⟩
theorem decZpx (zp : Byte) : Statement (.decZpx zp) := ⟨rfl, rfl, rfl, Nat.le_of_ble_eq_true rfl⟩
theorem decAbs (addr : Addr) : Statement (.decAbs addr) := ⟨rfl, rfl, rfl, Nat.le_of_ble_eq_true rfl⟩
theorem decAbsx (addr : Addr) : Statement (.decAbsx addr) := ⟨rfl, rfl, rfl, Nat.le_of_ble_eq_true rfl⟩
theorem inx : Statement (.inx) := ⟨rfl, rfl, rfl, Nat.le_of_ble_eq_true rfl⟩
theorem iny : Statement (.iny) := ⟨rfl, rfl, rfl, Nat.le_of_ble_eq_true rfl⟩
theorem dex : Statement (.dex) := ⟨rfl, rfl, rfl, Nat.le_of_ble_eq_true rfl⟩
theorem dey : Statement (.dey) := ⟨rfl, rfl, rfl, Nat.le_of_ble_eq_true rfl⟩
theorem brk : Statement (.brk) := ⟨rfl, rfl, rfl, Nat.le_of_ble_eq_true rfl⟩
theorem rti : Statement (.rti) := ⟨rfl, rfl, rfl, Nat.le_of_ble_eq_true rfl⟩
theorem nop : Statement (.nop) := ⟨rfl, rfl, rfl, Nat.le_of_ble_eq_true rfl⟩
theorem illegal (op : Byte) : Statement (.illegal op) := ⟨rfl, rfl, rfl, Nat.le_of_ble_eq_true rfl⟩

end Sys2Proof.Laws.EncodedLength
end

