-- ==== Sys2Proof/Tests/Slice0.lean ====
section
/-! SUPPORT. Tests: well-formedness, decoding by words written out from the spec's grid, single steps of spec/95_test_vectors.md,
device sequences of spec/96_test_sequences.md, and a witness for the hypotheses of every statement that has some. -/

namespace Sys2Proof.Tests

open Sys2Proof.Machine

/- One theorem at a time: each check below runs the machine, and a hundred at once need a stack each. -/
set_option Elab.async false

/-! Well-formedness: the one check is that an ILLEGAL row carries an unassigned opcode. -/

theorem test_wf_refuses_assigned_illegal : (Instr.illegal 0xA9).wf = false := by decide
theorem test_wf_refuses_illegal_brk : (Instr.illegal 0x00).wf = false := by decide
theorem test_wf_accepts_unassigned_illegal : (Instr.illegal 0xFF).wf = true := by decide
theorem test_wf_accepts_assigned : (Instr.ldaImm 0x80).wf = true := by decide

/-! Decoding. Expected words: the grid R105 and the formats R101. -/

/-- Each word decodes to its instruction with nothing left, and is the instruction's encoding. -/
def decodesAll (rows : List (List Byte × Instr)) : Bool :=
  rows.all fun r =>
    (match decode r.1 with | .ok (i, rest) => i == r.2 && rest.isEmpty | .error _ => false) && encode r.2 == r.1

/-- Opcode bits of the grid R105, operand bytes 0x34 0x12 low byte first (R101, R103). -/
theorem test_decode_load_store_transfer_1 : decodesAll
  [([0b10000001#8, 0x34#8], Instr.staIndx 0x34#8), ([0b10000100#8, 0x34#8], Instr.styZp 0x34#8),
   ([0b10000101#8, 0x34#8], Instr.staZp 0x34#8), ([0b10000110#8, 0x34#8], Instr.stxZp 0x34#8),
   ([0b10001010#8], Instr.txa), ([0b10001100#8, 0x34#8, 0x12#8], Instr.styAbs 0x1234#16),
   ([0b10001101#8, 0x34#8, 0x12#8], Instr.staAbs 0x1234#16), ([0b10001110#8, 0x34#8, 0x12#8], Instr.stxAbs 0x1234#16),
   ([0b10010001#8, 0x34#8], Instr.staIndy 0x34#8), ([0b10010100#8, 0x34#8], Instr.styZpx 0x34#8),
   ([0b10010101#8, 0x34#8], Instr.staZpx 0x34#8), ([0b10010110#8, 0x34#8], Instr.stxZpy 0x34#8),
   ([0b10011000#8], Instr.tya), ([0b10011001#8, 0x34#8, 0x12#8], Instr.staAbsy 0x1234#16),
   ([0b10011010#8], Instr.txs), ([0b10011101#8, 0x34#8, 0x12#8], Instr.staAbsx 0x1234#16),
   ([0b10100000#8, 0x34#8], Instr.ldyImm 0x34#8), ([0b10100001#8, 0x34#8], Instr.ldaIndx 0x34#8),
   ([0b10100010#8, 0x34#8], Instr.ldxImm 0x34#8), ([0b10100100#8, 0x34#8], Instr.ldyZp 0x34#8)] = true := by
  decide +kernel

/-- Opcode bits of the grid R105, operand bytes 0x34 0x12 low byte first (R101, R103). -/
theorem test_decode_load_store_transfer_2 : decodesAll
  [([0b10100101#8, 0x34#8], Instr.ldaZp 0x34#8), ([0b10100110#8, 0x34#8], Instr.ldxZp 0x34#8),
   ([0b10101000#8], Instr.tay), ([0b10101001#8, 0x34#8], Instr.ldaImm 0x34#8),
   ([0b10101010#8], Instr.tax), ([0b10101100#8, 0x34#8, 0x12#8], Instr.ldyAbs 0x1234#16),
   ([0b10101101#8, 0x34#8, 0x12#8], Instr.ldaAbs 0x1234#16), ([0b10101110#8, 0x34#8, 0x12#8], Instr.ldxAbs 0x1234#16),
   ([0b10110001#8, 0x34#8], Instr.ldaIndy 0x34#8), ([0b10110100#8, 0x34#8], Instr.ldyZpx 0x34#8),
   ([0b10110101#8, 0x34#8], Instr.ldaZpx 0x34#8), ([0b10110110#8, 0x34#8], Instr.ldxZpy 0x34#8),
   ([0b10111001#8, 0x34#8, 0x12#8], Instr.ldaAbsy 0x1234#16), ([0b10111010#8], Instr.tsx),
   ([0b10111100#8, 0x34#8, 0x12#8], Instr.ldyAbsx 0x1234#16), ([0b10111101#8, 0x34#8, 0x12#8], Instr.ldaAbsx 0x1234#16),
   ([0b10111110#8, 0x34#8, 0x12#8], Instr.ldxAbsy 0x1234#16)] = true := by
  decide +kernel

/-- Opcode bits of the grid R105, operand bytes 0x34 0x12 low byte first (R101, R103). -/
theorem test_decode_arithmetic : decodesAll
  [([0b01100001#8, 0x34#8], Instr.adcIndx 0x34#8), ([0b01100101#8, 0x34#8], Instr.adcZp 0x34#8),
   ([0b01101001#8, 0x34#8], Instr.adcImm 0x34#8), ([0b01101101#8, 0x34#8, 0x12#8], Instr.adcAbs 0x1234#16),
   ([0b01110001#8, 0x34#8], Instr.adcIndy 0x34#8), ([0b01110101#8, 0x34#8], Instr.adcZpx 0x34#8),
   ([0b01111001#8, 0x34#8, 0x12#8], Instr.adcAbsy 0x1234#16), ([0b01111101#8, 0x34#8, 0x12#8], Instr.adcAbsx 0x1234#16),
   ([0b11100001#8, 0x34#8], Instr.sbcIndx 0x34#8), ([0b11100101#8, 0x34#8], Instr.sbcZp 0x34#8),
   ([0b11101001#8, 0x34#8], Instr.sbcImm 0x34#8), ([0b11101101#8, 0x34#8, 0x12#8], Instr.sbcAbs 0x1234#16),
   ([0b11110001#8, 0x34#8], Instr.sbcIndy 0x34#8), ([0b11110101#8, 0x34#8], Instr.sbcZpx 0x34#8),
   ([0b11111001#8, 0x34#8, 0x12#8], Instr.sbcAbsy 0x1234#16), ([0b11111101#8, 0x34#8, 0x12#8], Instr.sbcAbsx 0x1234#16)] = true := by
  decide +kernel

/-- Opcode bits of the grid R105, operand bytes 0x34 0x12 low byte first (R101, R103). -/
theorem test_decode_logical_1 : decodesAll
  [([0b00000001#8, 0x34#8], Instr.oraIndx 0x34#8), ([0b00000101#8, 0x34#8], Instr.oraZp 0x34#8),
   ([0b00001001#8, 0x34#8], Instr.oraImm 0x34#8), ([0b00001101#8, 0x34#8, 0x12#8], Instr.oraAbs 0x1234#16),
   ([0b00010001#8, 0x34#8], Instr.oraIndy 0x34#8), ([0b00010101#8, 0x34#8], Instr.oraZpx 0x34#8),
   ([0b00011001#8, 0x34#8, 0x12#8], Instr.oraAbsy 0x1234#16), ([0b00011101#8, 0x34#8, 0x12#8], Instr.oraAbsx 0x1234#16),
   ([0b00100001#8, 0x34#8], Instr.andIndx 0x34#8), ([0b00100100#8, 0x34#8], Instr.bitZp 0x34#8),
   ([0b00100101#8, 0x34#8], Instr.andZp 0x34#8), ([0b00101001#8, 0x34#8], Instr.andImm 0x34#8),
   ([0b00101100#8, 0x34#8, 0x12#8], Instr.bitAbs 0x1234#16), ([0b00101101#8, 0x34#8, 0x12#8], Instr.andAbs 0x1234#16),
   ([0b00110001#8, 0x34#8], Instr.andIndy 0x34#8), ([0b00110101#8, 0x34#8], Instr.andZpx 0x34#8),
   ([0b00111001#8, 0x34#8, 0x12#8], Instr.andAbsy 0x1234#16), ([0b00111101#8, 0x34#8, 0x12#8], Instr.andAbsx 0x1234#16),
   ([0b01000001#8, 0x34#8], Instr.eorIndx 0x34#8), ([0b01000101#8, 0x34#8], Instr.eorZp 0x34#8)] = true := by
  decide +kernel

/-- Opcode bits of the grid R105, operand bytes 0x34 0x12 low byte first (R101, R103). -/
theorem test_decode_logical_2 : decodesAll
  [([0b01001001#8, 0x34#8], Instr.eorImm 0x34#8), ([0b01001101#8, 0x34#8, 0x12#8], Instr.eorAbs 0x1234#16),
   ([0b01010001#8, 0x34#8], Instr.eorIndy 0x34#8), ([0b01010101#8, 0x34#8], Instr.eorZpx 0x34#8),
   ([0b01011001#8, 0x34#8, 0x12#8], Instr.eorAbsy 0x1234#16), ([0b01011101#8, 0x34#8, 0x12#8], Instr.eorAbsx 0x1234#16)] = true := by
  decide +kernel

/-- Opcode bits of the grid R105, operand bytes 0x34 0x12 low byte first (R101, R103). -/
theorem test_decode_shift_rotate : decodesAll
  [([0b00000110#8, 0x34#8], Instr.aslZp 0x34#8), ([0b00001010#8], Instr.aslAcc),
   ([0b00001110#8, 0x34#8, 0x12#8], Instr.aslAbs 0x1234#16), ([0b00010110#8, 0x34#8], Instr.aslZpx 0x34#8),
   ([0b00011110#8, 0x34#8, 0x12#8], Instr.aslAbsx 0x1234#16), ([0b00100110#8, 0x34#8], Instr.rolZp 0x34#8),
   ([0b00101010#8], Instr.rolAcc), ([0b00101110#8, 0x34#8, 0x12#8], Instr.rolAbs 0x1234#16),
   ([0b00110110#8, 0x34#8], Instr.rolZpx 0x34#8), ([0b00111110#8, 0x34#8, 0x12#8], Instr.rolAbsx 0x1234#16),
   ([0b01000110#8, 0x34#8], Instr.lsrZp 0x34#8), ([0b01001010#8], Instr.lsrAcc),
   ([0b01001110#8, 0x34#8, 0x12#8], Instr.lsrAbs 0x1234#16), ([0b01010110#8, 0x34#8], Instr.lsrZpx 0x34#8),
   ([0b01011110#8, 0x34#8, 0x12#8], Instr.lsrAbsx 0x1234#16), ([0b01100110#8, 0x34#8], Instr.rorZp 0x34#8),
   ([0b01101010#8], Instr.rorAcc), ([0b01101110#8, 0x34#8, 0x12#8], Instr.rorAbs 0x1234#16),
   ([0b01110110#8, 0x34#8], Instr.rorZpx 0x34#8), ([0b01111110#8, 0x34#8, 0x12#8], Instr.rorAbsx 0x1234#16)] = true := by
  decide +kernel

/-- Opcode bits of the grid R105, operand bytes 0x34 0x12 low byte first (R101, R103). -/
theorem test_decode_compare : decodesAll
  [([0b11000000#8, 0x34#8], Instr.cpyImm 0x34#8), ([0b11000001#8, 0x34#8], Instr.cmpIndx 0x34#8),
   ([0b11000100#8, 0x34#8], Instr.cpyZp 0x34#8), ([0b11000101#8, 0x34#8], Instr.cmpZp 0x34#8),
   ([0b11001001#8, 0x34#8], Instr.cmpImm 0x34#8), ([0b11001100#8, 0x34#8, 0x12#8], Instr.cpyAbs 0x1234#16),
   ([0b11001101#8, 0x34#8, 0x12#8], Instr.cmpAbs 0x1234#16), ([0b11010001#8, 0x34#8], Instr.cmpIndy 0x34#8),
   ([0b11010101#8, 0x34#8], Instr.cmpZpx 0x34#8), ([0b11011001#8, 0x34#8, 0x12#8], Instr.cmpAbsy 0x1234#16),
   ([0b11011101#8, 0x34#8, 0x12#8], Instr.cmpAbsx 0x1234#16), ([0b11100000#8, 0x34#8], Instr.cpxImm 0x34#8),
   ([0b11100100#8, 0x34#8], Instr.cpxZp 0x34#8), ([0b11101100#8, 0x34#8, 0x12#8], Instr.cpxAbs 0x1234#16)] = true := by
  decide +kernel

/-- Opcode bits of the grid R105, operand bytes 0x34 0x12 low byte first (R101, R103). -/
theorem test_decode_stack_and_subroutine : decodesAll
  [([0b00001000#8], Instr.php), ([0b00100000#8, 0x34#8, 0x12#8], Instr.jsr 0x1234#16),
   ([0b00101000#8], Instr.plp), ([0b01001000#8], Instr.pha),
   ([0b01100000#8], Instr.rts), ([0b01101000#8], Instr.pla)] = true := by
  decide +kernel

/-- Opcode bits of the grid R105, operand bytes 0x34 0x12 low byte first (R101, R103). -/
theorem test_decode_branch_and_jump : decodesAll
  [([0b00010000#8, 0x34#8], Instr.bpl 0x34#8), ([0b00110000#8, 0x34#8], Instr.bmi 0x34#8),
   ([0b01001100#8, 0x34#8, 0x12#8], Instr.jmpAbs 0x1234#16), ([0b01010000#8, 0x34#8], Instr.bvc 0x34#8),
   ([0b01101100#8, 0x34#8, 0x12#8], Instr.jmpInd 0x1234#16), ([0b01110000#8, 0x34#8], Instr.bvs 0x34#8),
   ([0b10010000#8, 0x34#8], Instr.bcc 0x34#8), ([0b10110000#8, 0x34#8], Instr.bcs 0x34#8),
   ([0b11010000#8, 0x34#8], Instr.bne 0x34#8), ([0b11110000#8, 0x34#8], Instr.beq 0x34#8)] = true := by
  decide +kernel

/-- Opcode bits of the grid R105, operand bytes 0x34 0x12 low byte first (R101, R103). -/
theorem test_decode_flag_and_incdec : decodesAll
  [([0b00011000#8], Instr.clc), ([0b00111000#8], Instr.sec),
   ([0b01011000#8], Instr.cli), ([0b01111000#8], Instr.sei),
   ([0b10001000#8], Instr.dey), ([0b10111000#8], Instr.clv),
   ([0b11000110#8, 0x34#8], Instr.decZp 0x34#8), ([0b11001000#8], Instr.iny),
   ([0b11001010#8], Instr.dex), ([0b11001110#8, 0x34#8, 0x12#8], Instr.decAbs 0x1234#16),
   ([0b11010110#8, 0x34#8], Instr.decZpx 0x34#8), ([0b11011000#8], Instr.cld),
   ([0b11011110#8, 0x34#8, 0x12#8], Instr.decAbsx 0x1234#16), ([0b11100110#8, 0x34#8], Instr.incZp 0x34#8),
   ([0b11101000#8], Instr.inx), ([0b11101110#8, 0x34#8, 0x12#8], Instr.incAbs 0x1234#16),
   ([0b11110110#8, 0x34#8], Instr.incZpx 0x34#8), ([0b11111000#8], Instr.sed),
   ([0b11111110#8, 0x34#8, 0x12#8], Instr.incAbsx 0x1234#16)] = true := by
  decide +kernel

/-- Opcode bits of the grid R105, operand bytes 0x34 0x12 low byte first (R101, R103). -/
theorem test_decode_system : decodesAll
  [([0b00000000#8], Instr.brk), ([0b01000000#8], Instr.rti),
   ([0b11101010#8], Instr.nop)] = true := by
  decide +kernel

/-- The 105 unassigned values decode alone, to ILLEGAL (R107). -/
theorem test_decode_unassigned : decodesAll (unassignedOpcodes.map fun op => ([op], .illegal op)) = true := by
  decide +kernel

/-- A decoder is told when bytes are missing. -/
theorem test_decode_short : decode [] = .error .noOpcode ∧ decode [0xA9] = .error (.operandMissing 0xA9) ∧
    decode [0x8D, 0x00] = .error (.operandMissing 0x8D) := by decide +kernel

/-- The interface's numbering: the first byte is bits 7 to 0, and bits above `nbits` are dropped. -/
theorem test_decode_table_word : decodeTableWord 24 0xC0008D = some (.staAbs 0xC000) ∧
    decodeTableWord 8 0xFFEA = some .nop ∧ decodeTableWord 8 0xA9 = some (.ldaImm 0) := by decide +kernel

/-! Single steps of spec/95_test_vectors.md, from its default start state: registers A, X, Y, S, P, then RAM. -/

/-- The default start state with these registers and this RAM. -/
def start (a x y sp p : Byte) (ram : Memory) : State :=
  { State.reset with a := a, x := x, y := y, sp := sp, p := p, ram := ram }

/-- PC, A, X, Y, S, P, cycles. -/
def registers (s : State) : List Nat := [s.pc.toNat, s.a.toNat, s.x.toNat, s.y.toNat, s.sp.toNat, s.p.toNat, s.cycles]

/-- From each state one step ends with these registers, these bytes in RAM, and the Processor running. -/
def stepsAll (vectors : List (State × List Nat × Memory)) : Bool :=
  vectors.all fun v =>
    match step v.1 with
    | .next t => registers t == v.2.1 && v.2.2.all (fun c => t.ram.read c.1 == c.2) && t.running
    | _ => false

theorem test_steps_addressing : stepsAll
  [-- T9: LDA ($FF,X), bytes A1 FF (R133, R69, R394)
   (start 0x00#8 0x00#8 0x00#8 0xFF#8 0x30#8 [(0x0034, 0x42#8), (0x00FF, 0x34#8), (0xC000, 0xA1#8), (0xC001, 0xFF#8)],
     [0xC002, 0x42, 0x00, 0x00, 0xFF, 0x30, 6], []),
   -- T11: LDA ($10),Y, bytes B1 10 (R134, R150, R395)
   (start 0x00#8 0x00#8 0x20#8 0xFF#8 0x30#8 [(0x0010, 0xF0#8), (0x0011, 0xC2#8), (0xC000, 0xB1#8), (0xC001, 0x10#8), (0xC310, 0x22#8)],
     [0xC002, 0x22, 0x00, 0x20, 0xFF, 0x30, 6], []),
   -- T2: LDX $F0,Y, bytes B6 F0 (R129, R151)
   (start 0x00#8 0x00#8 0x20#8 0xFF#8 0x30#8 [(0x0010, 0x5B#8), (0xC000, 0xB6#8), (0xC001, 0xF0#8)],
     [0xC002, 0x00, 0x5B, 0x20, 0xFF, 0x30, 4], []),
   -- T12: STA ($10),Y, bytes 91 10 (R134, R153, R395)
   (start 0x66#8 0x00#8 0x20#8 0xFF#8 0x30#8 [(0x0010, 0xF0#8), (0x0011, 0xC2#8), (0xC000, 0x91#8), (0xC001, 0x10#8)],
     [0xC002, 0x66, 0x00, 0x20, 0xFF, 0x30, 6], [(0xC310, 0x66#8)]),
   -- T14: STX $F0,Y, bytes 96 F0 (R129, R154)
   (start 0x00#8 0x12#8 0x20#8 0xFF#8 0x30#8 [(0xC000, 0x96#8), (0xC001, 0xF0#8)],
     [0xC002, 0x00, 0x12, 0x20, 0xFF, 0x30, 4], [(0x0010, 0x12#8)])] = true := by
  decide +kernel

theorem test_steps_load_store_transfer : stepsAll
  [-- T22: LDX $C200, bytes AE 00 C2 (R151)
   (start 0x00#8 0x00#8 0x00#8 0xFF#8 0xB2#8 [(0xC000, 0xAE#8), (0xC002, 0xC2#8), (0xC200, 0x7F#8)],
     [0xC003, 0x00, 0x7F, 0x00, 0xFF, 0x30, 4], []),
   -- T21: LDY #$80, bytes A0 80 (R152)
   (start 0x00#8 0x00#8 0x00#8 0xFF#8 0x30#8 [(0xC000, 0xA0#8), (0xC001, 0x80#8)],
     [0xC002, 0x00, 0x00, 0x80, 0xFF, 0xB0, 2], []),
   -- T23: STA $E000, bytes 8D 00 E0 (R153, R72)
   (start 0xAB#8 0x00#8 0x00#8 0xFF#8 0x30#8 [(0xC000, 0x8D#8), (0xC002, 0xE0#8)],
     [0xC003, 0xAB, 0x00, 0x00, 0xFF, 0x30, 4], [(0xE000, 0xAB#8)]),
   -- T24: STY $10, bytes 84 10 (R155, R143)
   (start 0x00#8 0x00#8 0x00#8 0xFF#8 0x30#8 [(0xC000, 0x84#8), (0xC001, 0x10#8)],
     [0xC002, 0x00, 0x00, 0x00, 0xFF, 0x30, 3], [(0x0010, 0x00#8)]),
   -- T25: TAX, bytes AA (R156)
   (start 0x00#8 0x55#8 0x00#8 0xFF#8 0x30#8 [(0xC000, 0xAA#8)],
     [0xC001, 0x00, 0x00, 0x00, 0xFF, 0x32, 2], []),
   -- T26: TAY, bytes A8 (R157)
   (start 0x80#8 0x00#8 0x00#8 0xFF#8 0x30#8 [(0xC000, 0xA8#8)],
     [0xC001, 0x80, 0x00, 0x80, 0xFF, 0xB0, 2], []),
   -- T27: TXA, bytes 8A (R158)
   (start 0x00#8 0x7F#8 0x00#8 0xFF#8 0xB2#8 [(0xC000, 0x8A#8)],
     [0xC001, 0x7F, 0x7F, 0x00, 0xFF, 0x30, 2], []),
   -- T28: TYA, bytes 98 (R159)
   (start 0x12#8 0x00#8 0x00#8 0xFF#8 0x30#8 [(0xC000, 0x98#8)],
     [0xC001, 0x00, 0x00, 0x00, 0xFF, 0x32, 2], []),
   -- T29: TSX, bytes BA (R160)
   (start 0x00#8 0x00#8 0x00#8 0xFF#8 0x30#8 [(0xC000, 0xBA#8)],
     [0xC001, 0x00, 0xFF, 0x00, 0xFF, 0xB0, 2], []),
   -- T30: TXS, bytes 9A (R161)
   (start 0x00#8 0x00#8 0x00#8 0xFF#8 0x30#8 [(0xC000, 0x9A#8)],
     [0xC001, 0x00, 0x00, 0x00, 0x00, 0x30, 2], [])] = true := by
  decide +kernel

theorem test_steps_arithmetic : stepsAll
  [-- T40: ADC #$50, bytes 69 50 (R171)
   (start 0x50#8 0x00#8 0x00#8 0xFF#8 0x30#8 [(0xC000, 0x69#8), (0xC001, 0x50#8)],
     [0xC002, 0xA0, 0x00, 0x00, 0xFF, 0xF0, 2], []),
   -- T46: ADC ($10),Y, bytes 71 10 (R171, R134)
   (start 0x10#8 0x00#8 0x01#8 0xFF#8 0x30#8 [(0x0010, 0xFF#8), (0x0011, 0xC2#8), (0xC000, 0x71#8), (0xC001, 0x10#8), (0xC300, 0x20#8)],
     [0xC002, 0x30, 0x00, 0x01, 0xFF, 0x30, 6], []),
   -- T44: SBC #$01, bytes E9 01 (R172)
   (start 0x80#8 0x00#8 0x00#8 0xFF#8 0x31#8 [(0xC000, 0xE9#8), (0xC001, 0x01#8)],
     [0xC002, 0x7F, 0x00, 0x00, 0xFF, 0x71, 2], []),
   -- T45: SBC #$40, bytes E9 40 (R172)
   (start 0x40#8 0x00#8 0x00#8 0xFF#8 0x30#8 [(0xC000, 0xE9#8), (0xC001, 0x40#8)],
     [0xC002, 0xFF, 0x00, 0x00, 0xFF, 0xB0, 2], [])] = true := by
  decide +kernel

theorem test_steps_logical : stepsAll
  [-- T50: ORA #$0F, bytes 09 0F (R180)
   (start 0xF0#8 0x00#8 0x00#8 0xFF#8 0x30#8 [(0xC000, 0x09#8), (0xC001, 0x0F#8)],
     [0xC002, 0xFF, 0x00, 0x00, 0xFF, 0xB0, 2], []),
   -- T51: AND #$0F, bytes 29 0F (R181)
   (start 0xF0#8 0x00#8 0x00#8 0xFF#8 0x30#8 [(0xC000, 0x29#8), (0xC001, 0x0F#8)],
     [0xC002, 0x00, 0x00, 0x00, 0xFF, 0x32, 2], []),
   -- T53: EOR $C200,Y, bytes 59 00 C2 (R182, R132)
   (start 0x55#8 0x00#8 0xFF#8 0xFF#8 0x30#8 [(0xC000, 0x59#8), (0xC002, 0xC2#8), (0xC2FF, 0xD5#8)],
     [0xC003, 0x80, 0x00, 0xFF, 0xFF, 0xB0, 4], []),
   -- T54: BIT $10, bytes 24 10 (R183)
   (start 0x01#8 0x00#8 0x00#8 0xFF#8 0x30#8 [(0x0010, 0xC0#8), (0xC000, 0x24#8), (0xC001, 0x10#8)],
     [0xC002, 0x01, 0x00, 0x00, 0xFF, 0xF2, 3], []),
   -- T55: BIT $C200, bytes 2C 00 C2 (R183)
   (start 0xFF#8 0x00#8 0x00#8 0xFF#8 0xF0#8 [(0xC000, 0x2C#8), (0xC002, 0xC2#8), (0xC200, 0x3F#8)],
     [0xC003, 0xFF, 0x00, 0x00, 0xFF, 0x30, 4], [])] = true := by
  decide +kernel

theorem test_steps_shift_rotate : stepsAll
  [-- T60: ASL A, bytes 0A (R191, R138)
   (start 0x81#8 0x00#8 0x00#8 0xFF#8 0x30#8 [(0xC000, 0x0A#8)],
     [0xC001, 0x02, 0x00, 0x00, 0xFF, 0x31, 2], []),
   -- T68: ASL $10, bytes 06 10 (R191, R137)
   (start 0x33#8 0x00#8 0x00#8 0xFF#8 0x30#8 [(0x0010, 0x40#8), (0xC000, 0x06#8), (0xC001, 0x10#8)],
     [0xC002, 0x33, 0x00, 0x00, 0xFF, 0xB0, 5], [(0x0010, 0x80#8)]),
   -- T63: LSR A, bytes 4A (R192)
   (start 0xFE#8 0x00#8 0x00#8 0xFF#8 0xB0#8 [(0xC000, 0x4A#8)],
     [0xC001, 0x7F, 0x00, 0x00, 0xFF, 0x30, 2], []),
   -- T69: LSR $10,X, bytes 56 10 (R192)
   (start 0x00#8 0x01#8 0x00#8 0xFF#8 0x30#8 [(0x0011, 0x03#8), (0xC000, 0x56#8), (0xC001, 0x10#8)],
     [0xC002, 0x00, 0x01, 0x00, 0xFF, 0x31, 6], [(0x0011, 0x01#8)]),
   -- T64: ROL A, bytes 2A (R193)
   (start 0x80#8 0x00#8 0x00#8 0xFF#8 0x31#8 [(0xC000, 0x2A#8)],
     [0xC001, 0x01, 0x00, 0x00, 0xFF, 0x31, 2], []),
   -- T70: ROL $C200, bytes 2E 00 C2 (R193)
   (start 0x00#8 0x00#8 0x00#8 0xFF#8 0x31#8 [(0xC000, 0x2E#8), (0xC002, 0xC2#8), (0xC200, 0x7F#8)],
     [0xC003, 0x00, 0x00, 0x00, 0xFF, 0xB0, 6], [(0xC200, 0xFF#8)]),
   -- T66: ROR A, bytes 6A (R194)
   (start 0x01#8 0x00#8 0x00#8 0xFF#8 0x31#8 [(0xC000, 0x6A#8)],
     [0xC001, 0x80, 0x00, 0x00, 0xFF, 0xB1, 2], []),
   -- T71: ROR $C2F0,X, bytes 7E F0 C2 (R194, R395)
   (start 0x00#8 0x20#8 0x00#8 0xFF#8 0x31#8 [(0xC000, 0x7E#8), (0xC001, 0xF0#8), (0xC002, 0xC2#8)],
     [0xC003, 0x00, 0x20, 0x00, 0xFF, 0xB0, 7], [(0xC310, 0x80#8)])] = true := by
  decide +kernel

theorem test_steps_compare : stepsAll
  [-- T82: CMP #$3F, bytes C9 3F (R201)
   (start 0x40#8 0x00#8 0x00#8 0xFF#8 0xF0#8 [(0xC000, 0xC9#8), (0xC001, 0x3F#8)],
     [0xC002, 0x40, 0x00, 0x00, 0xFF, 0x71, 2], []),
   -- T83: CMP #$01, bytes C9 01 (R201)
   (start 0x80#8 0x00#8 0x00#8 0xFF#8 0x30#8 [(0xC000, 0xC9#8), (0xC001, 0x01#8)],
     [0xC002, 0x80, 0x00, 0x00, 0xFF, 0x31, 2], []),
   -- T84: CPX $10, bytes E4 10 (R202)
   (start 0x00#8 0x00#8 0x00#8 0xFF#8 0x30#8 [(0x0010, 0xFF#8), (0xC000, 0xE4#8), (0xC001, 0x10#8)],
     [0xC002, 0x00, 0x00, 0x00, 0xFF, 0x30, 3], []),
   -- T85: CPY #$80, bytes C0 80 (R203)
   (start 0x00#8 0x00#8 0x7F#8 0xFF#8 0x30#8 [(0xC000, 0xC0#8), (0xC001, 0x80#8)],
     [0xC002, 0x00, 0x00, 0x7F, 0xFF, 0xB0, 2], [])] = true := by
  decide +kernel

theorem test_steps_stack_and_subroutine : stepsAll
  [-- T91: PHA, bytes 48 (R210, R393)
   (start 0xAA#8 0x00#8 0x00#8 0x00#8 0x30#8 [(0xC000, 0x48#8)],
     [0xC001, 0xAA, 0x00, 0x00, 0xFF, 0x30, 3], [(0x0100, 0xAA#8)]),
   -- T92: PLA, bytes 68 (R211, R141)
   (start 0x55#8 0x00#8 0x00#8 0xFF#8 0x30#8 [(0xC000, 0x68#8)],
     [0xC001, 0x00, 0x00, 0x00, 0x00, 0x32, 4], []),
   -- T94: PHP, bytes 08 (R212)
   (start 0x00#8 0x00#8 0x00#8 0xFF#8 0xA1#8 [(0xC000, 0x08#8)],
     [0xC001, 0x00, 0x00, 0x00, 0xFE, 0xA1, 3], [(0x01FF, 0xB1#8)]),
   -- T95: PLP, bytes 28 (R213, R142)
   (start 0x00#8 0x00#8 0x00#8 0xFC#8 0x30#8 [(0xC000, 0x28#8)],
     [0xC001, 0x00, 0x00, 0x00, 0xFD, 0x20, 4], []),
   -- T100: JSR $C234, bytes 20 34 C2 (R214, R393)
   (start 0x00#8 0x00#8 0x00#8 0x00#8 0x30#8 [(0xC000, 0x20#8), (0xC001, 0x34#8), (0xC002, 0xC2#8)],
     [0xC234, 0x00, 0x00, 0x00, 0xFE, 0x30, 6], [(0x0100, 0xC0#8), (0x01FF, 0x02#8)]),
   -- T99: RTS, bytes 60 (R215, R400)
   (start 0x00#8 0x00#8 0x00#8 0xFD#8 0x30#8 [(0x01FE, 0xFF#8), (0x01FF, 0xFF#8), (0xC000, 0x60#8)],
     [0x0000, 0x00, 0x00, 0x00, 0xFF, 0x30, 6], [])] = true := by
  decide +kernel

theorem test_steps_branch_and_jump : stepsAll
  [-- T111: BNE $C012, bytes D0 10 (R227)
   (start 0x00#8 0x00#8 0x00#8 0xFF#8 0x32#8 [(0xC000, 0xD0#8), (0xC001, 0x10#8)],
     [0xC002, 0x00, 0x00, 0x00, 0xFF, 0x32, 2], []),
   -- T119: BNE $C000, bytes D0 FE (R227)
   (start 0x00#8 0x00#8 0x00#8 0xFF#8 0x30#8 [(0xC000, 0xD0#8), (0xC001, 0xFE#8)],
     [0xC000, 0x00, 0x00, 0x00, 0xFF, 0x30, 3], []),
   -- T112: BEQ $BFF2, bytes F0 F0 (R228, R395)
   (start 0x00#8 0x00#8 0x00#8 0xFF#8 0x32#8 [(0xC000, 0xF0#8), (0xC001, 0xF0#8)],
     [0xBFF2, 0x00, 0x00, 0x00, 0xFF, 0x32, 4], []),
   -- T113: BPL $C081, bytes 10 7F (R221)
   (start 0x00#8 0x00#8 0x00#8 0xFF#8 0x30#8 [(0xC000, 0x10#8), (0xC001, 0x7F#8)],
     [0xC081, 0x00, 0x00, 0x00, 0xFF, 0x30, 3], []),
   -- T114: BMI $BF82, bytes 30 80 (R222)
   (start 0x00#8 0x00#8 0x00#8 0xFF#8 0xB0#8 [(0xC000, 0x30#8), (0xC001, 0x80#8)],
     [0xBF82, 0x00, 0x00, 0x00, 0xFF, 0xB0, 4], []),
   -- T115: BVC $C004, bytes 50 02 (R223)
   (start 0x00#8 0x00#8 0x00#8 0xFF#8 0x70#8 [(0xC000, 0x50#8), (0xC001, 0x02#8)],
     [0xC002, 0x00, 0x00, 0x00, 0xFF, 0x70, 2], []),
   -- T116: BVS $C004, bytes 70 02 (R224)
   (start 0x00#8 0x00#8 0x00#8 0xFF#8 0x70#8 [(0xC000, 0x70#8), (0xC001, 0x02#8)],
     [0xC004, 0x00, 0x00, 0x00, 0xFF, 0x70, 3], []),
   -- T117: BCC $C004, bytes 90 02 (R225)
   (start 0x00#8 0x00#8 0x00#8 0xFF#8 0x31#8 [(0xC000, 0x90#8), (0xC001, 0x02#8)],
     [0xC002, 0x00, 0x00, 0x00, 0xFF, 0x31, 2], []),
   -- T118: BCS $C004, bytes B0 02 (R226)
   (start 0x00#8 0x00#8 0x00#8 0xFF#8 0x31#8 [(0xC000, 0xB0#8), (0xC001, 0x02#8)],
     [0xC004, 0x00, 0x00, 0x00, 0xFF, 0x31, 3], []),
   -- T120: JMP $1234, bytes 4C 34 12 (R229)
   (start 0x00#8 0x00#8 0x00#8 0xFF#8 0x30#8 [(0xC000, 0x4C#8), (0xC001, 0x34#8), (0xC002, 0x12#8)],
     [0x1234, 0x00, 0x00, 0x00, 0xFF, 0x30, 3], []),
   -- T121: JMP ($C200), bytes 6C 00 C2 (R230)
   (start 0x00#8 0x00#8 0x00#8 0xFF#8 0x30#8 [(0xC000, 0x6C#8), (0xC002, 0xC2#8), (0xC200, 0x78#8), (0xC201, 0x56#8)],
     [0x5678, 0x00, 0x00, 0x00, 0xFF, 0x30, 5], [])] = true := by
  decide +kernel

theorem test_steps_flag_and_incdec : stepsAll
  [-- T130: CLC, bytes 18 (R240)
   (start 0x00#8 0x00#8 0x00#8 0xFF#8 0xFF#8 [(0xC000, 0x18#8)],
     [0xC001, 0x00, 0x00, 0x00, 0xFF, 0xFE, 2], []),
   -- T131: SEC, bytes 38 (R241)
   (start 0x00#8 0x00#8 0x00#8 0xFF#8 0x30#8 [(0xC000, 0x38#8)],
     [0xC001, 0x00, 0x00, 0x00, 0xFF, 0x31, 2], []),
   -- T132: CLI, bytes 58 (R242)
   (start 0x00#8 0x00#8 0x00#8 0xFF#8 0x34#8 [(0xC000, 0x58#8)],
     [0xC001, 0x00, 0x00, 0x00, 0xFF, 0x30, 2], []),
   -- T133: SEI, bytes 78 (R243)
   (start 0x00#8 0x00#8 0x00#8 0xFF#8 0x30#8 [(0xC000, 0x78#8)],
     [0xC001, 0x00, 0x00, 0x00, 0xFF, 0x34, 2], []),
   -- T134: CLV, bytes B8 (R244)
   (start 0x00#8 0x00#8 0x00#8 0xFF#8 0xFF#8 [(0xC000, 0xB8#8)],
     [0xC001, 0x00, 0x00, 0x00, 0xFF, 0xBF, 2], []),
   -- T135: CLD, bytes D8 (R245)
   (start 0x00#8 0x00#8 0x00#8 0xFF#8 0xFF#8 [(0xC000, 0xD8#8)],
     [0xC001, 0x00, 0x00, 0x00, 0xFF, 0xF7, 2], []),
   -- T136: SED, bytes F8 (R246)
   (start 0x00#8 0x00#8 0x00#8 0xFF#8 0x30#8 [(0xC000, 0xF8#8)],
     [0xC001, 0x00, 0x00, 0x00, 0xFF, 0x38, 2], []),
   -- T137: INX, bytes E8 (R252)
   (start 0x00#8 0xFF#8 0x00#8 0xFF#8 0x30#8 [(0xC000, 0xE8#8)],
     [0xC001, 0x00, 0x00, 0x00, 0xFF, 0x32, 2], []),
   -- T138: INY, bytes C8 (R253)
   (start 0x00#8 0x00#8 0x7F#8 0xFF#8 0x31#8 [(0xC000, 0xC8#8)],
     [0xC001, 0x00, 0x00, 0x80, 0xFF, 0xB1, 2], []),
   -- T139: DEX, bytes CA (R254)
   (start 0x00#8 0x00#8 0x00#8 0xFF#8 0x30#8 [(0xC000, 0xCA#8)],
     [0xC001, 0x00, 0xFF, 0x00, 0xFF, 0xB0, 2], []),
   -- T140: DEY, bytes 88 (R255)
   (start 0x00#8 0x00#8 0x01#8 0xFF#8 0x30#8 [(0xC000, 0x88#8)],
     [0xC001, 0x00, 0x00, 0x00, 0xFF, 0x32, 2], []),
   -- T141: INC $10, bytes E6 10 (R250)
   (start 0x00#8 0x00#8 0x00#8 0xFF#8 0x30#8 [(0x0010, 0xFF#8), (0xC000, 0xE6#8), (0xC001, 0x10#8)],
     [0xC002, 0x00, 0x00, 0x00, 0xFF, 0x32, 5], [(0x0010, 0x00#8)]),
   -- T143: INC $C2F0,X, bytes FE F0 C2 (R250, R395)
   (start 0x00#8 0x10#8 0x00#8 0xFF#8 0x30#8 [(0xC000, 0xFE#8), (0xC001, 0xF0#8), (0xC002, 0xC2#8), (0xC300, 0x7F#8)],
     [0xC003, 0x00, 0x10, 0x00, 0xFF, 0xB0, 7], [(0xC300, 0x80#8)]),
   -- T142: DEC $C200, bytes CE 00 C2 (R251)
   (start 0x00#8 0x00#8 0x00#8 0xFF#8 0x30#8 [(0xC000, 0xCE#8), (0xC002, 0xC2#8)],
     [0xC003, 0x00, 0x00, 0x00, 0xFF, 0xB0, 6], [(0xC200, 0xFF#8)])] = true := by
  decide +kernel

theorem test_steps_system : stepsAll
  [-- T150: NOP, bytes EA (R262)
   (start 0x00#8 0x00#8 0x00#8 0xFF#8 0x30#8 [(0xC000, 0xEA#8)],
     [0xC001, 0x00, 0x00, 0x00, 0xFF, 0x30, 2], []),
   -- T151: BRK, bytes 00 (R260)
   (start 0x00#8 0x00#8 0x00#8 0xFF#8 0x30#8 [],
     [0xC100, 0x00, 0x00, 0x00, 0xFC, 0x34, 7], [(0x01FD, 0x30#8), (0x01FE, 0x02#8), (0x01FF, 0xC0#8)]),
   -- T152: RTI, bytes 40 (R261)
   (start 0x00#8 0x00#8 0x00#8 0xFC#8 0x30#8 [(0x01FD, 0xE3#8), (0x01FE, 0x34#8), (0x01FF, 0x12#8), (0xC000, 0x40#8)],
     [0x1234, 0x00, 0x00, 0x00, 0xFF, 0xE3, 6], [])] = true := by
  decide +kernel

/-- T144: `DEC $10,X` at address 0: the direction latch is read, and written; `ram[0]` is not (R251, R390). -/
theorem test_T144_dec : (match step (start 0 0xF0 0 0xFF 0x30 [(0xC000, 0xD6#8), (0xC001, 0x10#8)]) with
    | .next t => t.bankDdr == 0xFF && t.effPort == 0 && t.ram.read 0 == 0 && t.p == 0xB0 | _ => false) = true := by
  decide +kernel

/-- T122: `JMP ($C2FF)` goes where the open parameter says (R230; log 7). -/
theorem test_T122_jmp : pointerHighAddr 0xC2FF = if Config.jmpIndWrap then 0xC200 else 0xC300 := by rfl

/-- The halted stop. -/
def stopped : Result → Bool
  | .fault .halted => true
  | _ => false

/-- V9: byte 0xFF halts with the pc past it and nothing else changed; the next step is the halted stop (R263, R120). -/
theorem test_V9_halt : (match step (start 0x12 0x34 0x56 0x78 0xF1 [(0xC000, 0xFF#8)]) with
    | .next t => registers t == [0xC001, 0x12, 0x34, 0x56, 0x78, 0xF1, 0] && !t.running && stopped (step t)
    | _ => false) = true := by decide +kernel

/-! Interrupts (V7, I1, I5). -/

/-- V7: entry after `RequestIrq(0)`: three bytes pushed, Break clear in the pushed status. -/
theorem test_V7_entry :
    stepsAll [({ start 0 0 0 0xFF 0xB1 [] with pc := 0xC123 }.requestIrq 0,
      [0xC100, 0, 0, 0, 0xFC, 0xB5, 7], [(0x01FF, 0xC1#8), (0x01FE, 0x23#8), (0x01FD, 0xA1#8)])] = true := by
  decide +kernel

/-- I1: CLI with a source asserted latches the interrupt in the same step. -/
theorem test_I1_cli : (match step ((start 0 0 0 0xFF 0x34 [(0xC000, 0x58#8)]).requestIrq 0) with
    | .next t => t.p == 0x30 && t.irqPending && t.irqSources == 1 && t.pc == 0xC001 | _ => false) = true := by
  decide +kernel

/-- I5: a request does not wake a halted Processor. -/
theorem test_I5_halted : stopped (step ({ start 0 0 0 0xFF 0x30 [] with running := false }.requestIrq 0)) = true := by
  decide +kernel

/-! The address space (M1, M2, M3). -/

/-- The set-up of M1 with the ROM bytes it reads. -/
def banked (ddr port : Byte) : State :=
  { State.reset with
    bankDdr := ddr, bankPort := port
    ram := [(0xA000, 0x11#8), (0xBFFF, 0x11#8), (0xD400, 0x11#8), (0xDC0E, 0x11#8), (0xE000, 0x11#8), (0xFFFB, 0x11#8)]
    romKernel := [(0, 0xEE#8), (0x1FFB, 0xEE#8)], romBasic := [(0, 0xBA#8), (0x1FFF, 0xBA#8)]
    romChar := [(0x400, 0xCC#8), (0xC0E, 0xCC#8)] }

/-- Reads of 0000, 0001, A000, BFFF, D400, DC0E, E000, FFFB. -/
def seen (s : State) : List Byte :=
  [s.byteAt 0x0000, s.byteAt 0x0001, s.byteAt 0xA000, s.byteAt 0xBFFF, s.byteAt 0xD400, s.byteAt 0xDC0E, s.byteAt 0xE000,
   s.byteAt 0xFFFB]

/-- Rows of M1. -/
theorem test_M1_reads :
    seen (banked 0x00 0x07) = [0x00, 0xFF, 0xBA, 0xBA, 0xFF, 0x00, 0xEE, 0xEE] ∧
    seen (banked 0x07 0x00) = [0x07, 0xF8, 0x11, 0x11, 0x11, 0x11, 0x11, 0x11] ∧
    seen (banked 0x07 0x01) = [0x07, 0xF9, 0x11, 0x11, 0xCC, 0xCC, 0x11, 0x11] ∧
    seen (banked 0x07 0x02) = [0x07, 0xFA, 0x11, 0x11, 0xCC, 0xCC, 0xEE, 0xEE] ∧
    seen (banked 0x07 0x03) = [0x07, 0xFB, 0xBA, 0xBA, 0xCC, 0xCC, 0xEE, 0xEE] ∧
    seen (banked 0x07 0x05) = [0x07, 0xFD, 0x11, 0x11, 0xFF, 0x00, 0x11, 0x11] ∧
    seen (banked 0x03 0x00) = [0x03, 0xFC, 0x11, 0x11, 0x11, 0x11, 0x11, 0x11] := by decide +kernel

/-- M2: a write under the kernel ROM lands in RAM; an unrouted I-O write goes nowhere; a chip write reaches the chip. -/
theorem test_M2_writes :
    ((banked 0 0).write 0xE000 0x66).ram.read 0xE000 = 0x66 ∧ ((banked 0 0).write 0xE000 0x66).byteAt 0xE000 = 0xEE ∧
    (banked 0 0).write 0xD400 0x77 = banked 0 0 ∧
    ((banked 0 0).write 0xDC05 0x12).chip0.ta.latch = 0x12FF ∧ ((banked 0 0).write 0xDC05 0x12).byteAt 0xDC15 = 0x12 := by
  decide +kernel

/-- M3: the host's out-of-range accesses. -/
theorem test_M3_out_of_range :
    (State.reset.hostRead 65536).1 = 0xFF ∧ (State.reset.hostRead (-1)).2.2 = some (.outOfRange (-1)) ∧
    State.reset.hostWrite 65536 0x55 = (State.reset, some (.outOfRange 65536)) := by decide +kernel

/-! The chips and the scheduler (V5, V6, C2, C3, C5, S1). -/

/-- A write of a chip 0 register at a cycle. -/
def put (n : Nat) (r : Nat) (v : Byte) (s : State) : State := { s with cycles := n }.writeReg .zero (.ofIndex r) v

/-- A read of a chip 0 register at a cycle. -/
def get (n : Nat) (r : Nat) (s : State) : Byte := ({ s with cycles := n }.readReg .zero (.ofIndex r)).1

/-- V5's one-shot timer, started at cycle 1000. -/
def oneShotRun : State := put 1000 14 0x09 (put 0 5 0x00 (put 0 4 0x05 State.reset))

/-- V5: the deadline, and after 6 cycles the flag, the reload, and the start bit cleared. -/
theorem test_V5_one_shot :
    oneShotRun.queue = [(1006, ⟨.zero, .a⟩)] ∧ get 1005 4 oneShotRun = 0x00 ∧
    (let t := { oneShotRun with cycles := 1006 }.serviceDue
     t.chip0.ta = { counter := 5, latch := 5, cr := 0x08, last := 1006 } ∧ t.chip0.icrFlags = 1 ∧ t.queue = [] ∧
     t.irqSources = 0) := by decide +kernel

/-- V6: continuous, observed after 13 cycles in one piece: counter 4, the flag set. -/
theorem test_V6_continuous :
    get 1013 4 (put 1000 14 0x01 (put 0 5 0x00 (put 0 4 0x05 State.reset))) = 0x04 := by decide +kernel

/-- C2: the mask register's set and clear writes. -/
theorem test_C2_mask :
    (put 0 13 0x82 (put 0 13 0x81 State.reset)).chip0.icrMask = 3 ∧
    (put 0 13 0x01 (put 0 13 0x82 (put 0 13 0x81 State.reset))).chip0.icrMask = 2 ∧
    (put 0 13 0xFF State.reset).chip0.icrMask = 0x1F := by decide +kernel

/-- C5: timer B counts timer A's underflows; late by 55 cycles, A underflows five times and B twice. -/
def cascade : State :=
  put 0 14 0x01 (put 0 15 0x41 (put 0 13 0x82 (put 0 7 0 (put 0 6 0x02 (put 0 5 0 (put 0 4 0x09 State.reset))))))

theorem test_C5_cascade :
    (let t := { cascade with cycles := 30 }.serviceDue
     t.chip0.icrFlags = 3 ∧ t.irqSources = 1 ∧ t.irqPending = true ∧ t.queue = [(40, ⟨.zero, .a⟩)] ∧ t.chip0.tb.counter = 2) ∧
    ((cascade.timer .zero .a).advance 55).2 = 5 := by decide +kernel

/-- S1: ties in the order queued; a request queued again moves; a cancelled entry goes. -/
theorem test_S1_ties :
    ((((State.reset.enqueue 10 ⟨.zero, .a⟩).enqueue 10 ⟨.zero, .b⟩).enqueue 5 ⟨.one, .a⟩).enqueue 10 ⟨.one, .a⟩).queue =
      [(10, ⟨.zero, .a⟩), (10, ⟨.zero, .b⟩), (10, ⟨.one, .a⟩)] ∧
    ((State.reset.enqueue 10 ⟨.zero, .a⟩).cancel ⟨.zero, .a⟩).queue = [] ∧ State.reset.nextDeadline = 9223372036854775807 := by
  decide +kernel

/-- Q1: `RunCycles(5)` over NOPs overshoots to 6. -/
theorem test_Q1_overshoot :
    registers ((start 0 0 0 0xFF 0x30 [(0xC000, 0xEA#8), (0xC001, 0xEA#8), (0xC002, 0xEA#8)]).runCycles 5) =
      [0xC003, 0, 0, 0, 0xFF, 0x30, 6] := by decide +kernel

/-! Witnesses: for each statement with hypotheses, concrete values that meet them together. -/

/-- A running machine with RAM, a NOP at the pc, chip 0's timer A counting the clock with its deadline queued, and chip 1's interrupt
output up behind a set I flag. -/
def busy : State :=
  { start 0x12 0x34 0x56 0x80 0x24 [(0x10, 0x7F#8), (0x0181, 0x99#8), (0xC000, 0xEA#8)] with
    cycles := 100, irqSources := 0x02#8
    chip0 := { TimerChip.powerOn with ta := { counter := 5, latch := 9, cr := 0x01#8, last := 98 } }
    chip1 := { TimerChip.powerOn with icrFlags := 0b00010#5, icrMask := 0b00010#5 }
    queue := [(104, ⟨.zero, .a⟩)] }

/-- `busy` four cycles on: the deadline is due. -/
def late : State := { busy with cycles := 104 }

/-- A request latched, I clear. -/
def asking : State := { start 1 2 3 0x01 0xB1 [(0xC000, 0x78#8)] with irqSources := 0x04#8, irqPending := true }

/-- An unassigned opcode at the pc. -/
def doomed : State := start 0 0 0 0xFF 0x30 [(0xC000, 0x02#8)]

/-- A halted machine. -/
def stoppedState : State := { busy with running := false }

theorem busy_canonical : busy.MemoryCanonical := by unfold State.MemoryCanonical; decide +kernel
theorem late_canonical : late.MemoryCanonical := busy_canonical
theorem asking_canonical : asking.MemoryCanonical := by unfold State.MemoryCanonical; decide +kernel
theorem reset_canonical : State.reset.MemoryCanonical := by unfold State.MemoryCanonical; decide +kernel

/-- The invariant holds at a state that no reset leaves. -/
theorem busy_inv : busy.Inv where
  memory := busy_canonical
  unused := by unfold State.UnusedSet; decide +kernel
  forceLoad := fun k t => by cases k <;> cases t <;> decide +kernel
  latch := by unfold State.LatchCurrent; decide +kernel
  lines := fun k => by cases k <;> decide +kernel
  queue := by unfold State.QueueOrdered; decide +kernel
  armed := fun k t => by cases k <;> cases t <;> decide +kernel

/-- The invariant holds when a deadline is due. -/
theorem late_inv : late.Inv where
  memory := busy_canonical
  unused := busy_inv.unused
  forceLoad := busy_inv.forceLoad
  latch := busy_inv.latch
  lines := busy_inv.lines
  queue := busy_inv.queue
  armed := fun k t => by cases k <;> cases t <;> decide +kernel

/-- The invariant holds with an interrupt latched. -/
theorem asking_inv : asking.Inv where
  memory := asking_canonical
  unused := by unfold State.UnusedSet; decide +kernel
  forceLoad := fun k t => by cases k <;> cases t <;> decide +kernel
  latch := by unfold State.LatchCurrent; decide +kernel
  lines := fun k => by cases k <;> decide +kernel
  queue := by unfold State.QueueOrdered; decide +kernel
  armed := fun k t => by cases k <;> cases t <;> decide +kernel

theorem witness_DecodeEncodeRoundTrip : (Instr.ldaAbsx 0x1234#16).wf = true ∧ (Instr.illegal 0x02#8).wf = true := by
  decide +kernel

theorem witness_DecodedBytesAreTheEncoding :
    decode [0xBD#8, 0x34#8, 0x12#8, 0xEA#8] = .ok (.ldaAbsx 0x1234#16, [0xEA#8]) := by rfl

theorem witness_OpcodeMapIsThePrintedOne :
    ⟨.adc, .absx, 0x7D#8, 4, .page⟩ ∈ printedRows ∧ 0x02#8 ∉ printedRows.map PrintedRow.opcode := by decide +kernel

theorem witness_UnassignedOpcodesAreThoseListed :
    0x02#8 ∈ unassignedOpcodes ∧ 0xA9#8 ∉ unassignedOpcodes ∧ decode [0xA9#8, 0x80#8] = .ok (.ldaImm 0x80#8, []) :=
  ⟨by decide, by decide, rfl⟩

theorem witness_StepRunsTheFetchedInstruction :
    late.serviceDue.running = true ∧ (late.serviceDue.irqPending && !late.serviceDue.flag .i) = false ∧
    Instr.nop.wf = true ∧ (late.serviceDue.fetchBytes Instr.nop.length).1 = encode .nop := by decide +kernel

theorem witness_PlacedWordRunsNext : State.reset.MemoryCanonical ∧ busy.MemoryCanonical ∧
    decodeTableWord 16 0x80A9 = some (.ldaImm 0x80#8) := ⟨reset_canonical, busy_canonical, by decide +kernel⟩

theorem witness_HaltedMachineStops : stoppedState.running = false := rfl

theorem witness_UnassignedOpcodeHalts :
    doomed.serviceDue.running = true ∧ (doomed.serviceDue.irqPending && !doomed.serviceDue.flag .i) = false ∧
    doomed.serviceDue.byteAt doomed.serviceDue.pc ∈ unassignedOpcodes := by decide +kernel

theorem witness_InterruptIsTakenBeforeTheFetch : asking.MemoryCanonical ∧ asking.running = true ∧
    asking.irqPending = true ∧ asking.flag .i = false :=
  ⟨asking_canonical, by decide +kernel⟩

theorem witness_StepKeepsInvariant :
    (busy.Inv ∧ ∃ t, step busy = .next t) ∧ (late.Inv ∧ ∃ t, step late = .next t) ∧ asking.Inv ∧ ∃ t, step asking = .next t :=
  ⟨⟨busy_inv, _, rfl⟩, ⟨late_inv, _, rfl⟩, asking_inv, _, rfl⟩

theorem witness_PowerOnHasInvariant :
    Memory.wf 65536 [(0, 0x01#8), (65535, 0x02#8)] ∧ Memory.wf 8192 [(8191, 0xC0#8)] ∧ Memory.wf 8192 [(0, 0x11#8)] ∧
    Memory.wf 4096 [(4095, 0xFF#8)] := by decide +kernel

/-- A machine that a warm reset is defined for, with its registers away from their reset values, and one it is not. -/
def idle : State := { start 0x12 0x34 0x56 0x78 0xFB [(0xFFFD, 0x10#8)] with cycles := 999, running := false }

theorem idle_inv : idle.Inv where
  memory := by unfold State.MemoryCanonical; decide +kernel
  unused := by unfold State.UnusedSet; decide +kernel
  forceLoad := fun k t => by cases k <;> cases t <;> decide +kernel
  latch := by unfold State.LatchCurrent; decide +kernel
  lines := fun k => by cases k <;> decide +kernel
  queue := by unfold State.QueueOrdered; decide +kernel
  armed := fun k t => by cases k <;> cases t <;> decide +kernel

theorem witness_WarmResetKeepsInvariant :
    (idle.queue = [] ∧ idle.chip0.line = false ∧ idle.chip1.line = false ∧ idle.Inv) ∧
    ¬(busy.queue = [] ∧ busy.chip0.line = false ∧ busy.chip1.line = false) := by
  exact ⟨⟨by decide +kernel, by decide +kernel, by decide +kernel, idle_inv⟩, by decide +kernel⟩

theorem witness_EveryRunningStepCompletes : busy.running = true ∧ doomed.running = true := ⟨rfl, rfl⟩

theorem witness_RomAndPinsNeverChange : ∃ t, step busy = .next t := ⟨_, rfl⟩

theorem witness_RunCyclesReachesItsTarget : (busy.runCycles 1).running = true ∧ (busy.runCycles 0).running = true := by
  decide +kernel

/-- Two entries due, two in the future. -/
def crowded : State :=
  { busy with queue := [(50, ⟨.one, .a⟩), (100, ⟨.one, .b⟩), (104, ⟨.zero, .a⟩), (200, ⟨.zero, .b⟩)] }

/-- None due; the head due, its timer counting, with an underflow; the head due, its timer not counting; future entries. -/
theorem witness_DueCallbacksAllRun :
    (busy.QueueOrdered ∧ ∀ e ∈ busy.queue, busy.cycles < e.1) ∧
    (late.QueueOrdered ∧ late.queue = [(104, ⟨.zero, .a⟩)] ∧ 104 ≤ late.cycles ∧
      counting .a (late.timer .zero .a) = true ∧
      (late.timer .zero .a).counter.toNat < late.cycles - (late.timer .zero .a).last ∧
      late.serviceDue.chip0.icrFlags = 1 ∧ late.serviceDue.queue = [(114, ⟨.zero, .a⟩)]) ∧
    crowded.QueueOrdered ∧ counting .a (crowded.timer .one .a) = false ∧
    (104, ⟨.zero, .a⟩) ∈ crowded.queue ∧ crowded.cycles < 104 ∧ (crowded.serviceDue.queue.map (·.1)) = [104, 200] :=
  ⟨⟨busy_inv.queue, by decide +kernel⟩,
    ⟨late_inv.queue, rfl, by decide +kernel, by decide +kernel, by decide +kernel, by decide +kernel, by decide +kernel⟩,
    by unfold State.QueueOrdered; decide +kernel, by decide +kernel, by decide +kernel, by decide +kernel,
    by decide +kernel⟩

theorem witness_NoUnderflowInsideAnInstruction : late.Inv ∧ counting .a (late.serviceDue.timer .zero .a) = true :=
  ⟨late_inv, by decide +kernel⟩

/-- Every range of the bank table at both its ends, with the source seen there after power-on. -/
theorem witness_BankTable :
    ([(0x0002#16, Source.ram), (0x9FFF#16, .ram), (0xA000#16, .basicRom), (0xBFFF#16, .basicRom), (0xC000#16, .ram),
      (0xCFFF#16, .ram), (0xD000#16, .io), (0xDFFF#16, .io), (0xE000#16, .kernelRom), (0xFFFF#16, .kernelRom)].all
      fun c => State.reset.source c.1 == c.2) = true ∧
    busy.bankDdr = State.reset.bankDdr ∧ busy.bankPort = State.reset.bankPort := by decide +kernel

/-- Every source is reached, at the ends of its range. -/
theorem witness_ReadsByTheirSource :
    (banked 0x07 0x07).source 0xCFFF = .ram ∧ (banked 0x07 0x07).source 0xFFFF = .kernelRom ∧
    (banked 0x07 0x07).source 0xBFFF = .basicRom ∧ (banked 0x07 0x03).source 0xDFFF = .charRom ∧
    (banked 0x07 0x07).source 0xD000 = .io := by decide +kernel

theorem banked_canonical : (banked 0x07 0x03).MemoryCanonical := by unfold State.MemoryCanonical; decide +kernel

theorem witness_WriteLandsAtItsAddress :
    (banked 0x07 0x03).MemoryCanonical ∧ (banked 0x07 0x03).source 0x0002 = .ram ∧
    (banked 0x07 0x03).source 0xE000 = .kernelRom ∧ (banked 0x07 0x03).source 0xA000 = .basicRom ∧
    (banked 0x07 0x03).source 0xD000 = .charRom := ⟨banked_canonical, by decide +kernel⟩

/-- The four kinds of route at both ends of each range. -/
theorem witness_IoRouting :
    ([(0xD000#16, Route.video), (0xD3FF#16, .video), (0xD400#16, .nothing), (0xD7FF#16, .nothing), (0xD800#16, .video),
      (0xDBFF#16, .video), (0xDC00#16, .chip .zero), (0xDCFF#16, .chip .zero), (0xDD00#16, .chip .one),
      (0xDDFF#16, .chip .one), (0xDE00#16, .nothing), (0xDFFF#16, .nothing)].all fun c => ioRoute c.1 == c.2) = true := by
  decide +kernel

/-- Both sides of the range's two ends. -/
theorem witness_HostAccessRange :
    inRange (-1) = false ∧ inRange 65536 = false ∧ inRange 0 = true ∧ inRange 65535 = true ∧
    ((0xFFFF#16).toNat : Int) = 65535 ∧ ((0x0000#16).toNat : Int) = 0 := by decide +kernel

/-- Pointers at 0xFE and at the page-zero wrap, indexing across a page and around the top of the address space. -/
theorem witness_OperandForms :
    ((0x0032#16).toNat = ((0xFE#8).toNat + busy.x.toNat) % 256 ∧ (0x0033#16).toNat = ((0xFE#8).toNat + busy.x.toNat + 1) % 256) ∧
    ((0x00FF#16).toNat = (0xFF#8).toNat ∧ (0x0000#16).toNat = ((0xFF#8).toNat + 1) % 256) ∧
    (busy.effAddr (.absx 0xFFF0#16)).addr = 0x0024 ∧ (busy.effAddr (.absx 0xFFF0#16)).crossed = true ∧
    (busy.effAddr (.absx 0x1234#16)).crossed = false := by decide +kernel

theorem witness_CycleFigures :
    (Instr.ldaAbsx 0xC2F0#16).wf = true ∧ ⟨.lda, .absx, 0xBD#8, 4, .page⟩ ∈ printedRows ∧
    pageMark busy (.ldaAbsx 0xC2F0#16) = 1 ∧ branchMark busy (.bne 0x80#8) = 2 ∧ branchMark busy (.beq 0x80#8) = 0 ∧
    ∃ t, exec (.ldaAbsx 0xC2F0#16) busy = .next t :=
  ⟨by decide +kernel, by decide +kernel, by decide +kernel, by decide +kernel, by decide +kernel, _, rfl⟩

theorem witness_LoadResults : (Instr.ldaIndy 0x10#8).mnemonic = .lda ∧ (Instr.ldxZpy 0x10#8).mnemonic = .ldx ∧
    (Instr.ldyAbsx 0x1234#16).mnemonic = .ldy := ⟨rfl, rfl, rfl⟩

theorem witness_AddSubtractResults : (Instr.adcImm 0x50#8).mnemonic = .adc ∧ (Instr.sbcZp 0x10#8).mnemonic = .sbc := ⟨rfl, rfl⟩

theorem witness_LogicalResults : (Instr.oraImm 0xF0#8).mnemonic = .ora ∧ (Instr.andZp 0x10#8).mnemonic = .and ∧
    (Instr.eorAbs 0xC200#16).mnemonic = .eor := ⟨rfl, rfl, rfl⟩

theorem witness_BitTestResults : (Instr.bitZp 0x10#8).mnemonic = .bit := rfl

theorem witness_CompareResults : (Instr.cmpImm 0x40#8).mnemonic = .cmp ∧ (Instr.cpxZp 0x10#8).mnemonic = .cpx ∧
    (Instr.cpyAbs 0xC200#16).mnemonic = .cpy := ⟨rfl, rfl, rfl⟩

theorem witness_StoreResults : busy.MemoryCanonical ∧ (Instr.staAbs 0xE000#16).mnemonic = .sta ∧
    (Instr.stxZp 0x01#8).mnemonic = .stx ∧ (Instr.styAbs 0xDC0D#16).mnemonic = .sty := ⟨busy_canonical, rfl, rfl, rfl⟩

theorem witness_ShiftResults : busy.MemoryCanonical ∧ Instr.aslAcc.mnemonic = .asl ∧ (Instr.lsrZp 0x10#8).mnemonic = .lsr ∧
    (Instr.rolAbs 0xDC0D#16).mnemonic = .rol ∧ (Instr.rorAbsx 0xC200#16).mnemonic = .ror :=
  ⟨busy_canonical, rfl, rfl, rfl, rfl⟩

theorem witness_MemoryStepResults : busy.MemoryCanonical ∧ (Instr.incZp 0x01#8).mnemonic = .inc ∧
    (Instr.decAbs 0xC000#16).mnemonic = .dec := ⟨busy_canonical, rfl, rfl⟩

theorem witness_TransferResults : Instr.txs ∈ [Instr.tax, .tay, .txa, .tya, .tsx, .txs] := by decide

theorem witness_IndexStepResults : Instr.dey ∈ [Instr.inx, .iny, .dex, .dey] := by decide

theorem witness_FlagInstructionResults : (Instr.sed, Flag.d, true) ∈
    [(Instr.clc, Flag.c, false), (.sec, .c, true), (.clv, .v, false), (.cld, .d, false), (.sed, .d, true)] := by decide

theorem witness_InterruptMaskInstructions : (Instr.cli = .cli ∨ Instr.cli = .sei) ∧ busy.irqSources ≠ 0 := by decide +kernel

theorem witness_StackTransferResults : busy.MemoryCanonical ∧ (Instr.php = .pha ∨ Instr.php = .php) :=
  ⟨busy_canonical, .inr rfl⟩

theorem witness_SubroutineResults : busy.MemoryCanonical := busy_canonical

theorem witness_BranchResults : (Instr.bne 0x80#8).form = .relative 0x80#8 ∧ branchCondition busy .bne = true ∧
    branchCondition busy .beq = false := ⟨rfl, by decide +kernel, by decide +kernel⟩

theorem witness_BreakTakesTheException : busy.MemoryCanonical := busy_canonical

theorem witness_OnlyTheseInstructionsChange : busy.UnusedSet ∧ ∃ t, exec .sed busy = .next t ∧ t.flag .d ≠ busy.flag .d :=
  ⟨busy_inv.unused, _, rfl, by decide +kernel⟩

theorem witness_StackRoundTrips : busy.MemoryCanonical ∧
    (∃ t u, exec .php busy = .next t ∧ exec .plp t = .next u) ∧
    ∃ t u, exec (.jsr 0xC100#16) busy = .next t ∧ exec .rts t = .next u :=
  ⟨busy_canonical, ⟨_, _, rfl, rfl⟩, ⟨_, _, rfl, rfl⟩⟩

theorem witness_ExceptionReturnRoundTrip : asking.MemoryCanonical ∧ (∃ u, exec .rti asking.interruptEntry = .next u) ∧
    ∃ t u, exec .brk asking = .next t ∧ exec .rti t = .next u :=
  ⟨asking_canonical, ⟨_, rfl⟩, ⟨_, _, rfl, rfl⟩⟩

/-- The output's rise, its fall, and neither. -/
theorem witness_ChipOutputDrivesItsSource :
    ((busy.chip .zero).line = false ∧ ((busy.setIcr .zero 1#5 1#5).chip .zero).line = true) ∧
    ((busy.chip .one).line = true ∧ ((busy.setIcr .one 0#5 2#5).chip .one).line = false) ∧
    ((busy.setIcr .zero 1#5 2#5).chip .zero).line = (busy.chip .zero).line ∧ ChipId.zero ≠ .one := by decide +kernel

/-- A timer with counter and latch 5 and this control register. -/
def five (cr : Byte) : Timer := { counter := 5, latch := 5, cr := cr, last := 0 }

/-- The last count without an underflow, and the first with one, one-shot and continuous. -/
theorem witness_TimerAdvance :
    5 ≤ (five 0x09).counter.toNat ∧ ((five 0x09).counter.toNat < 6 ∧ (five 0x09).oneShot = true) ∧
    ((five 0x01).counter.toNat < 6 ∧ (five 0x01).oneShot = false) ∧ ((five 0x01).advance 13).2 = 2 := by decide +kernel

/-- A counting timer and one that does not count; continuous and one-shot, up to the counter and one past it; a timer that still
counts after its underflow. -/
theorem witness_LazyUpdateIsTransparent :
    (counting .a (busy.timer .zero .a) = true ∧ (busy.timer .zero .a).last ≤ busy.cycles) ∧
    counting .b (cascade.timer .zero .b) = false ∧
    (five 0x01).oneShot = false ∧ ((five 0x09).oneShot = true ∧ 5 ≤ (five 0x09).counter.toNat) ∧
    (five 0x09).counter.toNat < 6 ∧
    counting .a ((State.updateTimer { busy with cycles := busy.cycles + 20 } .zero .a).timer .zero .a) = true := by
  decide +kernel

/-- V5 in two pieces: five cycles and then the sixth leave what six leave, and V6's 13 in three. -/
theorem test_V5_V6_split :
    ((five 0x09).advance 5).1.advance 1 = (five 0x09).advance 6 ∧ ((five 0x09).advance 6).1 = five 0x08 ∧
    ((((five 0x01).advance 5).1.advance 7).1.advance 1).1 = ((five 0x01).advance 13).1 ∧
    ((five 0x01).advance 13).1.counter = 4 := by decide +kernel

/-- `busy` with chip 0's timer A interrupt enabled, so that the output rises. -/
def alarmed : State := { busy with chip0 := { busy.chip0 with icrMask := 1#5 } }

/-- Timer A without and with an underflow, timer B counting A's or not, with an underflow of its own or not; a timer that is not the
advanced one; the output kept, up before, and rising. -/
theorem witness_UnderflowRaisesAndForwards :
    5 ≤ (busy.timer .zero .a).counter.toNat ∧ (busy.timer .zero .a).counter.toNat < 6 ∧
    (busy.chip .zero).bCountsA = false ∧ TimerId.b ≠ .a ∧ ChipId.one ≠ .zero ∧
    ((cascade.timer .zero .a).counter.toNat < 10 ∧ (cascade.chip .zero).bCountsA = true ∧
      ¬(cascade.timer .zero .b).counter.toNat < ((cascade.timer .zero .a).advance 10).2) ∧
    (cascade.timer .zero .b).counter.toNat < ((cascade.timer .zero .a).advance 55).2 ∧
    ((busy.chip .zero).line = false ∧ ((busy.advanceTimer .zero .a 6).chip .zero).line = false) ∧
    (busy.chip .one).line = true ∧
    ((alarmed.chip .zero).line = false ∧ ((alarmed.advanceTimer .zero .a 6).chip .zero).line = true) := by
  decide +kernel

theorem witness_StartTimerArms :
    counting .a (busy.timer .zero .a) = true ∧ counting .b (cascade.timer .zero .b) = false ∧
    ((200, ⟨.zero, .b⟩) : Nat × Request).2 ≠ ⟨.zero, .a⟩ := by decide +kernel

theorem witness_QueuePosition : crowded.QueueOrdered ∧ crowded.queued ⟨.zero, .b⟩ = true :=
  ⟨by unfold State.QueueOrdered; decide +kernel, by decide +kernel⟩

/-- Held pins at both ports, drawn pins at both, and the two ends of the unimplemented registers. -/
theorem witness_PortRegisters : (busy.chip .zero).pinsA = .level 0xFF#8 ∧ (busy.chip .one).pinsB = .level 0xFF#8 ∧
    ((busy.setPins .one .drawn .drawn).chip .one).pinsA = .drawn ∧ ((busy.setPins .one .drawn .drawn).chip .one).pinsB = .drawn ∧
    ChipReg.ofIndex 8 = .unimplemented ∧ ChipReg.ofIndex 12 = .unimplemented := ⟨rfl, rfl, rfl, rfl, rfl, rfl⟩

/-! Outputs (R14, R312, R360). -/

/-- STA $D020: the write is driven outward with its address and byte, and the step ends in `VideoAdvance` of its 4 cycles. -/
theorem test_video_write_and_advance :
    (match step (start 0x0E 0 0 0xFF 0x30 [(0xC000, 0x8D#8), (0xC001, 0x20#8), (0xC002, 0xD0#8)]) with
    | .next t => t.outputs | _ => []) = [.videoAdvance 4, .videoWrite 0xD020#16 0x0E#8] := by decide +kernel

/-- LDA $D800: the read is driven outward with its address; an unassigned opcode ends a step without `VideoAdvance`. -/
theorem test_video_read_and_halt :
    (match step (start 0 0 0 0xFF 0x30 [(0xC000, 0xAD#8), (0xC002, 0xD8#8)]) with
    | .next t => t.outputs | _ => []) = [.videoAdvance 4, .videoRead 0xD800#16] ∧
    (match step doomed with | .next t => t.outputs | _ => [.videoAdvance 0]) = [] := by decide +kernel

/-- Two writes of port A: the second hook sees the first write's byte as the previous value, which is then the new one. -/
theorem test_port_hooks :
    (let t := put 0 0 0xA5 (put 0 0 0x5A State.reset)
     t.outputs = [.postWrite .zero 0xA5 0 0x5A 0, .postWrite .zero 0x5A 0 0 0] ∧ t.chip0.prevPra = 0xA5) ∧
    ((put 0 1 0x0F (put 0 3 0xF0 State.reset)).readReg .zero .portB).2.outputs =
      [.preRead .zero 0 0x0F 0 0xF0, .postWrite .zero 0 0x0F 0 0] := by decide +kernel

/-- A past, a step and a run that drive something outward. -/
theorem witness_OutputsAreFireAndForget :
    (match step (busy.behind [.videoRead 0xD000#16]) with | .next t => t.outputs.length | _ => 0) = 2 ∧
    videoCycles (busy.runCycles 1).outputs = 2 := by decide +kernel

end Sys2Proof.Tests
end

section
/-! What every step leaves: the ROM images and the port pins (R10, R32; log 9), and the trace, which is never read back and whose
`VideoAdvance` notifications count the cycles (R14, R360; log 18). -/

namespace Sys2Proof.Machine

/-! One step of the block. -/

/-- A property that instructions keep, together with the cycle count and `running`: no access moves either. -/
theorem KeptByInstr.and_cycles_running {P : State → Prop} (hP : KeptByInstr P) (n : Nat) :
    KeptByInstr (fun u => P u ∧ u.cycles = n ∧ u.running = true) where
  regs u a x y sp pc h := ⟨hP.regs u a x y sp pc h.1, h.2⟩
  flag u f b hu hi h := ⟨hP.flag u f b hu hi h.1, h.2⟩
  mask u b h := ⟨hP.mask u b h.1, h.2⟩
  status u v h := ⟨hP.status u v h.1, h.2⟩
  read u a h :=
    have ho := only_afterRead u a
    ⟨hP.read u a h.1, ho.cycles.trans h.2.1, ho.running.trans h.2.2⟩
  write u a v h := by
    obtain ⟨⟨-, -, -, -, -, -, hrun⟩, hcyc⟩ := registers_write u a v
    exact ⟨hP.write u a v h.1, hcyc.trans h.2.1, hrun.trans h.2.2⟩

/-- What one step can do, for a property that instructions keep and that holds once the due callbacks have run: work that keeps
the property, and then 2 to 7 cycles with a `VideoAdvance` of them, or the halt (R120, R360, R395). -/
theorem step_keeps {P : State → Prop} (hP : KeptByInstr P) {s t : State} (hs : P s.serviceDue) (h : step s = .next t) :
    ∃ u, P u ∧ u.cycles = s.cycles ∧ ((∃ n, 2 ≤ n ∧ n ≤ 7 ∧ t = (u.addCycles n).emit (.videoAdvance n)) ∨
      t = { u with running := false }) := by
  have hcyc := (only_serviceDue s).cycles
  unfold step at h
  cases hp : stepProcessor s.serviceDue with
  | fault f => rw [hp] at h; cases h
  | refused r => rw [hp] at h; cases h
  | next v =>
    rw [hp] at h
    cases h
    have hrun : s.serviceDue.running = true := (stepProcessor_cases hp).1
    obtain ⟨u, ⟨hu, huc, hur⟩, ⟨n, h2, h7, rfl⟩ | rfl⟩ := stepProcessor_keeps (hP.and_cycles_running s.cycles) ⟨hs, hcyc, hrun⟩ hp
    · exact ⟨u, hu, huc, .inl ⟨n, h2, h7, by simp [hur, huc, hcyc]⟩⟩
    · exact ⟨u, hu, huc, .inr rfl⟩

/-! The inputs of the block. -/

/-- The inputs the state holds: the ROM images (R32; log 4), and the pins at both ports of each chip (log 9). -/
def State.inputs (s : State) : Memory × Memory × Memory × (ChipId → PinInput × PinInput) :=
  (s.romKernel, s.romBasic, s.romChar, fun k => ((s.chip k).pinsA, (s.chip k).pinsB))

section
variable (s : State) (k : ChipId) (t : TimerId)

theorem inputs_setChip {c : TimerChip} (hA : c.pinsA = (s.chip k).pinsA) (hB : c.pinsB = (s.chip k).pinsB) :
    (s.setChip k c).inputs = s.inputs := by
  have hpins : ∀ j, (((s.setChip k c).chip j).pinsA, ((s.setChip k c).chip j).pinsB) =
      ((s.chip j).pinsA, (s.chip j).pinsB) := fun j => by
    rw [chip_setChip]
    split
    case isTrue hj => rw [hj, hA, hB]
    case isFalse => rfl
  have ho := only_setChip s k c
  simp only [State.inputs, ho.romKernel, ho.romBasic, ho.romChar, hpins]

@[simp] theorem inputs_setTimer (tm : Timer) : (s.setTimer k t tm).inputs = s.inputs := by
  cases t <;> exact inputs_setChip s k rfl rfl

@[simp] theorem inputs_setIcr (f m : BitVec 5) : (s.setIcr k f m).inputs = s.inputs := by
  have hput : (s.setChip k { s.chip k with icrFlags := f, icrMask := m }).inputs = s.inputs := inputs_setChip s k rfl rfl
  unfold State.setIcr
  simp only
  split
  · exact hput
  · split <;> exact hput

@[simp] theorem inputs_advanceOne (n : Nat) : (s.advanceOne k t n).1.inputs = s.inputs := by
  unfold State.advanceOne
  simp only
  split <;> simp

@[simp] theorem inputs_advanceTimer (n : Nat) : (s.advanceTimer k t n).inputs = s.inputs := by
  cases t with
  | a =>
    simp only [State.advanceTimer]
    split <;> simp
  | b => exact inputs_advanceOne ..

@[simp] theorem inputs_updateTimer : (s.updateTimer k t).inputs = s.inputs := by
  unfold State.updateTimer
  simp only
  split
  · simp
  · rfl

@[simp] theorem inputs_startTimer : (s.startTimer k t).inputs = s.inputs := by
  unfold State.startTimer
  simp only
  split
  · exact inputs_setTimer ..
  · rfl

theorem inputs_readReg (r : ChipReg) : (s.readReg k r).2.inputs = s.inputs := by
  cases r with
  | portA => simp only [State.readReg, State.samplePins]; split <;> rfl
  | portB => simp only [State.readReg, State.samplePins]; split <;> rfl
  | timerLow t => exact inputs_updateTimer ..
  | timerHigh t => exact inputs_updateTimer ..
  | control t => exact inputs_updateTimer ..
  | icr => exact inputs_setIcr ..
  | ddrA => rfl
  | ddrB => rfl
  | unimplemented => rfl

theorem inputs_writePort {c : TimerChip} (hA : c.pinsA = (s.chip k).pinsA) (hB : c.pinsB = (s.chip k).pinsB) :
    (s.writePort k c).inputs = s.inputs := by
  rw [writePort_eq]
  exact inputs_setChip s k (c := c.snapshot) hA hB

theorem inputs_writeReg (r : ChipReg) (v : Byte) : (s.writeReg k r v).inputs = s.inputs := by
  cases r with
  | portA => exact inputs_writePort s k rfl rfl
  | portB => exact inputs_writePort s k rfl rfl
  | ddrA => exact inputs_setChip s k rfl rfl
  | ddrB => exact inputs_setChip s k rfl rfl
  | timerLow t => exact (inputs_setTimer ..).trans (inputs_updateTimer ..)
  | timerHigh t => exact (inputs_setTimer ..).trans (inputs_updateTimer ..)
  | control t => exact (inputs_startTimer ..).trans ((inputs_setTimer ..).trans (inputs_updateTimer ..))
  | icr => exact inputs_setIcr ..
  | unimplemented => rfl

theorem inputs_ioRead (a : Addr) : (s.ioRead a).2.inputs = s.inputs := by
  unfold State.ioRead
  split
  · exact inputs_readReg ..
  · rfl
  · rfl

theorem inputs_ioWrite (a : Addr) (v : Byte) : (s.ioWrite a v).inputs = s.inputs := by
  unfold State.ioWrite
  split
  · exact inputs_writeReg ..
  · rfl
  · rfl

theorem inputs_afterRead (a : Addr) : (s.afterRead a).inputs = s.inputs := by
  by_cases hio : s.source a = .io
  · unfold State.afterRead State.read
    rw [hio]
    exact inputs_ioRead s a
  · rw [afterRead_eq hio]

/-- A write lands in a latch, in RAM or in the I-O region, never in a ROM (R67, R70). -/
theorem inputs_write (a : Addr) (v : Byte) : (s.write a v).inputs = s.inputs := by
  rcases write_cases s a v with ⟨-, he⟩ | ⟨-, he⟩ | ⟨-, -, -, he⟩ | ⟨-, -, -, he⟩ <;> rw [he]
  · rfl
  · rfl
  · exact inputs_ioWrite s a v
  · rfl

end

theorem inputs_drainDue (n fuel : Nat) (s : State) : (drainDue n fuel s).inputs = s.inputs := by
  induction fuel generalizing s with
  | zero => rfl
  | succ fuel ih =>
    unfold drainDue
    split
    · rfl
    · split
      · rw [ih, State.timerCallback, inputs_startTimer, inputs_updateTimer]; rfl
      · rfl

theorem inputs_serviceDue (s : State) : s.serviceDue.inputs = s.inputs := by
  unfold State.serviceDue
  split
  · exact inputs_drainDue ..
  · rfl

/-- No instruction changes an input of the block. -/
theorem keptByInstr_inputs (s : State) : KeptByInstr (fun u => u.inputs = s.inputs) where
  regs _ _ _ _ _ _ h := h
  flag _ _ _ _ _ h := h
  mask _ _ h := h
  status _ _ h := h
  read u a h := (inputs_afterRead u a).trans h
  write u a v h := (inputs_write u a v).trans h

theorem inputs_step {s t : State} (h : step s = .next t) : t.inputs = s.inputs := by
  obtain ⟨u, hu, -, ⟨n, -, -, rfl⟩ | rfl⟩ := step_keeps (keptByInstr_inputs s) (inputs_serviceDue s) h
  · exact hu
  · exact hu

/-- Settles O16: the callbacks and every access an instruction makes keep the block's inputs, and `step` is made of these. -/
theorem romAndPinsNeverChange : Obligations.RomAndPinsNeverChange := by
  unfold Obligations.RomAndPinsNeverChange
  intro s t h
  have hin := inputs_step h
  simp only [State.inputs, Prod.mk.injEq] at hin
  obtain ⟨hkernel, hbasic, hchar, hpins⟩ := hin
  exact ⟨hkernel, hbasic, hchar, fun k => Prod.mk.inj (congrFun hpins k)⟩

/-! Outputs are not read back (R14). -/

theorem behind_stepProcessor (s : State) (past : List Output) :
    stepProcessor (s.behind past) = outcomeBehind past (stepProcessor s) := by
  have hirq : (s.behind past).interruptEntry = s.interruptEntry.behind past := behind_takeException ..
  unfold stepProcessor
  simp only [hirq, behind_complete, behind_fetchInstr, behind_exec]
  change (if !s.running then _ else if s.irqPending && !s.flag .i then _ else _) = _
  split
  · rfl
  · split <;> rfl

theorem behind_notifyVideo (before : Nat) (past : List Output) (r : Result) :
    notifyVideo before (outcomeBehind past r) = outcomeBehind past (notifyVideo before r) := by
  cases r with
  | next t => cases hr : t.running <;> simp [notifyVideo, outcomeBehind, hr, State.behind, State.emit]
  | fault f => rfl
  | refused r => rfl

theorem behind_step (s : State) (past : List Output) : step (s.behind past) = outcomeBehind past (step s) := by
  simp only [step, behind_serviceDue, behind_cycles, behind_stepProcessor, behind_notifyVideo]

/-! The trace counts the cycles (R360). -/

/-- `t` has the trace of `s` and then outputs whose `VideoAdvance` notifications add up to the cycles from `s` to `t`. -/
def VideoInStep (s t : State) : Prop := ∃ new, t.outputs = new ++ s.outputs ∧ s.cycles + videoCycles new = t.cycles

theorem VideoInStep.refl (s : State) : VideoInStep s s := ⟨[], rfl, rfl⟩

theorem VideoInStep.trans {s t u : State} (h : VideoInStep s t) (g : VideoInStep t u) : VideoInStep s u := by
  obtain ⟨m, hm, cm⟩ := h
  obtain ⟨n, hn, cn⟩ := g
  exact ⟨n ++ m, by rw [hn, hm, List.append_assoc], by rw [videoCycles_append]; omega⟩

/-- Accesses advance neither the video nor `cycles`. -/
theorem OnlyAccesses.video {s t : State} (h : OnlyAccesses s t) (hc : t.cycles = s.cycles) : VideoInStep s t := by
  obtain ⟨new, hnew, hzero⟩ := h
  exact ⟨new, hnew, by rw [hzero, hc]; rfl⟩

theorem video_serviceDue (s : State) : VideoInStep s s.serviceDue :=
  (OnlyAccesses.of_eq (outputs_serviceDue s)).video (only_serviceDue s).cycles

/-- A step that costs cycles advances the video by them; one that halts does neither. -/
theorem video_step {s t : State} (h : step s = .next t) : VideoInStep s t := by
  obtain ⟨u, hu, hc, ⟨n, -, -, rfl⟩ | rfl⟩ :=
    step_keeps (keptByInstr_accesses s) (OnlyAccesses.of_eq (outputs_serviceDue s)) h
  · exact (hu.video hc).trans ⟨[.videoAdvance n], rfl, rfl⟩
  · exact (hu.video hc).trans (.refl u)

theorem video_runLoop (target fuel : Nat) (s : State) : VideoInStep s (runLoop target fuel s) := by
  induction fuel generalizing s with
  | zero => exact .refl s
  | succ fuel ih =>
    unfold runLoop
    split
    · cases hst : step s with
      | next t =>
        simp only
        split
        · exact (video_step hst).trans (ih t)
        · exact video_step hst
      | fault f => exact video_serviceDue s
      | refused r => exact video_serviceDue s
    · exact .refl s

/-- Settles O60: each part of a step commutes with putting a past before the trace; every pass of the run loop advances the video
by the cycles it took. -/
theorem outputsAreFireAndForget : Obligations.OutputsAreFireAndForget := by
  unfold Obligations.OutputsAreFireAndForget
  refine ⟨fun s past => ?_, fun s n => video_runLoop (s.cycles + n) n s⟩
  rw [behind_step]
  cases step s <;> rfl

end Sys2Proof.Machine
end

section
/-! The invariant of the block (R24, R31, R36, R39, R40, R274, R330, R331): every step keeps it and power-on leaves it. And the values
that `Reset` leaves (R45, R380, R381). -/

namespace Sys2Proof.Machine

/-! Every step. -/

/-- Settles O11. A deadline in the past would let an access underflow a timer without its callback, so `State.Inv` alone does not
go through an instruction. The due callbacks leave the stronger `Quiet`, which every access keeps; ending the step gives it up. -/
theorem stepKeepsInvariant : Obligations.StepKeepsInvariant := by
  unfold Obligations.StepKeepsInvariant
  intro s t hs h
  obtain ⟨u, hu, -, ⟨n, -, -, rfl⟩ | rfl⟩ := step_keeps quiet_kept (quiet_serviceDue hs) h
  · exact inv_emit (inv_addCycles hu.inv n) (.videoAdvance n)
  · exact inv_halt hu.inv

/-! Power-on. -/

section
variable (initRam kernel basic char : Memory)

theorem chip_powerOn (k : ChipId) : (State.powerOn initRam kernel basic char).chip k = .powerOn := by cases k <;> rfl

theorem timer_powerOn (k : ChipId) (t : TimerId) : (State.powerOn initRam kernel basic char).timer k t = .powerOn := by
  rw [State.timer, chip_powerOn]
  cases t <;> rfl

end

/-- No timer is started at power-on (R46). -/
theorem counting_powerOn (t : TimerId) : counting t .powerOn = false := by cases t <;> rfl

theorem powerOn_inv {initRam kernel basic char : Memory} (hr : Memory.wf 65536 initRam) (hk : Memory.wf 8192 kernel)
    (hb : Memory.wf 8192 basic) (hc : Memory.wf 4096 char) : (State.powerOn initRam kernel basic char).Inv where
  memory := ⟨hr, hk, hb, hc⟩
  unused := by simp [State.UnusedSet, State.flag, State.powerOn, statusGet, Flag.bit, Config.pReset]
  forceLoad k t := by rw [timer_powerOn]; rfl
  latch := rfl
  lines k := by
    rw [chip_powerOn]
    exact BitVec.getLsbD_zero
  queue := List.Pairwise.nil
  armed k t := by
    rw [timer_powerOn, counting_powerOn]
    rfl

/-- Settles O12: nothing is asserted, started or queued at power-on, and `State.reset` is the power-on with the default images. -/
theorem powerOnHasInvariant : Obligations.PowerOnHasInvariant := by
  unfold Obligations.PowerOnHasInvariant
  have hkernel : Memory.wf 8192 defaultKernel := by decide
  exact ⟨powerOn_inv (Memory.wf_nil _) hkernel (Memory.wf_nil _) (Memory.wf_nil _),
    fun _ _ _ _ hr hk hb hc => powerOn_inv hr hk hb hc⟩

/-! Reset. -/

/-- A byte of the kernel ROM, from 0xE000 up with HIRAM set (R66, R78). -/
theorem byteAt_kernelRom {s : State} {a : Addr} (hiram : s.hiram = true) (ha : 0xE000 ≤ a.toNat) :
    s.byteAt a = s.romKernel.read (a.toNat - 0xE000) := by
  have hsrc : s.source a = .kernelRom := by
    unfold State.source
    rw [if_neg (by omega), if_neg (by omega), if_neg (by omega), if_pos ha, if_pos hiram]
  simp [State.byteAt, State.read, hsrc]

/-- Both latches 0 leave HIRAM set, so `Reset` finds its vector in the kernel image (R63, R380). -/
theorem vector_powerOn (initRam kernel basic char : Memory) :
    (State.powerOn initRam kernel basic char).vector Config.resetVector = word (kernel.read 0x1FFC) (kernel.read 0x1FFD) := by
  have hiram : (State.powerOn initRam kernel basic char).hiram = true := by
    simp [State.hiram, State.effPort, State.powerOn]
  unfold State.vector
  rw [byteAt_kernelRom hiram (by decide), byteAt_kernelRom hiram (by decide)]
  rfl

theorem resetProcessor_powerOn (initRam kernel basic char : Memory) :
    (State.powerOn initRam kernel basic char).resetProcessor = State.powerOn initRam kernel basic char := by
  unfold State.resetProcessor
  rw [vector_powerOn]
  rfl

/-- Settles O13: `Reset` writes the Processor's fields alone, so storage reads as before it. -/
theorem resetValues : Obligations.ResetValues := by
  unfold Obligations.ResetValues
  refine ⟨resetProcessor_powerOn, fun s => ?_⟩
  have hmem : MemoryUntouched s s.resetProcessor := memoryUntouched_of rfl rfl rfl rfl rfl rfl
  exact ⟨rfl, rfl, rfl, rfl, rfl, rfl, rfl, rfl, rfl, rfl, hmem, rfl, rfl, rfl, rfl⟩

end Sys2Proof.Machine
end

section
/-! The address space: the source of a read (R66, R78), where a write lands (R67, R70), the bank control (R63 to R65), the I-O routing
(R75, R76) and the host's accesses (R68). -/

namespace Sys2Proof.Machine

/-! The source of a read, range by range (R66, R78). -/

section
variable {s : State} {a : Addr}

theorem source_basicRange (hlo : 0xA000 ≤ a.toNat) (hhi : a.toNat ≤ 0xBFFF) :
    s.source a = if s.loram && s.hiram then .basicRom else .ram := by
  unfold State.source
  rw [if_neg (by omega), if_neg (by omega), if_neg (by omega), if_neg (by omega), if_pos ⟨hlo, hhi⟩]

theorem source_ioRange (hlo : 0xD000 ≤ a.toNat) (hhi : a.toNat ≤ 0xDFFF) :
    s.source a = if !s.loram && !s.hiram then .ram else if s.charen then .io else .charRom := by
  unfold State.source
  rw [if_neg (by omega), if_neg (by omega), if_pos ⟨hlo, hhi⟩]

theorem source_kernelRange (hlo : 0xE000 ≤ a.toNat) : s.source a = if s.hiram then .kernelRom else .ram := by
  unfold State.source
  rw [if_neg (by omega), if_neg (by omega), if_neg (by omega), if_pos hlo]

end

/-- Settles O20: each range takes one branch of R66, and the three control bits then decide. -/
theorem bankTable : Obligations.BankTable := by
  unfold Obligations.BankTable
  intro s a
  refine ⟨fun hlo hhi => ?_, fun hlo hhi => ?_, fun hlo => ?_, fun hlo hhi => source_low hlo (by omega),
    fun hlo hhi => source_c000 hlo (by omega), fun t hd hp => source_congr hd hp a⟩
  · rw [source_basicRange hlo hhi]
    cases s.charen <;> cases s.hiram <;> cases s.loram <;> rfl
  · rw [source_ioRange hlo hhi]
    cases s.charen <;> cases s.hiram <;> cases s.loram <;> rfl
  · rw [source_kernelRange hlo]
    cases s.charen <;> cases s.hiram <;> cases s.loram <;> rfl

/-! Reads. -/

/-- The addresses at which a source can be seen (R72 to R75). -/
def Source.sees : Source → Addr → Prop
  | .ddrLatch, a => a.toNat = 0
  | .portLatch, a => a.toNat = 1
  | .ram, _ => True
  | .kernelRom, a => 0xE000 ≤ a.toNat
  | .basicRom, a => 0xA000 ≤ a.toNat ∧ a.toNat ≤ 0xBFFF
  | .charRom, a => 0xD000 ≤ a.toNat ∧ a.toNat ≤ 0xDFFF
  | .io, a => 0xD000 ≤ a.toNat ∧ a.toNat ≤ 0xDFFF

theorem sees_source (s : State) (a : Addr) : (s.source a).sees a := by
  by_cases hddr : a.toNat = 0
  · simp [State.source, hddr, Source.sees]
  by_cases hport : a.toNat = 1
  · simp [State.source, hport, Source.sees]
  by_cases hio : 0xD000 ≤ a.toNat ∧ a.toNat ≤ 0xDFFF
  · rw [source_ioRange hio.1 hio.2]
    split
    · trivial
    · split <;> exact hio
  by_cases hkernel : 0xE000 ≤ a.toNat
  · rw [source_kernelRange hkernel]
    split
    · exact hkernel
    · trivial
  by_cases hbasic : 0xA000 ≤ a.toNat ∧ a.toNat ≤ 0xBFFF
  · rw [source_basicRange hbasic.1 hbasic.2]
    split
    · exact hbasic
    · trivial
  · simp [State.source, hddr, hport, hio, hkernel, hbasic, Source.sees]

section
variable {s : State} {a : Addr}

theorem read_ram (h : s.source a = .ram) : s.read a = (s.ram.read a.toNat, s) := by simp [State.read, h]

theorem read_kernelRom (h : s.source a = .kernelRom) : s.read a = (s.romKernel.read (a.toNat - 0xE000), s) := by
  simp [State.read, h]

theorem read_basicRom (h : s.source a = .basicRom) : s.read a = (s.romBasic.read (a.toNat - 0xA000), s) := by
  simp [State.read, h]

theorem read_charRom (h : s.source a = .charRom) : s.read a = (s.romChar.read (a.toNat - 0xD000), s) := by
  simp [State.read, h]

theorem read_io (h : s.source a = .io) : s.read a = s.ioRead a := by simp [State.read, h]

end

theorem read_ddrLatch (s : State) : s.read 0 = (s.bankDdr, s) := by rw [State.read, (source_latch s).1]

theorem read_portLatch (s : State) : s.read 1 = (s.effPort, s) := by rw [State.read, (source_latch s).2]

/-- Settles O21: the source names the storage, and is seen only in its own range. -/
theorem readsByTheirSource : Obligations.ReadsByTheirSource := by
  unfold Obligations.ReadsByTheirSource
  intro s a
  have hsees : ∀ {src}, s.source a = src → src.sees a := fun h => h ▸ sees_source s a
  refine ⟨read_ram, fun h => ⟨hsees h, read_kernelRom h⟩, fun h => ?_, fun h => ?_, fun h => ?_, read_ddrLatch s,
    read_portLatch s⟩
  · obtain ⟨hlo, hhi⟩ := hsees h
    exact ⟨hlo, hhi, read_basicRom h⟩
  · obtain ⟨hlo, hhi⟩ := hsees h
    exact ⟨hlo, hhi, read_charRom h⟩
  · obtain ⟨hlo, hhi⟩ := hsees h
    exact ⟨hlo, hhi, read_io h⟩

/-! Writes. -/

/-- A write keeps the canonical form (R31). -/
theorem canonical_write {s : State} (h : s.MemoryCanonical) (a : Addr) (v : Byte) : (s.write a v).MemoryCanonical := by
  rcases write_cases s a v with ⟨-, he⟩ | ⟨-, he⟩ | ⟨-, -, -, he⟩ | ⟨-, -, -, he⟩ <;> rw [he]
  · exact h
  · exact h
  · have ho := only_ioWrite s a v
    unfold State.MemoryCanonical
    rw [ho.ram, ho.romKernel, ho.romBasic, ho.romChar]
    exact h
  · exact ⟨Memory.wf_write v a.isLt h.1, h.2⟩

/-- The sources under which a write lands in RAM: RAM itself and the three ROMs (R67). -/
theorem write_of_source {s : State} {a : Addr} (v : Byte)
    (h : s.source a = .ram ∨ s.source a = .kernelRom ∨ s.source a = .basicRom ∨ s.source a = .charRom) :
    s.write a v = { s with ram := s.ram.write a.toNat v } := by
  rcases h with h | h | h | h <;> simp [State.write, h]

/-- A byte stored where RAM is seen is read back. -/
theorem byteAt_write_ram {s : State} (hc : s.MemoryCanonical) {a : Addr} (v : Byte) (h : s.source a = .ram) :
    (s.write a v).byteAt a = v := by
  rw [write_of_source v (.inl h)]
  have hsrc : State.source { s with ram := s.ram.write a.toNat v } a = .ram := (source_congr rfl rfl a).trans h
  rw [State.byteAt, read_ram hsrc]
  exact Memory.read_write_same _ _ hc.1

/-- A byte stored under a ROM is in RAM, and the ROM is still what is seen (R67). -/
theorem write_underRom {s : State} (hc : s.MemoryCanonical) {a : Addr} (v : Byte)
    (h : s.source a = .kernelRom ∨ s.source a = .basicRom ∨ s.source a = .charRom) :
    (s.write a v).byteAt a = s.byteAt a ∧ (s.write a v).ram.read a.toNat = v := by
  rw [write_of_source v (.inr h)]
  refine ⟨?_, Memory.read_write_same _ _ hc.1⟩
  have hsrc : State.source { s with ram := s.ram.write a.toNat v } a = s.source a := source_congr rfl rfl a
  unfold State.byteAt
  rcases h with h | h | h
  · rw [read_kernelRom h, read_kernelRom (hsrc.trans h)]
  · rw [read_basicRom h, read_basicRom (hsrc.trans h)]
  · rw [read_charRom h, read_charRom (hsrc.trans h)]

/-- Settles O22, from the four things a write can be (`write_cases`). -/
theorem writeLandsAtItsAddress : Obligations.WriteLandsAtItsAddress := by
  unfold Obligations.WriteLandsAtItsAddress
  intro s a v hc
  obtain ⟨hregs, hcycles⟩ := registers_write s a v
  exact ⟨storedAt_write hc a v, hregs, hcycles, canonical_write hc a v, byteAt_write_ram hc v, write_underRom hc v⟩

/-! Bank control. -/

/-- A bit of the effective port: the port latch where the direction bit is 1, else 1 (R63). -/
theorem getLsbD_effPort (s : State) {k : Nat} (hk : k < 8) :
    s.effPort.getLsbD k = if s.bankDdr.getLsbD k then s.bankPort.getLsbD k else true := by
  simp only [State.effPort, BitVec.getLsbD_or, BitVec.getLsbD_and, BitVec.getLsbD_not, hk]
  cases s.bankDdr.getLsbD k <;> simp

/-- Settles O23: addresses 0 and 1 are the latches, and the effective port is computed bit by bit. -/
theorem bankControl : Obligations.BankControl := by
  unfold Obligations.BankControl
  intro s v
  exact ⟨write_ddr s v, write_port s v, congrArg Prod.fst (read_ddrLatch s), congrArg Prod.fst (read_portLatch s),
    fun k hk => getLsbD_effPort s hk, rfl, rfl, rfl⟩

/-! I-O routing. -/

section
variable {a : Addr}

theorem ioRoute_chipZero (hlo : 0xDC00 ≤ a.toNat) (hhi : a.toNat ≤ 0xDCFF) : ioRoute a = .chip .zero := by
  unfold ioRoute
  rw [if_neg (by omega), if_neg (by omega), if_neg (by omega), if_pos hhi]

theorem ioRoute_chipOne (hlo : 0xDD00 ≤ a.toNat) (hhi : a.toNat ≤ 0xDDFF) : ioRoute a = .chip .one := by
  unfold ioRoute
  rw [if_neg (by omega), if_neg (by omega), if_neg (by omega), if_neg (by omega), if_pos hhi]

theorem ioRoute_nothing (h : (0xD400 ≤ a.toNat ∧ a.toNat ≤ 0xD7FF) ∨ (0xDE00 ≤ a.toNat ∧ a.toNat ≤ 0xDFFF)) :
    ioRoute a = .nothing := by
  unfold ioRoute
  rcases h with ⟨hlo, hhi⟩ | ⟨hlo, hhi⟩
  · rw [if_neg (by omega), if_pos hhi]
  · rw [if_neg (by omega), if_neg (by omega), if_neg (by omega), if_neg (by omega), if_neg (by omega)]

theorem ioRoute_video (h : (0xD000 ≤ a.toNat ∧ a.toNat ≤ 0xD3FF) ∨ (0xD800 ≤ a.toNat ∧ a.toNat ≤ 0xDBFF)) :
    ioRoute a = .video := by
  unfold ioRoute
  rcases h with ⟨-, hhi⟩ | ⟨hlo, hhi⟩
  · rw [if_pos hhi]
  · rw [if_neg (by omega), if_neg (by omega), if_pos hhi]

end

/-- Settles O24: `IoRead` and `IoWrite` branch on the route alone. -/
theorem ioRouting : Obligations.IoRouting := by
  unfold Obligations.IoRouting State.ioRead State.ioWrite
  intro s a v
  refine ⟨fun hlo hhi => ?_, fun hlo hhi => ?_, fun h => ?_, fun h => ?_⟩
  · rw [ioRoute_chipZero hlo hhi]
    exact ⟨rfl, rfl⟩
  · rw [ioRoute_chipOne hlo hhi]
    exact ⟨rfl, rfl⟩
  · rw [ioRoute_nothing h]
    exact ⟨rfl, rfl⟩
  · rw [ioRoute_video h]
    exact ⟨rfl, rfl⟩

/-! The host's accesses. -/

theorem inRange_iff (a : Int) : inRange a = true ↔ 0 ≤ a ∧ a ≤ 65535 := by
  simp [inRange]

/-- Settles O25: `inRange` decides between the report and the plain access at the address as a word. -/
theorem hostAccessRange : Obligations.HostAccessRange := by
  unfold Obligations.HostAccessRange State.hostRead State.hostWrite
  intro s a v
  refine ⟨fun hout => ?_, fun hlo hhi b hb => ?_⟩
  · have hno : ¬inRange a = true := by rw [inRange_iff]; omega
    rw [if_neg hno, if_neg hno]
    exact ⟨rfl, rfl⟩
  · have haddr : BitVec.ofInt 16 a = b := by rw [← hb, BitVec.ofInt_natCast, BitVec.ofNat_toNat, BitVec.setWidth_eq]
    rw [if_pos ((inRange_iff a).2 ⟨hlo, hhi⟩), if_pos ((inRange_iff a).2 ⟨hlo, hhi⟩), haddr]
    exact ⟨rfl, rfl⟩

end Sys2Proof.Machine
end

section
/-! The lazy update (R83, R320, R322): it composes, so when it runs does not matter. Said of a timer, then of a chip as plain data, then
of the block, in which the updated chip is put in the place of the old one (`State.putChip`). -/

namespace Sys2Proof.Machine

/-! One timer. -/

/-- A one-shot timer that `n` counts bring to its underflow, which stops it (R323). -/
def Timer.stops (tm : Timer) (n : Nat) : Prop := tm.oneShot = true ∧ tm.counter.toNat < n

section
variable {tm : Timer} {m n : Nat}

theorem advance_of_stops (h : tm.stops n) : tm.advance n = ({ tm with counter := tm.latch, cr := tm.cr &&& 0xFE#8 }, 1) := by
  obtain ⟨hos, hlt⟩ := h
  unfold Timer.advance
  rw [if_neg (by omega), if_pos hos]

theorem advance_continuous (hos : tm.oneShot = false) (hlt : tm.counter.toNat < n) : tm.advance n =
    ({ tm with counter := BitVec.ofNat 16 (tm.latch.toNat - (n - (tm.counter.toNat + 1)) % (tm.latch.toNat + 1)) },
      1 + (n - (tm.counter.toNat + 1)) / (tm.latch.toNat + 1)) := by
  unfold Timer.advance
  rw [if_neg (by omega), if_neg (by simp [hos])]

/-- What `n` counts can do to a timer (R322, R323): stop it, move its counter alone, or reload it. -/
theorem stops_or_within_or_reloads (tm : Timer) (n : Nat) :
    tm.stops n ∨ n ≤ tm.counter.toNat ∨ (tm.oneShot = false ∧ tm.counter.toNat < n) := by
  unfold Timer.stops
  cases tm.oneShot <;> simp <;> omega

/-- What an underflow that stops the timer left stays, whatever the further counts (R323). -/
theorem Timer.advance_add_of_stops (h : tm.stops m) : tm.advance (m + n) = tm.advance m := by
  have hmn : tm.stops (m + n) := ⟨h.1, by have := h.2; omega⟩
  rw [advance_of_stops h, advance_of_stops hmn]

theorem started_of_stops (h : tm.stops n) : (tm.advance n).1.started = false := by
  rw [advance_of_stops h]
  simp [Timer.started]

theorem cr_of_not_stops (h : ¬tm.stops n) : (tm.advance n).1.cr = tm.cr := by
  rcases stops_or_within_or_reloads tm n with hs | hle | ⟨hos, hlt⟩
  · exact absurd hs h
  · rw [advance_within _ _ hle]
  · rw [advance_continuous hos hlt]

/-! `r` counts after a reload the counter stands at `latch - r % (latch + 1)`, and `r / (latch + 1)` further reloads have passed. -/

/-- `n` more counts that do not reach the next reload. -/
theorem period_within {latch r n : Nat} (h : n ≤ latch - r % (latch + 1)) :
    (r + n) % (latch + 1) = r % (latch + 1) + n ∧ (r + n) / (latch + 1) = r / (latch + 1) := by
  have hmod : r % (latch + 1) < latch + 1 := Nat.mod_lt _ (by omega)
  have hdiv := Nat.mod_add_div r (latch + 1)
  have hsum : r + n = (r % (latch + 1) + n) + (latch + 1) * (r / (latch + 1)) := by omega
  rw [hsum, Nat.add_mul_mod_self_left, Nat.add_mul_div_left _ _ (by omega), Nat.mod_eq_of_lt (by omega),
    Nat.div_eq_of_lt (by omega), Nat.zero_add]
  exact ⟨rfl, rfl⟩

/-- `n` more counts that reach the next reload, and what they leave to count after it. -/
theorem period_past {latch r n : Nat} (h : latch - r % (latch + 1) < n) :
    (r + n) % (latch + 1) = (n - (latch - r % (latch + 1) + 1)) % (latch + 1) ∧
    (r + n) / (latch + 1) = r / (latch + 1) + (1 + (n - (latch - r % (latch + 1) + 1)) / (latch + 1)) := by
  have hmod : r % (latch + 1) < latch + 1 := Nat.mod_lt _ (by omega)
  have hdiv := Nat.mod_add_div r (latch + 1)
  have hsum : r + n = (n - (latch - r % (latch + 1) + 1)) + (latch + 1) * (r / (latch + 1) + 1) := by
    rw [Nat.mul_add]; omega
  rw [hsum, Nat.add_mul_mod_self_left, Nat.add_mul_div_left _ _ (by omega)]
  exact ⟨rfl, by omega⟩

/-- What counts leave in a counter is below 2^16 too. -/
theorem toNat_ofNat_sub (c : BitVec 16) (k : Nat) : (BitVec.ofNat 16 (c.toNat - k)).toNat = c.toNat - k := by
  have := c.isLt
  rw [BitVec.toNat_ofNat]
  omega

theorem Timer.advance_add_within (h : m ≤ tm.counter.toNat) : tm.advance (m + n) = (tm.advance m).1.advance n := by
  rw [advance_within tm m h]
  have hc := toNat_ofNat_sub tm.counter m
  generalize hu : ({ tm with counter := BitVec.ofNat 16 (tm.counter.toNat - m) } : Timer) = u
  have hcu : u.counter.toNat = tm.counter.toNat - m := by rw [← hu]; exact hc
  have hou : u.oneShot = tm.oneShot := by rw [← hu]; rfl
  rcases stops_or_within_or_reloads u n with hs | hle | ⟨hos, hlt⟩
  · have hmn : tm.stops (m + n) := ⟨hou ▸ hs.1, by have := hs.2; omega⟩
    rw [advance_of_stops hs, advance_of_stops hmn, ← hu]
  · rw [advance_within _ _ hle, advance_within _ _ (by omega), hcu, Nat.sub_sub, ← hu]
  · have hrest : m + n - (tm.counter.toNat + 1) = n - (tm.counter.toNat - m + 1) := by omega
    rw [advance_continuous hos hlt, advance_continuous (hou ▸ hos) (by omega), hcu, hrest, ← hu]

theorem Timer.advance_add_continuous (hos : tm.oneShot = false) (hlt : tm.counter.toNat < m) : tm.advance (m + n) =
    (((tm.advance m).1.advance n).1, (tm.advance m).2 + ((tm.advance m).1.advance n).2) := by
  have hrest : m + n - (tm.counter.toNat + 1) = m - (tm.counter.toNat + 1) + n := by omega
  rw [advance_continuous hos hlt, advance_continuous hos (by omega), hrest]
  generalize m - (tm.counter.toNat + 1) = r
  have hc := toNat_ofNat_sub tm.latch (r % (tm.latch.toNat + 1))
  generalize hu : ({ tm with counter := BitVec.ofNat 16 (tm.latch.toNat - r % (tm.latch.toNat + 1)) } : Timer) = u
  have hcu : u.counter.toNat = tm.latch.toNat - r % (tm.latch.toNat + 1) := by rw [← hu]; exact hc
  have hlu : u.latch = tm.latch := by rw [← hu]
  have hou : u.oneShot = false := by rw [← hu]; exact hos
  by_cases hle : n ≤ u.counter.toNat
  · obtain ⟨hmod, hdiv⟩ := period_within (hcu ▸ hle)
    rw [advance_within _ _ hle, hcu, hmod, hdiv, Nat.sub_sub, ← hu]
    rfl
  · obtain ⟨hmod, hdiv⟩ := period_past (by omega : tm.latch.toNat - r % (tm.latch.toNat + 1) < n)
    rw [advance_continuous hou (by omega), hcu, hlu, hmod, hdiv, Nat.add_assoc, ← hu]

/-- Two advances of a timer that the first one does not stop are one by the sum, the underflows added up (R322). -/
theorem Timer.advance_add (h : ¬tm.stops m) : tm.advance (m + n) =
    (((tm.advance m).1.advance n).1, (tm.advance m).2 + ((tm.advance m).1.advance n).2) := by
  rcases stops_or_within_or_reloads tm m with hs | hle | ⟨hos, hlt⟩
  · exact absurd hs h
  · rw [advance_add_within hle, advance_within tm m hle, Nat.zero_add]
  · exact advance_add_continuous hos hlt

theorem advance_zero (tm : Timer) : tm.advance 0 = (tm, 0) := by
  rw [advance_within tm 0 (Nat.zero_le _), Nat.sub_zero, BitVec.ofNat_toNat, BitVec.setWidth_eq]

/-- Counting does not look at the reference. -/
theorem advance_last_set (tm : Timer) (n x : Nat) :
    ({ tm with last := x }).advance n = ({ (tm.advance n).1 with last := x }, (tm.advance n).2) := by
  rcases stops_or_within_or_reloads tm n with hs | hle | ⟨hos, hlt⟩
  · rw [advance_of_stops hs, advance_of_stops (tm := { tm with last := x }) hs]
  · rw [advance_within tm n hle, advance_within { tm with last := x } n hle]
  · rw [advance_continuous hos hlt, advance_continuous (tm := { tm with last := x }) hos hlt]

end

/-! One chip. -/

/-- The flags with a bit raised by one underflow or more (R322). -/
def raised (flags bit : BitVec 5) (underflows : Nat) : BitVec 5 := if underflows = 0 then flags else flags ||| bit

theorem raised_raised (f b : BitVec 5) (u v : Nat) : raised (raised f b u) b v = raised f b (u + v) := by
  cases u <;> cases v <;> simp [raised, BitVec.or_assoc]

theorem raised_comm (f b d : BitVec 5) (u v : Nat) : raised (raised f b u) d v = raised (raised f d v) b u := by
  cases u <;> cases v <;> simp [raised, BitVec.or_assoc, BitVec.or_comm b d]

/-- A chip that has taken in the outcome of an advance of one timer: the timer, and its flag raised by the underflows (R322). -/
def TimerChip.take (c : TimerChip) (t : TimerId) (r : Timer × Nat) : TimerChip :=
  { c.setTimer t r.1 with icrFlags := raised c.icrFlags t.flag r.2 }

/-- A chip with one timer's reference set. -/
def TimerChip.setLast (c : TimerChip) (t : TimerId) (x : Nat) : TimerChip := c.setTimer t { c.timer t with last := x }

/-- `UpdateTimer(t)` on a chip at the cycle `now` (R320). -/
def TimerChip.update (c : TimerChip) (t : TimerId) (now : Nat) : TimerChip :=
  if counting t (c.timer t) then (c.setLast t now).advance t (now - (c.timer t).last) else c

section
variable (c : TimerChip) (t : TimerId) (n x : Nat) (r q : Timer × Nat)

theorem bCountsA_take_a : (c.take .a r).bCountsA = c.bCountsA := rfl

theorem take_a_self : c.take .a (c.ta, 0) = c := rfl

theorem take_b_self : c.take .b (c.tb, 0) = c := rfl

/-- Of two outcomes of a timer the later one stands, with the flag raised by either's underflows. -/
theorem take_take : (c.take t r).take t q = c.take t (q.1, r.2 + q.2) := by
  cases t <;> simp only [TimerChip.take, TimerChip.setTimer, raised_raised]

/-- Each timer has its own flag bit, so the outcomes of the two commute. -/
theorem take_comm : (c.take .b q).take .a r = (c.take .a r).take .b q := by
  simp only [TimerChip.take, TimerChip.setTimer, raised_comm _ TimerId.b.flag]

theorem timer_setLast : (c.setLast t x).timer t = { c.timer t with last := x } := by cases t <;> rfl

/-- The cascade: timer B, where it counts A's underflows, is advanced by as many as there are, none included (R322, R332). -/
theorem chipAdvance_a : c.advance .a n =
    if c.bCountsA then (c.take .a (c.ta.advance n)).take .b (c.tb.advance (c.ta.advance n).2)
    else c.take .a (c.ta.advance n) := by
  have hnone : (c.take .a (c.ta.advance n)).take .b (c.tb.advance 0) = c.take .a (c.ta.advance n) := by
    rw [advance_zero]
    exact take_b_self (c.take .a (c.ta.advance n))
  unfold TimerChip.advance
  by_cases h0 : (c.ta.advance n).2 = 0
  · rw [if_neg (fun h => h.1 h0), h0, hnone, ite_self]
    rfl
  · simp only [h0, not_false_eq_true, ne_eq, true_and]
    rfl

theorem chipAdvance_b : c.advance .b n = c.take .b (c.tb.advance n) := rfl

theorem timer_chipAdvance : (c.advance t n).timer t = ((c.timer t).advance n).1 := by
  cases t with
  | a =>
    rw [chipAdvance_a]
    split <;> rfl
  | b => rfl

/-- Counting does not look at the reference. -/
theorem chipAdvance_setLast : (c.setLast t x).advance t n = (c.advance t n).setLast t x := by
  cases t with
  | a =>
    have hta : (c.setLast .a x).ta.advance n = ({ (c.ta.advance n).1 with last := x }, (c.ta.advance n).2) :=
      advance_last_set c.ta n x
    have htb : (c.setLast .a x).tb = c.tb := rfl
    have hb : (c.setLast .a x).bCountsA = c.bCountsA := rfl
    rw [chipAdvance_a, chipAdvance_a, hta, hb, htb]
    split <;> rfl
  | b =>
    have htb : (c.setLast .b x).tb.advance n = ({ (c.tb.advance n).1 with last := x }, (c.tb.advance n).2) :=
      advance_last_set c.tb n x
    rw [chipAdvance_b, chipAdvance_b, htb]
    rfl

/-! Two advances of a chip. -/

/-- What an underflow that stops the timer left of the chip stays (R323). -/
theorem chipAdvance_add_of_stops {c : TimerChip} {t : TimerId} {m : Nat} (h : (c.timer t).stops m) :
    c.advance t (m + n) = c.advance t m := by
  cases t with
  | a =>
    have hta : c.ta.advance (m + n) = c.ta.advance m := Timer.advance_add_of_stops h
    rw [chipAdvance_a, chipAdvance_a, hta]
  | b =>
    have htb : c.tb.advance (m + n) = c.tb.advance m := Timer.advance_add_of_stops h
    rw [chipAdvance_b, chipAdvance_b, htb]

/-- Timer B counts A's underflows until it stops. -/
theorem bCountsA_take_b {c : TimerChip} {m : Nat} (hb : c.bCountsA = true) :
    (c.take .b (c.tb.advance m)).bCountsA = true ↔ ¬c.tb.stops m := by
  have hcounts : (c.take .b (c.tb.advance m)).bCountsA = ((c.tb.advance m).1.started &&
    ((c.tb.advance m).1.cr.getLsbD 6 && !(c.tb.advance m).1.cr.getLsbD 5)) := rfl
  by_cases hs : c.tb.stops m
  · simp [hcounts, started_of_stops hs, hs]
  · have hsame : (c.take .b (c.tb.advance m)).bCountsA = c.bCountsA := by
      simp only [hcounts, Timer.started, cr_of_not_stops hs]
      rfl
    simp [hsame, hb, hs]

/-- In a cascade the forwarded underflows add up like the counts; a timer B that stops in the first advance no longer counts, and
what is forwarded to it later does not matter (R322, R332). -/
theorem chipAdvance_add_cascade {c : TimerChip} {m : Nat} (h : ¬c.ta.stops m) (hb : c.bCountsA = true) :
    c.advance .a (m + n) = (c.advance .a m).advance .a n := by
  have hta : c.ta.advance (m + n) = _ := Timer.advance_add h
  have hm : c.advance .a m = (c.take .a (c.ta.advance m)).take .b (c.tb.advance (c.ta.advance m).2) := by
    rw [chipAdvance_a, if_pos hb]
  have hcounts : (c.advance .a m).bCountsA = true ↔ ¬c.tb.stops (c.ta.advance m).2 := by
    rw [hm]
    exact bCountsA_take_b (c := c.take .a (c.ta.advance m)) hb
  have htake : (c.advance .a m).take .a ((c.ta.advance m).1.advance n) =
      (c.take .a (c.ta.advance (m + n))).take .b (c.tb.advance (c.ta.advance m).2) := by
    rw [hm, take_comm, take_take, hta]
  have hta' : (c.advance .a m).ta = (c.ta.advance m).1 := timer_chipAdvance c .a m
  have htb' : (c.advance .a m).tb = (c.tb.advance (c.ta.advance m).2).1 := by rw [hm]; rfl
  rw [chipAdvance_a, if_pos hb, chipAdvance_a, hta', htb', htake]
  by_cases hs : c.tb.stops (c.ta.advance m).2
  · rw [if_neg (fun hc => hcounts.1 hc hs), hta, Timer.advance_add_of_stops hs]
  · rw [if_pos (hcounts.2 hs), take_take, hta, Timer.advance_add hs]

/-- Two advances of a chip are one by the sum when the first does not stop the advanced timer (R322, R332). -/
theorem chipAdvance_add {c : TimerChip} {t : TimerId} {m : Nat} (h : ¬(c.timer t).stops m) :
    c.advance t (m + n) = (c.advance t m).advance t n := by
  cases t with
  | b =>
    have htb : c.tb.advance (m + n) = _ := Timer.advance_add h
    rw [chipAdvance_b, htb, ← take_take]
    rfl
  | a =>
    by_cases hb : c.bCountsA = true
    · exact chipAdvance_add_cascade n h hb
    · have hta : c.ta.advance (m + n) = _ := Timer.advance_add h
      have hm : c.advance .a m = c.take .a (c.ta.advance m) := by rw [chipAdvance_a, if_neg hb]
      rw [hm, chipAdvance_a, if_neg hb, chipAdvance_a, bCountsA_take_a, if_neg hb, hta, ← take_take]
      rfl

end

/-! The update of a chip. -/

section
variable {c : TimerChip} {t : TimerId}

/-- The update of a timer that counts the clock: the cycles since the reference are counted, and the reference is the present. -/
theorem update_of_counting (h : counting t (c.timer t) = true) (now : Nat) :
    c.update t now = (c.advance t (now - (c.timer t).last)).setLast t now := by
  rw [TimerChip.update, if_pos h, chipAdvance_setLast]

theorem update_of_not_counting (h : ¬counting t (c.timer t) = true) (now : Nat) : c.update t now = c := by
  rw [TimerChip.update, if_neg h]

theorem setLast_setLast (x y : Nat) : (c.setLast t x).setLast t y = c.setLast t y := by cases t <;> rfl

theorem setLast_self : c.setLast t (c.timer t).last = c := by cases t <;> rfl

theorem counting_setLast (x : Nat) : counting t ((c.setLast t x).timer t) = counting t (c.timer t) := by cases t <;> rfl

/-- A timer that counts the clock goes on counting it exactly if the counts do not stop it. -/
theorem counting_chipAdvance (h : counting t (c.timer t) = true) (n : Nat) :
    counting t ((c.advance t n).timer t) = true ↔ ¬(c.timer t).stops n := by
  rw [timer_chipAdvance]
  by_cases hs : (c.timer t).stops n
  · simp [counting, started_of_stops hs, hs]
  · have hsame : counting t ((c.timer t).advance n).1 = counting t (c.timer t) := by
      cases t <;> simp only [counting, clockSourced, Timer.started, cr_of_not_stops hs]
    simp [hsame, h, hs]

/-- A timer that the first of two updates stops is left alone by the second. -/
theorem update_update_of_stops {now : Nat} (hc : counting t (c.timer t) = true)
    (hs : (c.timer t).stops (now - (c.timer t).last)) (later : Nat) : (c.update t now).update t later = c.update t now := by
  apply update_of_not_counting
  rw [update_of_counting hc, counting_setLast, counting_chipAdvance hc]
  exact fun hno => hno hs

/-- Two updates of a timer that the first does not stop count both stretches of cycles. -/
theorem update_update_of_not_stops {now : Nat} (hc : counting t (c.timer t) = true)
    (hs : ¬(c.timer t).stops (now - (c.timer t).last)) (n : Nat) :
    (c.update t now).update t (now + n) = (c.advance t (now - (c.timer t).last + n)).setLast t (now + n) := by
  have hu : counting t ((c.update t now).timer t) = true := by
    rw [update_of_counting hc, counting_setLast]
    exact (counting_chipAdvance hc _).2 hs
  have hlast : ((c.update t now).timer t).last = now := by rw [update_of_counting hc, timer_setLast]
  rw [update_of_counting hu, hlast, Nat.add_sub_cancel_left, update_of_counting hc, chipAdvance_setLast, setLast_setLast,
    chipAdvance_add n hs]

/-- Updates compose (R83): two of them leave the chip that the later one alone leaves, but for the reference of a timer that has stopped
between them. -/
theorem update_update (now n : Nat) (hlast : counting t (c.timer t) = true → (c.timer t).last ≤ now) :
    ((c.update t now).update t (now + n)).setLast t ((c.update t (now + n)).timer t).last = c.update t (now + n) ∧
    (counting t ((c.update t (now + n)).timer t) = true → (c.update t now).update t (now + n) = c.update t (now + n)) := by
  by_cases hc : counting t (c.timer t) = true
  · have hsum : now + n - (c.timer t).last = now - (c.timer t).last + n := by have := hlast hc; omega
    have honce := update_of_counting hc (now + n)
    rw [hsum] at honce
    by_cases hs : (c.timer t).stops (now - (c.timer t).last)
    · rw [chipAdvance_add_of_stops n hs] at honce
      rw [update_update_of_stops hc hs, honce, update_of_counting hc, setLast_setLast, counting_setLast,
        counting_chipAdvance hc, timer_setLast]
      exact ⟨rfl, fun hno => absurd hs hno⟩
    · rw [update_update_of_not_stops hc hs, honce]
      exact ⟨setLast_self, fun _ => rfl⟩
  · rw [update_of_not_counting hc, update_of_not_counting hc]
    exact ⟨setLast_self, fun _ => rfl⟩

/-- A second update in the same cycle does nothing. -/
theorem update_same (now : Nat) : (c.update t now).update t now = c.update t now := by
  by_cases hc : counting t (c.timer t) = true
  · by_cases hs : (c.timer t).stops (now - (c.timer t).last)
    · exact update_update_of_stops hc hs now
    · exact (update_update_of_not_stops hc hs 0).trans (update_of_counting hc now).symm
  · rw [update_of_not_counting hc, update_of_not_counting hc]

theorem line_setLast (x : Nat) : (c.setLast t x).line = c.line := line_setTimer ..

/-- An update raises the interrupt output or leaves it (R330). -/
theorem line_update (now : Nat) (h : c.line = true) : (c.update t now).line = true := by
  unfold TimerChip.update
  split
  · exact line_advance _ _ _ ((line_setLast now).trans h)
  · exact h

end

/-! The block. -/

section
variable (s : State) (k : ChipId) (t : TimerId) (n : Nat)

theorem chip_at_cycles : State.chip { s with cycles := n } k = s.chip k := by cases k <;> rfl

theorem putChip_at_cycles (c : TimerChip) :
    { s.putChip k c with cycles := n } = State.putChip { s with cycles := n } k c := by
  unfold State.putChip
  rw [chip_at_cycles s k n]
  split <;> cases k <;> rfl

@[simp] theorem timer_putChip (c : TimerChip) : (s.putChip k c).timer k t = c.timer t := by simp [State.timer]

@[simp] theorem cycles_putChip (c : TimerChip) : (s.putChip k c).cycles = s.cycles := by
  unfold State.putChip
  split <;> simp

theorem putChip_self : s.putChip k (s.chip k) = s := by rw [putChip_of_line _ _ _ rfl, setChip_chip_self]

/-- `UpdateTimer` puts the updated chip in the place of the old one. -/
theorem updateTimer_put : s.updateTimer k t = s.putChip k ((s.chip k).update t s.cycles) := by
  by_cases hc : counting t (s.timer k t) = true
  · have hline : (s.chip k).line = true → ((s.chip k).setLast t s.cycles).line = true := (line_setLast _).trans
    have hset : s.setTimer k t { s.timer k t with last := s.cycles } = s.putChip k ((s.chip k).setLast t s.cycles) :=
      setTimer_put ..
    have hc' : counting t ((s.chip k).timer t) = true := hc
    simp only [State.updateTimer, TimerChip.update, hc, hc', if_true]
    rw [advanceTimer_put, hset, chip_putChip, putChip_putChip _ _ _ _ hline (line_advance _ _ _)]
    rfl
  · rw [update_of_not_counting hc, putChip_self]
    exact updateTimer_of_not_counting s k t (by simpa using hc)

/-- An update now and one at another cycle put the chip updated twice. -/
theorem updateTimer_updateTimer_put : State.updateTimer { s.updateTimer k t with cycles := n } k t =
    State.putChip { s with cycles := n } k (((s.chip k).update t s.cycles).update t n) := by
  have hline : (State.chip { s with cycles := n } k).line = true → ((s.chip k).update t s.cycles).line = true := by
    rw [chip_at_cycles s k n]
    exact line_update _
  rw [updateTimer_put s k t, putChip_at_cycles, updateTimer_put, chip_putChip, cycles_putChip,
    putChip_putChip _ _ _ _ hline (line_update _)]

/-- A second update of the block in the same cycle does nothing (R320). -/
theorem updateTimer_same : (s.updateTimer k t).updateTimer k t = s.updateTimer k t := by
  rw [updateTimer_put (s.updateTimer k t), cycles_updateTimer, updateTimer_put s, chip_putChip, update_same,
    putChip_putChip _ _ _ _ (line_update _) id]

/-- A reference set in a chip that has been put. -/
theorem putChip_setTimer_last (c : TimerChip) (x : Nat) :
    (s.putChip k c).setTimer k t { c.timer t with last := x } =
      (s.putChip k c).putChip k (c.setLast t x) := by
  rw [setTimer_put, chip_putChip, TimerChip.setLast]

/-- The block's updates compose as the chip's do (R83). -/
theorem updateTimer_transparent (hlast : counting t (s.timer k t) = true → (s.timer k t).last ≤ s.cycles) :
    let once := State.updateTimer { s with cycles := s.cycles + n } k t
    let twice := State.updateTimer { s.updateTimer k t with cycles := s.cycles + n } k t
    twice.setTimer k t { twice.timer k t with last := (once.timer k t).last } = once ∧
    (counting t (once.timer k t) = true → twice = once) := by
  obtain ⟨hset, hsame⟩ := update_update s.cycles n hlast
  have honce : State.updateTimer { s with cycles := s.cycles + n } k t =
      State.putChip { s with cycles := s.cycles + n } k ((s.chip k).update t (s.cycles + n)) := by
    rw [updateTimer_put, chip_at_cycles s k]
  have hline : (State.chip { s with cycles := s.cycles + n } k).line = true →
      (((s.chip k).update t s.cycles).update t (s.cycles + n)).line = true := fun h => by
    rw [chip_at_cycles s k] at h
    exact line_update _ (line_update _ h)
  simp only [honce, updateTimer_updateTimer_put, timer_putChip]
  refine ⟨?_, fun hc => by rw [hsame hc]⟩
  rw [putChip_setTimer_last, putChip_putChip _ _ _ _ hline (line_setLast _).trans]
  exact congrArg _ hset

end

/-- Settles O54: updates compose because advances do, as long as the first does not stop the timer; a stopped timer keeps what its
underflow left. -/
theorem lazyUpdateIsTransparent : Obligations.LazyUpdateIsTransparent := by
  unfold Obligations.LazyUpdateIsTransparent
  refine ⟨fun s k t => ⟨fun hc => ?_, updateTimer_of_not_counting s k t, updateTimer_same s k t⟩,
    fun tm m n => ⟨fun hos => ?_, fun _ hle => Timer.advance_add_within hle, fun hos hlt => ?_⟩,
    fun s k t n => updateTimer_transparent s k t n⟩
  · simp [State.updateTimer, hc]
  · exact Timer.advance_add (fun hs => Bool.false_ne_true (hos.symm.trans hs.1))
  · exact Timer.advance_add_of_stops ⟨hos, hlt⟩

end Sys2Proof.Machine
end

section
/-! The encoding (R100 to R104, R107): the decoder answers exactly the well-formed instructions whose encoding stands in front of the
bytes left over. The printed map and the list of unassigned values are read off that. -/

namespace Sys2Proof

open Machine

/-! Lists of opcodes as sets of 256 bits. A list of 256 bytes that has every value repeats none. -/

/-- The bytes of a list, each as one of 256 bits. -/
def byteSet : List Byte → BitVec 256
  | [] => 0
  | b :: bs => BitVec.twoPow 256 b.toNat ||| byteSet bs

theorem getLsbD_byteSet (l : List Byte) (b : Byte) : (byteSet l).getLsbD b.toNat = true ↔ b ∈ l := by
  induction l with
  | nil => simp [byteSet]
  | cons c cs ih =>
    have hlt : c.toNat < 256 := c.isLt
    rw [byteSet, BitVec.getLsbD_or, BitVec.getLsbD_twoPow, Bool.or_eq_true, ih, List.mem_cons]
    simp [BitVec.toNat_inj, hlt, eq_comm]

theorem mem_of_byteSet_full {l : List Byte} (hfull : byteSet l = BitVec.allOnes 256) (b : Byte) : b ∈ l := by
  rw [← getLsbD_byteSet, hfull, BitVec.getLsbD_allOnes]
  exact decide_eq_true b.isLt

theorem nodup_of_byteSet_full {l : List Byte} (hlen : l.length = 256) (hfull : byteSet l = BitVec.allOnes 256) : l.Nodup := by
  have hsub : (FinEnum.toList Byte).Subperm l := FinEnum.nodup_toList.subperm fun b _ => mem_of_byteSet_full hfull b
  have hall : (FinEnum.toList Byte).length = 256 := by simp [FinEnum.toList]
  have hperm : (FinEnum.toList Byte).Perm l := hsub.perm_of_length_le (hlen.trans hall.symm).le
  exact hperm.nodup_iff.1 FinEnum.nodup_toList

/-! The map, the printed rows and the list of R107: each of the first two and the third share out the 256 values. -/

theorem mapped_full : byteSet (opcodeMap.map OpRow.opcode ++ unassignedOpcodes) = BitVec.allOnes 256 := by decide +kernel

theorem printed_full : byteSet (printedRows.map PrintedRow.opcode ++ unassignedOpcodes) = BitVec.allOnes 256 := by
  decide +kernel

theorem mapped_append_unassigned_nodup : (opcodeMap.map OpRow.opcode ++ unassignedOpcodes).Nodup :=
  nodup_of_byteSet_full (by decide +kernel) mapped_full

theorem printed_append_unassigned_nodup : (printedRows.map PrintedRow.opcode ++ unassignedOpcodes).Nodup :=
  nodup_of_byteSet_full (by decide +kernel) printed_full

/-- Well-formedness as an equivalence of propositions (R104, R107). -/
theorem Instr.wf_iff (i : Instr) : i.wf = true ↔ (i.mnemonic = .illegal ↔ i.opcode ∈ unassignedOpcodes) := by
  rw [Instr.wf, beq_iff_eq, Bool.eq_iff_iff, beq_iff_eq, List.contains_iff_mem]

/-! How a row of the map reads operand bytes. -/

/-- A row reads these operand bytes as this instruction (R101, R103). -/
inductive RowOperand.Reads : RowOperand → List Byte → Instr → Prop
  | none (i : Instr) : Reads (.none i) [] i
  | byte (make : Byte → Instr) (b : Byte) : Reads (.byte make) [b] (make b)
  | word (make : Addr → Instr) (w : Addr) : Reads (.word make) [loByte w, hiByte w] (make w)

/-- Decoding reads the operand bytes of the opcode's row and leaves the others. -/
theorem decode_cons_iff (op : Byte) (tail rest : List Byte) (i : Instr) :
    decode (op :: tail) = .ok (i, rest) ↔ ∃ operand, (rowOf op).Reads operand i ∧ tail = operand ++ rest := by
  constructor
  · intro h
    simp only [decode] at h
    split at h
    next hrow => cases h; exact ⟨[], by rw [hrow]; exact .none _, rfl⟩
    next b1 _ hrow => cases h; exact ⟨[b1], by rw [hrow]; exact .byte _ _, rfl⟩
    next b1 b2 _ hrow => cases h; exact ⟨_, by rw [hrow]; exact .word _ (word b1 b2), by simp⟩
    next => cases h
  · rintro ⟨operand, hreads, rfl⟩
    generalize hrow : rowOf op = row at hreads
    cases hreads <;> simp [decode, hrow]

/-- A row of the map is the row its opcode selects. -/
theorem rowOf_of_mem {row : OpRow} (hrow : row ∈ opcodeMap) : rowOf row.opcode = row.operand := by
  obtain ⟨found, hfound⟩ : ∃ found, opcodeMap.find? (fun r => r.opcode == row.opcode) = some found :=
    Option.isSome_iff_exists.1 (List.find?_isSome.2 ⟨row, hrow, beq_self_eq_true _⟩)
  have hopcode : found.opcode = row.opcode := by simpa using List.find?_some hfound
  obtain rfl : found = row := List.inj_on_of_nodup_map (List.nodup_append'.1 mapped_append_unassigned_nodup).1
    (List.mem_of_find?_eq_some hfound) hrow hopcode
  rw [rowOf, hfound]

/-- What a row of the map reads is an assigned instruction with that opcode and those operand bytes: `List.Forall` over the map
unfolds to one goal per row. -/
theorem encode_of_mapped : ∀ row ∈ opcodeMap, ∀ operand i, row.operand.Reads operand i →
    encode i = row.opcode :: operand ∧ i.mnemonic ≠ .illegal := by
  refine List.forall_iff_forall_mem.1 ?_
  repeat' apply And.intro
  all_goals
    rintro _ _ ⟨⟩
    exact ⟨rfl, nofun⟩

/-- The rows of the map stand in the order of the constructors, and each reads the operand bytes of its constructor. -/
theorem mapped_at_ctorIdx (i : Instr) (hi : i.mnemonic ≠ .illegal) :
    ∃ row, opcodeMap[i.ctorIdx]? = some row ∧ row.opcode = i.opcode ∧ row.operand.Reads i.form.bytes i := by
  cases i with
  | illegal op => exact absurd rfl hi
  | _ => exact ⟨_, rfl, rfl, by constructor⟩

/-- What an opcode's row reads is a well-formed instruction that encodes as that opcode and those operand bytes. -/
theorem wf_and_encode_of_reads {op : Byte} {operand : List Byte} {i : Instr} (h : (rowOf op).Reads operand i) :
    i.wf = true ∧ encode i = op :: operand := by
  obtain hop | hop := List.mem_append.1 (mem_of_byteSet_full mapped_full op)
  · obtain ⟨row, hmem, rfl⟩ := List.mem_map.1 hop
    obtain ⟨henc, hassigned⟩ := encode_of_mapped row hmem operand i (rowOf_of_mem hmem ▸ h)
    have hopcode : i.opcode = row.opcode := (List.cons.inj henc).1
    have hlisted : i.opcode ∉ unassignedOpcodes := hopcode ▸ (List.nodup_append'.1 mapped_append_unassigned_nodup).2.2 hop
    exact ⟨i.wf_iff.2 (iff_of_false hassigned hlisted), henc⟩
  · rw [rowOf_unassigned hop] at h
    cases h
    exact ⟨(Instr.wf_iff _).2 (iff_of_true rfl hop), rfl⟩

/-- The row of a well-formed instruction's own opcode reads its operand bytes. -/
theorem rowOf_opcode_reads {i : Instr} (hwf : i.wf = true) : (rowOf i.opcode).Reads i.form.bytes i := by
  by_cases hi : i.mnemonic = .illegal
  · rw [rowOf_unassigned ((i.wf_iff.1 hwf).1 hi)]
    cases i with
    | illegal op => exact .none _
    | _ => cases hi
  · obtain ⟨row, hat, hopcode, hreads⟩ := mapped_at_ctorIdx i hi
    rwa [← hopcode, rowOf_of_mem (List.mem_of_getElem? hat)]

/-- The decoder answers exactly the well-formed instructions whose encoding stands in front of the rest. -/
theorem decode_eq_ok_iff (bytes rest : List Byte) (i : Instr) :
    decode bytes = .ok (i, rest) ↔ i.wf = true ∧ bytes = encode i ++ rest := by
  constructor
  · intro h
    cases bytes with
    | nil => cases h
    | cons op tail =>
      obtain ⟨operand, hreads, rfl⟩ := (decode_cons_iff op tail rest i).1 h
      obtain ⟨hwf, henc⟩ := wf_and_encode_of_reads hreads
      exact ⟨hwf, by rw [henc, List.cons_append]⟩
  · rintro ⟨hwf, rfl⟩
    exact (decode_cons_iff ..).2 ⟨_, rowOf_opcode_reads hwf, rfl⟩

/-- Settles O1: the decoder's characterisation, from right to left. -/
theorem decodeEncodeRoundTrip : Obligations.DecodeEncodeRoundTrip := fun _ _ hwf => (decode_eq_ok_iff ..).2 ⟨hwf, rfl⟩

/-- Settles O2: the decoder's characterisation, from left to right. -/
theorem decodedBytesAreTheEncoding : Obligations.DecodedBytesAreTheEncoding := fun _ _ _ => (decode_eq_ok_iff ..).1

/-! The printed rows. -/

theorem EaMode.length_bytes (m : EaMode) : m.bytes.length = m.format.operandBytes := by cases m <;> rfl

theorem Form.length_bytes (f : Form) : f.bytes.length = f.format.operandBytes := by
  cases f with
  | implied | relative | absolute | indirect => rfl
  | read o => cases o with
    | imm => rfl
    | mem m => exact m.length_bytes
  | store m => exact m.length_bytes
  | modify g => cases g with
    | acc => rfl
    | mem m => exact m.ea.length_bytes

theorem Format.operandBytes_le_two (f : Format) : f.operandBytes ≤ 2 := by cases f <;> decide

/-- Three bytes hold an instruction whatever the opcode (R101, R102). -/
theorem decode_three_bytes (op b1 b2 : Byte) (rest : List Byte) :
    ∃ i tail, decode (op :: b1 :: b2 :: rest) = .ok (i, tail) := by
  cases hrow : rowOf op <;> simp [decode, hrow]

theorem decode_unassigned {op : Byte} (hop : op ∈ unassignedOpcodes) (rest : List Byte) :
    decode (op :: rest) = .ok (.illegal op, rest) :=
  (decode_eq_ok_iff ..).2 ⟨(Instr.wf_iff _).2 (iff_of_true rfl hop), rfl⟩

/-- A well-formed instruction with a printed opcode has that row's mnemonic and format: no opcode is printed twice. -/
theorem mnemonic_format_of_opcode {row : PrintedRow} (hrow : row ∈ printedRows) {i : Instr} (hwf : i.wf = true)
    (hop : i.opcode = row.opcode) : i.mnemonic = row.mnemonic ∧ i.form.format = row.format := by
  obtain ⟨hnodup, -, hdisjoint⟩ := List.nodup_append'.1 printed_append_unassigned_nodup
  have hassigned : i.mnemonic ≠ .illegal := fun hi =>
    hdisjoint (List.mem_map_of_mem hrow) (hop ▸ (i.wf_iff.1 hwf).1 hi)
  obtain ⟨found, hfound, hsame⟩ := List.any_eq_true.1 (printed_of_instr i hassigned)
  simp only [Bool.and_eq_true, beq_iff_eq] at hsame
  obtain ⟨⟨hm, hf⟩, ho⟩ := hsame
  obtain rfl : found = row := List.inj_on_of_nodup_map hnodup hfound hrow (ho.trans hop)
  exact ⟨hm.symm, hf.symm⟩

/-- Settles O3: three bytes always decode, to an instruction with the row's opcode; that fixes mnemonic and format, and the format
counts the operand bytes. -/
theorem opcodeMapIsThePrintedOne : Obligations.OpcodeMapIsThePrintedOne := by
  refine ⟨fun row hrow b1 b2 rest => ?_, rfl, fun op hop rest => ?_⟩
  · obtain ⟨i, tail, hdecode⟩ := decode_three_bytes row.opcode b1 b2 rest
    obtain ⟨hwf, hbytes⟩ := (decode_eq_ok_iff ..).1 hdecode
    obtain ⟨hop, hoperand⟩ : row.opcode = i.opcode ∧ b1 :: b2 :: rest = i.form.bytes ++ tail := List.cons.inj hbytes
    obtain ⟨hm, hf⟩ := mnemonic_format_of_opcode hrow hwf hop.symm
    have hlen : i.form.bytes.length = row.format.operandBytes := hf ▸ i.form.length_bytes
    refine ⟨i, ?_, hm, hf, ?_⟩
    · rw [hdecode, hoperand, ← hlen, List.drop_left]
    · calc i.form.bytes = (b1 :: b2 :: rest).take row.format.operandBytes := by rw [hoperand, ← hlen, List.take_left]
        _ = [b1, b2].take row.format.operandBytes :=
          List.take_append_of_le_length (l₁ := [b1, b2]) row.format.operandBytes_le_two
  · have hlisted := (List.mem_append.1 (mem_of_byteSet_full printed_full op)).resolve_left hop
    exact decode_unassigned hlisted rest

/-- Settles O4: ILLEGAL is well formed with the listed values and no others. -/
theorem unassignedOpcodesAreThoseListed : Obligations.UnassignedOpcodesAreThoseListed := by
  refine ⟨rfl, (List.nodup_append'.1 mapped_append_unassigned_nodup).2.1, fun op rest =>
    ⟨⟨fun hop => decode_unassigned hop rest, fun h => ?_⟩, fun hop i h hi => ?_⟩⟩
  · obtain ⟨hwf, -⟩ := (decode_eq_ok_iff ..).1 h
    exact ((Instr.wf_iff _).1 hwf).1 rfl
  · obtain ⟨hwf, hbytes⟩ := (decode_eq_ok_iff ..).1 h
    have hopcode : op = i.opcode := (List.cons.inj hbytes).1
    exact hop (hopcode ▸ (i.wf_iff.1 hwf).1 hi)

end Sys2Proof
end

section
/-! One step (R120 to R123, R360): when the Processor fetches, `step` is `exec` of the instruction whose bytes stand at the pc. -/

namespace Sys2Proof.Machine

@[simp] theorem fetch8_pc (s : State) : s.fetch8.2.pc = s.pc + 1 := by
  simp [State.fetch8, read_eq, (only_afterRead s s.pc).pc]

/-- `n` fetches move the pc past `n` bytes (R121). -/
theorem fetchBytes_pc (n : Nat) (s : State) : (s.fetchBytes n).2.pc = s.pc + BitVec.ofNat 16 n := by
  induction n generalizing s with
  | zero => simp [State.fetchBytes]
  | succ n ih =>
    calc (State.fetchBytes n s.fetch8.2).2.pc = s.pc + 1 + BitVec.ofNat 16 n := by rw [ih, fetch8_pc]
      _ = s.pc + BitVec.ofNat 16 (n + 1) := by rw [Nat.add_comm, BitVec.ofNat_add, ← BitVec.add_assoc]; rfl

/-- The fetch of an instruction is the fetch of its opcode byte and of the operand bytes its row reads (R102, R123). -/
theorem fetchInstr_of_reads {s : State} {op : Byte} {operand : List Byte} {i : Instr} (hreads : (rowOf op).Reads operand i)
    (hbytes : (s.fetchBytes (operand.length + 1)).1 = op :: operand) :
    s.fetchInstr = (i, (s.fetchBytes (operand.length + 1)).2) := by
  obtain ⟨rfl, hoperand⟩ := List.cons.inj hbytes
  generalize hrow : rowOf s.fetch8.1 = row at hreads
  cases hreads with
  | none => simp [State.fetchInstr, hrow, State.fetchBytes]
  | byte make b =>
    obtain ⟨rfl, -⟩ := List.cons.inj hoperand
    simp [State.fetchInstr, hrow, State.fetchBytes]
  | word make w =>
    obtain ⟨hlo, htail⟩ := List.cons.inj hoperand
    obtain ⟨hhi, -⟩ := List.cons.inj htail
    have hw : word s.fetch8.2.fetch8.1 s.fetch8.2.fetch8.2.fetch8.1 = w := by rw [hlo, hhi, word_loByte_hiByte]
    simp [State.fetchInstr, hrow, State.fetchBytes, hw]

/-- A Processor that runs and has no interrupt to take runs the fetched instruction (R120 (c), (d)). -/
theorem stepProcessor_fetch {s : State} (hrun : s.running = true) (hirq : (s.irqPending && !s.flag .i) = false) :
    stepProcessor s = exec s.fetchInstr.1 s.fetchInstr.2 := by
  rw [stepProcessor, hrun, hirq]
  rfl

/-- Settles O6: the opcode's row reads the operand bytes that were fetched, and each fetch moves the pc by one. -/
theorem stepRunsTheFetchedInstruction : Obligations.StepRunsTheFetchedInstruction := by
  intro s i hrun hirq hwf hbytes
  have hfetch := fetchInstr_of_reads (rowOf_opcode_reads hwf) hbytes
  refine ⟨?_, fetchBytes_pc ..⟩
  rw [step, stepProcessor_fetch hrun hirq, hfetch, (only_serviceDue s).cycles]
  rfl

end Sys2Proof.Machine
end

section
/-! Operand forms (R126 to R134, R137): effective addresses as integers. -/

namespace Sys2Proof.Machine

theorem indexed_toNat (base : Addr) (index : Byte) :
    (indexed base index).addr.toNat = (base.toNat + index.toNat) % 65536 := by
  simp [indexed, zeroPage_toNat]

/-- Two addresses lie in different pages when their quotients by 256 differ (R125). -/
theorem pageCrossed_iff (a b : Addr) : pageCrossed a b = true ↔ a.toNat / 256 ≠ b.toNat / 256 := by
  rw [pageCrossed, bne_iff_ne, ne_eq, ← BitVec.toNat_inj, hiByte_toNat, hiByte_toNat]

theorem indexed_crossed_iff (base : Addr) (index : Byte) :
    (indexed base index).crossed = true ↔ (base.toNat + index.toNat) % 65536 / 256 ≠ base.toNat / 256 := by
  rw [← indexed_toNat]
  exact pageCrossed_iff ..

/-- Indexing within page zero wraps (R128, R129). -/
theorem zeroPage_add_toNat (z index : Byte) : (zeroPage (z + index)).toNat = (z.toNat + index.toNat) % 256 := by
  rw [zeroPage_toNat, BitVec.toNat_add]

/-- A pointer in page zero, its two bytes at addresses given as integers (R133, R134). -/
theorem zpPointer_toNat (s : State) (z : Byte) {lo hi : Addr} (hlo : lo.toNat = z.toNat)
    (hhi : hi.toNat = (z.toNat + 1) % 256) :
    (s.zpPointer z).toNat = (s.byteAt hi).toNat * 256 + (s.byteAt lo).toNat := by
  obtain rfl : lo = zeroPage z := BitVec.eq_of_toNat_eq (by rw [hlo, zeroPage_toNat])
  obtain rfl : hi = zeroPage (z + 1) := BitVec.eq_of_toNat_eq (by rw [hhi, zeroPage_add_toNat]; rfl)
  exact word_toNat ..

/-- Settles O26: each format's rule as an integer, and a read is its byte with the state after it. -/
theorem operandForms : Obligations.OperandForms := by
  intro s z w m
  refine ⟨zeroPage_toNat z, zeroPage_add_toNat .., zeroPage_add_toNat .., rfl, indexed_toNat .., indexed_crossed_iff ..,
    indexed_toNat .., indexed_crossed_iff .., fun lo hi hlo hhi => ?_, fun lo hi hlo hhi => ?_, rfl, rfl, rfl⟩
  · exact zpPointer_toNat s (z + s.x) (by rw [hlo, BitVec.toNat_add]) (by rw [hhi, BitVec.toNat_add, Nat.mod_add_mod])
  · have hptr := zpPointer_toNat s z hlo hhi
    have hpage : (s.zpPointer z).toNat / 256 = (s.byteAt hi).toNat := by
      have := (s.byteAt lo).isLt
      omega
    constructor
    · rw [State.effAddr, indexed_toNat, hptr]
    · rw [State.effAddr, indexed_crossed_iff, hpage, hptr]

end Sys2Proof.Machine
end

section
/-! The row R104 prints for each instruction, and its cost (R104, R125, R395). -/

namespace Sys2Proof

open Machine

/-- The cycles of the rows whose mnemonic alone fixes them (R104, R395). -/
def controlCycles : Mnemonic → Nat
  | .pha | .php | .jmp => 3
  | .pla | .plp => 4
  | .jsr | .rts | .rti => 6
  | .brk => 7
  | _ => 2

/-- The figure a format and a mnemonic have in R104, without marks. -/
def Form.figure (m : Mnemonic) : Form → Nat
  | .read o => readCycles o false
  | .store e => storeCycles e
  | .modify g => modifyCycles g
  | .relative _ => 2
  | .indirect _ => 5
  | .absolute _ | .implied => controlCycles m

/-- The mark a format has in R104. -/
def Form.mark : Form → Extra
  | .read (.mem (.absx _)) | .read (.mem (.absy _)) | .read (.mem (.indy _)) => .page
  | .relative _ => .branch
  | _ => .none

/-- The row R104 prints for an instruction. -/
def Instr.row (i : Instr) : PrintedRow :=
  ⟨i.mnemonic, i.form.format, i.opcode, i.form.figure i.mnemonic, i.form.mark⟩

/-- R104 prints the row of every assigned instruction. -/
theorem row_mem_printedRows (i : Instr) (hi : i.mnemonic ≠ .illegal) : i.row ∈ printedRows := by
  refine List.elem_iff.1 ?_
  cases i with
  | illegal op => exact absurd rfl hi
  | _ => rfl

/-- A printed row with an instruction's opcode is the row of that instruction: no opcode is printed twice. -/
theorem eq_row_of_opcode {row : PrintedRow} (hrow : row ∈ printedRows) {i : Instr} (hi : i.mnemonic ≠ .illegal)
    (hop : row.opcode = i.opcode) : row = i.row :=
  List.inj_on_of_nodup_map (List.nodup_append'.1 printed_append_unassigned_nodup).1 hrow (row_mem_printedRows i hi) hop

/-- A well-formed instruction whose opcode is printed is assigned (R107). -/
theorem assigned_of_printed {row : PrintedRow} (hrow : row ∈ printedRows) {i : Instr} (hwf : i.wf = true)
    (hop : row.opcode = i.opcode) : i.mnemonic ≠ .illegal := fun hi =>
  (List.nodup_append'.1 printed_append_unassigned_nodup).2.2 (List.mem_map_of_mem hrow) (hop ▸ (i.wf_iff.1 hwf).1 hi)

/-! The cost of the row, format by format. -/

section
variable {i : Instr} (s : State)

theorem cost_of_read {o : Operand} (hf : i.form = .read o) : i.row.cost s i = readCycles o (s.readOperand o).crossed := by
  unfold PrintedRow.cost Instr.row pageMark
  rw [hf]
  cases o with
  | imm => rfl
  | mem m => cases m <;> rfl

theorem cost_of_store {m : EaMode} (hf : i.form = .store m) : i.row.cost s i = storeCycles m := by
  unfold PrintedRow.cost Instr.row
  rw [hf]
  rfl

theorem cost_of_modify {g : Target} (hf : i.form = .modify g) : i.row.cost s i = modifyCycles g := by
  unfold PrintedRow.cost Instr.row
  rw [hf]
  rfl

theorem cost_of_relative {off : Byte} (hf : i.form = .relative off) : i.row.cost s i = 2 + branchMark s i := by
  unfold PrintedRow.cost Instr.row
  rw [hf]
  rfl

end

end Sys2Proof
end

section
/-! What any instruction changes and costs, said once, by the format of its row (R104, R125, R137, R143, R395). -/

namespace Sys2Proof.Machine

/-! The components of the state that an instruction may or may not change. -/

/-- A component of the state about which R26 and R143 say which instructions change it; the cycle counter stands for R125: it
advances once, at the end of the instruction. -/
inductive Component where
  | flag (f : Flag)
  | stackPointer
  | ram
  | latches
  | cycles

/-- The component is the same in both states. -/
def Component.Same (c : Component) (s t : State) : Prop :=
  match c with
  | .flag f => t.flag f = s.flag f
  | .stackPointer => t.sp = s.sp
  | .ram => t.ram = s.ram
  | .latches => t.bankDdr = s.bankDdr ∧ t.bankPort = s.bankPort
  | .cycles => t.cycles = s.cycles

/-- The mnemonics that may change a component before the instruction's cost is added (R143, R161). PLP and RTI write the whole of
`P`, whose bit 5 they force (R142). -/
def Component.changers : Component → List Mnemonic
  | .flag .n | .flag .z => [.lda, .ldx, .ldy, .tax, .tay, .txa, .tya, .tsx, .pla, .adc, .sbc, .ora, .and, .eor, .bit, .cmp,
      .cpx, .cpy, .asl, .lsr, .rol, .ror, .inc, .dec, .inx, .iny, .dex, .dey, .plp, .rti]
  | .flag .v => [.adc, .sbc, .bit, .clv, .plp, .rti]
  | .flag .d => [.sed, .cld, .plp, .rti]
  | .flag .i => [.sei, .cli, .plp, .rti, .brk]
  | .flag .b | .flag .u => [.plp, .rti]
  | .flag .c => [.adc, .sbc, .cmp, .cpx, .cpy, .asl, .lsr, .rol, .ror, .clc, .sec, .plp, .rti]
  | .stackPointer => [.txs, .pha, .pla, .php, .plp, .jsr, .rts, .brk, .rti]
  | .ram => [.sta, .stx, .sty, .asl, .lsr, .rol, .ror, .inc, .dec, .pha, .php, .jsr, .brk]
  | .latches => [.sta, .stx, .sty, .asl, .lsr, .rol, .ror, .inc, .dec]
  | .cycles => []

/-- Every component but those listed is the same. -/
def ChangesOnly (cs : List Component) (s t : State) : Prop := ∀ c, c ∉ cs → c.Same s t

/-- Every component the mnemonic may not change is the same. -/
def Permitted (m : Mnemonic) (s t : State) : Prop := ∀ c : Component, m ∉ c.changers → c.Same s t

theorem ChangesOnly.permitted {cs : List Component} {s t : State} (h : ChangesOnly cs s t) {m : Mnemonic}
    (hcs : ∀ c ∈ cs, m ∈ c.changers) : Permitted m s t :=
  fun c hm => h c fun hc => hm (hcs c hc)

theorem Component.Same.trans {c : Component} {s t u : State} (hst : c.Same s t) (htu : c.Same t u) : c.Same s u := by
  cases c with
  | latches => exact ⟨htu.1.trans hst.1, htu.2.trans hst.2⟩
  | _ => exact Eq.trans htu hst

theorem ChangesOnly.trans {cs ds : List Component} {s t u : State} (hst : ChangesOnly cs s t) (htu : ChangesOnly ds t u) :
    ChangesOnly (cs ++ ds) s u := fun c hc => by
  rw [List.mem_append, not_or] at hc
  exact (hst c hc.1).trans (htu c hc.2)

theorem Permitted.trans {m : Mnemonic} {s t u : State} (hst : Permitted m s t) (htu : Permitted m t u) : Permitted m s u :=
  fun c hc => (hst c hc).trans (htu c hc)

/-! The shared operations. -/

/-- A state with the same `P`, `S`, RAM, latches and cycles has every component the same. -/
theorem changesOnly_nil {s t : State} (hp : t.p = s.p) (hsp : t.sp = s.sp) (hram : t.ram = s.ram)
    (hddr : t.bankDdr = s.bankDdr) (hport : t.bankPort = s.bankPort) (hcyc : t.cycles = s.cycles) : ChangesOnly [] s t := by
  intro c _
  cases c with
  | flag f => exact flag_congr f hp
  | stackPointer => exact hsp
  | ram => exact hram
  | latches => exact ⟨hddr, hport⟩
  | cycles => exact hcyc

/-- What restoring `P` from the stack writes: the stack pointer and every flag (R142). -/
def Component.restored : List Component := .stackPointer :: List.map .flag [.n, .v, .u, .b, .d, .i, .z, .c]

/-- A state with the same RAM, latches and cycles may differ in the stack pointer and in every flag. -/
theorem changesOnly_restored {s t : State} (hram : t.ram = s.ram) (hddr : t.bankDdr = s.bankDdr)
    (hport : t.bankPort = s.bankPort) (hcyc : t.cycles = s.cycles) :
    ChangesOnly Component.restored s t := by
  intro c hc
  cases c with
  | flag f => cases f <;> simp [Component.restored] at hc
  | stackPointer => simp [Component.restored] at hc
  | ram => exact hram
  | latches => exact ⟨hddr, hport⟩
  | cycles => exact hcyc

section
variable (s : State)

theorem ChangesOnly.refl : ChangesOnly [] s s := changesOnly_nil rfl rfl rfl rfl rfl rfl

theorem OnlyDevices.changesOnly {s t : State} (h : OnlyDevices s t) : ChangesOnly [] s t :=
  changesOnly_nil h.p h.sp h.ram h.bankDdr h.bankPort h.cycles

theorem changesOnly_setFlag (f : Flag) (b : Bool) : ChangesOnly [.flag f] s (s.setFlag f b) := by
  intro c hc
  cases c with
  | flag g => exact flag_setFlag_ne s b fun hg => hc (by simp [hg])
  | latches => exact ⟨rfl, rfl⟩
  | _ => rfl

theorem changesOnly_setNZ (v : Byte) : ChangesOnly [.flag .z, .flag .n] s (s.setNZ v) :=
  (changesOnly_setFlag _ _ _).trans (changesOnly_setFlag _ _ _)

theorem changesOnly_setInterruptDisable (b : Bool) : ChangesOnly [.flag .i] s (s.setInterruptDisable b) :=
  changesOnly_setFlag s .i b

theorem changesOnly_compare (r v : Byte) : ChangesOnly [.flag .c, .flag .z, .flag .n] s (s.compare r v) :=
  (changesOnly_setFlag _ _ _).trans (changesOnly_setNZ _ _)

theorem changesOnly_addToA (v : Byte) : ChangesOnly [.flag .c, .flag .v, .flag .z, .flag .n] s (s.addToA v) :=
  (changesOnly_setFlag s .c _).trans ((changesOnly_setFlag _ _ _).trans (changesOnly_setNZ _ _))

theorem changesOnly_setSp (v : Byte) : ChangesOnly [.stackPointer] s { s with sp := v } := by
  intro c hc
  cases c with
  | stackPointer => exact absurd (List.mem_singleton_self _) hc
  | latches => exact ⟨rfl, rfl⟩
  | _ => rfl

theorem changesOnly_write (a : Addr) (v : Byte) : ChangesOnly [.ram, .latches] s (s.write a v) := by
  obtain ⟨⟨-, -, -, hsp, hp, -, -⟩, hcyc⟩ := registers_write s a v
  intro c hc
  cases c with
  | flag f => exact flag_congr f hp
  | stackPointer => exact hsp
  | ram => simp at hc
  | latches => simp at hc
  | cycles => exact hcyc

theorem changesOnly_push (v : Byte) : ChangesOnly [.ram, .stackPointer] s (s.push v) := by
  rw [push_eq]
  intro c hc
  cases c with
  | stackPointer => simp at hc
  | ram => simp at hc
  | latches => exact ⟨rfl, rfl⟩
  | _ => rfl

theorem changesOnly_pushWord (w : Addr) : ChangesOnly [.ram, .stackPointer, .ram, .stackPointer] s (s.pushWord w) :=
  (changesOnly_push _ _).trans (changesOnly_push _ _)

theorem changesOnly_pull : ChangesOnly [.stackPointer] s s.pull.2 := changesOnly_setSp _ _

theorem changesOnly_pullP : ChangesOnly Component.restored s (s.pull.2.writeP s.pull.1) :=
  changesOnly_restored rfl rfl rfl rfl

theorem changesOnly_returnFromException : ChangesOnly Component.restored s s.returnFromException := by
  rw [returnFromException_eq]
  exact changesOnly_restored rfl rfl rfl rfl

theorem changesOnly_pullWord : ChangesOnly [.stackPointer, .stackPointer] s s.pullWord.2 :=
  (changesOnly_pull s).trans (changesOnly_pull _)

theorem changesOnly_takeException (ret : Addr) (status : Byte) :
    ChangesOnly [.ram, .stackPointer, .ram, .stackPointer, .ram, .stackPointer, .flag .i] s (s.takeException ret status) :=
  (changesOnly_pushWord s ret).trans ((changesOnly_push _ status).trans (changesOnly_setInterruptDisable _ true))

end

/-! What the reading and the modifying mnemonics do with their operand. -/

/-- What a reading instruction does with its operand byte, by mnemonic (R150 to R152, R171, R172, R180 to R183, R201 to R203). -/
def readEffect : Mnemonic → Byte → State → State
  | .lda, v, s => State.setNZ { s with a := v } v
  | .ldx, v, s => State.setNZ { s with x := v } v
  | .ldy, v, s => State.setNZ { s with y := v } v
  | .adc, v, s => s.addToA v
  | .sbc, v, s => s.addToA (complement v)
  | .ora, v, s => State.setNZ { s with a := s.a ||| v } (s.a ||| v)
  | .and, v, s => State.setNZ { s with a := s.a &&& v } (s.a &&& v)
  | .eor, v, s => State.setNZ { s with a := s.a ^^^ v } (s.a ^^^ v)
  | .bit, v, s => ((s.setFlag .z ((s.a &&& v) == 0)).setFlag .n (v.getLsbD 7)).setFlag .v (v.getLsbD 6)
  | .cmp, v, s => s.compare s.a v
  | .cpx, v, s => s.compare s.x v
  | .cpy, v, s => s.compare s.y v
  | _, _, s => s

theorem permitted_readEffect (m : Mnemonic) (v : Byte) (s : State) : Permitted m s (readEffect m v s) := by
  cases m with
  | lda | ldx | ldy | ora | and | eor => exact ChangesOnly.permitted (changesOnly_setNZ _ _) (by decide)
  | adc | sbc => exact (changesOnly_addToA _ _).permitted (by decide)
  | bit =>
    exact ChangesOnly.permitted
      (((changesOnly_setFlag _ _ _).trans (changesOnly_setFlag _ _ _)).trans (changesOnly_setFlag _ _ _)) (by decide)
  | cmp | cpx | cpy => exact (changesOnly_compare _ _ _).permitted (by decide)
  | _ => exact (ChangesOnly.refl s).permitted nofun

/-- The byte a read-modify-write instruction writes back, by mnemonic; `cin` is the carry before it (R190 to R194, R250, R251). -/
def modifyByte (cin : Bool) : Mnemonic → Byte → Byte
  | .asl, v => (shiftLeft v cin).result
  | .lsr, v => (shiftRight v cin).result
  | .rol, v => (rotateLeft v cin).result
  | .ror, v => (rotateRight v cin).result
  | .inc, v => v + 1
  | .dec, v => v - 1
  | _, v => v

/-- The flags a read-modify-write instruction sets, by mnemonic (R190 to R194, R250, R251). -/
def modifyFlags (cin : Bool) (m : Mnemonic) (v : Byte) (s : State) : State :=
  match m with
  | .asl => (s.setFlag .c (shiftLeft v cin).carry).setNZ (modifyByte cin m v)
  | .lsr => (s.setFlag .c (shiftRight v cin).carry).setNZ (modifyByte cin m v)
  | .rol => (s.setFlag .c (rotateLeft v cin).carry).setNZ (modifyByte cin m v)
  | .ror => (s.setFlag .c (rotateRight v cin).carry).setNZ (modifyByte cin m v)
  | .inc | .dec => s.setNZ (modifyByte cin m v)
  | _ => s

theorem permitted_modifyFlags (cin : Bool) (m : Mnemonic) (v : Byte) (s : State) :
    Permitted m s (modifyFlags cin m v s) := by
  cases m with
  | asl | lsr | rol | ror =>
    exact ChangesOnly.permitted ((changesOnly_setFlag _ _ _).trans (changesOnly_setNZ _ _)) (by decide)
  | inc | dec => exact ChangesOnly.permitted (changesOnly_setNZ _ _) (by decide)
  | _ => exact (ChangesOnly.refl s).permitted nofun

/-! `exec` by the format of the row (R137, R138): of each constructor, either the format is another one, or its arm of `exec` is the
shape on the right. -/

section
variable {i : Instr} (s : State)

theorem exec_of_read {o : Operand} (hf : i.form = .read o) : exec i s = readInstr (readEffect i.mnemonic) o s := by
  cases i <;> cases hf <;> rfl

theorem exec_of_store {m : EaMode} (hf : i.form = .store m) :
    i.mnemonic ∈ Component.latches.changers ∧ ∃ v, exec i s = storeInstr v m s := by
  cases i <;> cases hf <;> exact ⟨of_decide_eq_true rfl, _, rfl⟩

theorem exec_of_modify {g : Target} (hf : i.form = .modify g) : i.mnemonic ∈ Component.latches.changers ∧
    exec i s = modifyInstr (modifyByte (s.flag .c) i.mnemonic) (modifyFlags (s.flag .c) i.mnemonic) g s := by
  cases i <;> cases hf <;> exact ⟨of_decide_eq_true rfl, rfl⟩

theorem exec_of_relative {off : Byte} (hf : i.form = .relative off) :
    exec i s = branchInstr (branchCondition s i.mnemonic) off s := by
  cases i <;> cases hf <;> rfl

end

/-- Storing in memory is permitted to the mnemonics that may reach the bank latches: they are stores and read-modify-writes. -/
theorem permitted_write {m : Mnemonic} (hm : m ∈ Component.latches.changers) (s : State) (a : Addr) (v : Byte) :
    Permitted m s (s.write a v) := by
  have hram : ∀ m ∈ Component.latches.changers, m ∈ Component.ram.changers := by decide
  refine (changesOnly_write s a v).permitted fun c hc => ?_
  obtain rfl | rfl : c = .ram ∨ c = .latches := by simpa using hc
  · exact hram m hm
  · exact hm

/-- A branch's target as an integer (R135, R220). -/
theorem branchTarget_eq (pc : Addr) (off : Byte) : (pc + signedOffset off).toNat = branchTarget pc off := by
  have hoff : (signedOffset off).toNat = (off.toInt % 65536).toNat := BitVec.toNat_ofInt ..
  rw [BitVec.toNat_add, hoff, branchTarget]
  omega

/-! Every instruction. -/

/-- The instruction completes at the cost of its printed row, and before the cost is added only components its mnemonic may change
have changed. -/
def CompletesAtCost (i : Instr) (s : State) : Prop :=
  ∃ u, exec i s = complete (i.row.cost s i) u ∧ Permitted i.mnemonic s u

section
variable {i : Instr} (s : State)

theorem completesAtCost_of_read {o : Operand} (hf : i.form = .read o) : CompletesAtCost i s := by
  rw [CompletesAtCost, exec_of_read s hf, cost_of_read s hf]
  exact ⟨_, rfl, ((only_readOperand s o).changesOnly.permitted nofun).trans (permitted_readEffect _ _ _)⟩

theorem completesAtCost_of_store {m : EaMode} (hf : i.form = .store m) : CompletesAtCost i s := by
  obtain ⟨hm, v, he⟩ := exec_of_store s hf
  rw [CompletesAtCost, he, cost_of_store s hf]
  exact ⟨_, rfl, permitted_write hm _ _ _⟩

theorem completesAtCost_of_modify {g : Target} (hf : i.form = .modify g) : CompletesAtCost i s := by
  obtain ⟨hm, he⟩ := exec_of_modify s hf
  rw [CompletesAtCost, he, cost_of_modify s hf]
  cases g with
  | acc => exact ⟨_, rfl, permitted_modifyFlags _ _ _ { s with a := _ }⟩
  | mem e =>
    exact ⟨_, rfl, (((only_afterRead _ _).changesOnly.permitted nofun).trans (permitted_write hm _ _ _)).trans
      (permitted_modifyFlags _ _ _ _)⟩

theorem completesAtCost_of_relative {off : Byte} (hf : i.form = .relative off) : CompletesAtCost i s := by
  have hcross := pageCrossed_iff (s.pc + signedOffset off) s.pc
  rw [branchTarget_eq] at hcross
  rw [CompletesAtCost, exec_of_relative s hf, cost_of_relative s hf, branchInstr, branchMark, hf]
  cases branchCondition s i.mnemonic with
  | false => exact ⟨s, rfl, (ChangesOnly.refl s).permitted nofun⟩
  | true =>
    refine ⟨{ s with pc := s.pc + signedOffset off }, ?_, (ChangesOnly.refl s).permitted nofun⟩
    simp only [if_true]
    congr 1
    by_cases hp : branchTarget s.pc off / 256 = s.pc.toNat / 256 <;> simp [hcross, hp]

theorem completesAtCost_of_implied (hf : i.form = .implied) (hi : i.mnemonic ≠ .illegal) : CompletesAtCost i s := by
  cases i with
  | tax | tay | txa | tya | tsx | inx | iny | dex | dey =>
    exact ⟨_, rfl, ChangesOnly.permitted (changesOnly_setNZ _ _) (by decide)⟩
  | txs => exact ⟨_, rfl, (changesOnly_setSp _ _).permitted (by decide)⟩
  | pha | php => exact ⟨_, rfl, (changesOnly_push _ _).permitted (by decide)⟩
  | pla =>
    exact ⟨_, rfl, ((changesOnly_pull s).trans (changesOnly_setNZ { s.pull.2 with a := s.pull.1 } _)).permitted (by decide)⟩
  | plp => exact ⟨_, rfl, (changesOnly_pullP s).permitted (by decide)⟩
  | rts => exact ⟨_, rfl, (changesOnly_pullWord s).permitted (by decide)⟩
  | brk => exact ⟨_, rfl, (changesOnly_takeException s _ _).permitted (by decide)⟩
  | rti => exact ⟨_, rfl, (changesOnly_returnFromException s).permitted (by decide)⟩
  | clc | sec | clv | cld | sed => exact ⟨_, rfl, (changesOnly_setFlag _ _ _).permitted (by decide)⟩
  | cli | sei => exact ⟨_, rfl, (changesOnly_setInterruptDisable _ _).permitted (by decide)⟩
  | nop => exact ⟨_, rfl, (ChangesOnly.refl s).permitted nofun⟩
  | illegal op => exact absurd rfl hi
  | _ => cases hf

theorem completesAtCost_of_absolute {w : Addr} (hf : i.form = .absolute w) : CompletesAtCost i s := by
  cases i with
  | jsr addr => exact ⟨_, rfl, (changesOnly_pushWord s _).permitted (m := .jsr) (by decide)⟩
  | jmpAbs addr => exact ⟨_, rfl, (ChangesOnly.refl s).permitted nofun⟩
  | _ => cases hf

theorem completesAtCost_of_indirect {ptr : Addr} (hf : i.form = .indirect ptr) : CompletesAtCost i s := by
  cases i with
  | jmpInd ptr =>
    exact ⟨_, rfl, ((only_afterRead s ptr).trans (only_afterRead _ (pointerHighAddr ptr))).changesOnly.permitted nofun⟩
  | _ => cases hf

/-- Every instruction but an unassigned opcode, by the format of its row. -/
theorem exec_completesAtCost (hi : i.mnemonic ≠ .illegal) : CompletesAtCost i s := by
  cases hf : i.form with
  | implied => exact completesAtCost_of_implied s hf hi
  | read o => exact completesAtCost_of_read s hf
  | store m => exact completesAtCost_of_store s hf
  | modify g => exact completesAtCost_of_modify s hf
  | relative off => exact completesAtCost_of_relative s hf
  | absolute w => exact completesAtCost_of_absolute s hf
  | indirect ptr => exact completesAtCost_of_indirect s hf

end

theorem CompletesAtCost.of_next {i : Instr} {s t : State} (h : CompletesAtCost i s) (hexec : exec i s = .next t) :
    ∃ u, t = u.addCycles (i.row.cost s i) ∧ Permitted i.mnemonic s u := by
  obtain ⟨u, he, hu⟩ := h
  rw [he] at hexec
  cases hexec
  exact ⟨u, rfl, hu⟩

/-- Settles O27: the row printed with the opcode is the instruction's own, at whose cost it completes. -/
theorem cycleFigures : Obligations.CycleFigures := by
  intro i s t row hwf hrow hop h
  have hi := assigned_of_printed hrow hwf hop
  obtain rfl := eq_row_of_opcode hrow hi hop
  obtain ⟨u, rfl, hu⟩ := (exec_completesAtCost s hi).of_next h
  have hcyc : u.cycles = s.cycles := hu .cycles nofun
  rw [addCycles_cycles, hcyc]

/-- What any instruction leaves alone but for the cycles: the components its mnemonic may not change (R143, R161, R263). -/
theorem same_of_exec {i : Instr} {s t : State} (h : exec i s = .next t) {c : Component} (hcyc : c ≠ .cycles)
    (hc : i.mnemonic ∉ c.changers) : c.Same s t := by
  by_cases hi : i.mnemonic = .illegal
  · rw [exec_illegal s hi] at h
    cases h
    exact ChangesOnly.refl s c nofun
  · obtain ⟨u, rfl, hu⟩ := (exec_completesAtCost s hi).of_next h
    cases c with
    | cycles => exact absurd rfl hcyc
    | _ => exact hu _ hc

/-- Bit 5 of `P`, once set, stays set: only PLP and RTI write it, and they force it (R24, R142). -/
theorem keptByInstr_unusedSet : KeptByInstr State.UnusedSet where
  regs _ _ _ _ _ _ h := h
  flag s f b hu _ h := (setFlag_unused s f b hu).trans h
  mask s b h := (setFlag_unused s .i b nofun).trans h
  status s v _ := writeP_unused s v
  read s a h := ((only_afterRead s a).flag .u).trans h
  write s a v h := by
    obtain ⟨⟨-, -, -, -, hp, -, -⟩, -⟩ := registers_write s a v
    exact (flag_congr .u hp).trans h

theorem unusedSet_exec {i : Instr} {s t : State} (hs : s.UnusedSet) (h : exec i s = .next t) : t.UnusedSet := by
  obtain ⟨-, he⟩ | ⟨-, n, u, -, -, he, hu⟩ := exec_cases i s
  · rw [he] at h
    cases h
    exact hs
  · rw [he] at h
    cases h
    exact hu _ keptByInstr_unusedSet hs

/-- Settles O47: a component that changed is one its mnemonic may change. -/
theorem onlyTheseInstructionsChange : Obligations.OnlyTheseInstructionsChange := by
  intro i s t hs h
  have hchanger : ∀ {c : Component}, c ≠ .cycles → ¬ c.Same s t → i.mnemonic ∈ c.changers := fun hcyc hne =>
    by_contra fun hc => hne (same_of_exec h hcyc hc)
  refine ⟨unusedSet_exec hs h, fun hnz => ?_, hchanger (c := .flag .v) nofun, hchanger (c := .flag .d) nofun,
    hchanger (c := .flag .i) nofun, hchanger (c := .flag .b) nofun, hchanger (c := .flag .c) nofun,
    hchanger (c := .stackPointer) nofun, hchanger (c := .ram) nofun, fun hlatch => ?_⟩
  · exact hnz.elim (hchanger (c := .flag .n) nofun) (hchanger (c := .flag .z) nofun)
  · exact hchanger (c := .latches) nofun (not_and_or.2 hlatch)

end Sys2Proof.Machine
end

section
/-! Loads, stores and transfers (spec/41_load_store_transfer.md): the register they move to, what they store, and the frame of
each (R150 to R161). -/

namespace Sys2Proof.Machine

/-! A mnemonic's encodings, as one check of the printed rows (R104, R107). -/

/-- The listed encodings are all that R104 prints for the mnemonic, and no unassigned value is among them. -/
def printsAs (m : Mnemonic) (rows : List (Format × Byte)) : Bool :=
  m != .illegal && (printedRows.all fun r => (r.mnemonic == m) == rows.contains (r.format, r.opcode)) &&
    unassignedOpcodes.all fun op => !rows.contains (.imp, op)

theorem encodedAs_of_printsAs {m : Mnemonic} {rows : List (Format × Byte)} (h : printsAs m rows = true) : EncodedAs m rows := by
  simp only [printsAs, Bool.and_eq_true] at h
  obtain ⟨⟨hm, hprinted⟩, hunassigned⟩ := h
  exact encodedAs_of (by simpa using hm) hprinted hunassigned

/-! The format a mnemonic's rows share (R137). -/

/-- The mnemonics whose rows read an operand. -/
def readingMnemonics : List Mnemonic := [.lda, .ldx, .ldy, .adc, .sbc, .ora, .and, .eor, .bit, .cmp, .cpx, .cpy]

/-- The mnemonics whose rows store a register. -/
def storingMnemonics : List Mnemonic := [.sta, .stx, .sty]

theorem form_of_readingMnemonic {i : Instr} (h : i.mnemonic ∈ readingMnemonics) : ∃ o, i.form = .read o := by
  cases i <;> simp [readingMnemonics, Instr.mnemonic] at h <;> exact ⟨_, rfl⟩

theorem form_of_storingMnemonic {i : Instr} (h : i.mnemonic ∈ storingMnemonics) : ∃ m, i.form = .store m := by
  cases i <;> simp [storingMnemonics, Instr.mnemonic] at h <;> exact ⟨_, rfl⟩

/-! A result that goes to the registers, with N and Z from it. -/

theorem flagsKept_setNZ {s u : State} (hp : u.p = s.p) (v : Byte) : FlagsKept s (u.setNZ v) [.n, .z] := by
  intro f hf
  have hne : f ≠ .n ∧ f ≠ .z := by simpa using hf
  exact (flag_setNZ_ne u v hne.1 hne.2).trans (flag_congr f hp)

/-- A reading instruction that changes `A`, `X` and `Y` alone, with N and Z from `v` (R137, R139). -/
theorem setNZ_readFrame (s : State) (o : Operand) (a x y v : Byte) {t : State}
    (ht : t = State.addCycles (State.setNZ { (s.readOperand o).state with a := a, x := x, y := y } v)
      (readCycles o (s.readOperand o).crossed)) :
    NegativeZero t v ∧ FlagsKept s t [.n, .z] ∧ ReadFrame s t o := by
  subst ht
  exact ⟨negativeZero_setNZ _ v, flagsKept_setNZ (only_readOperand s o).p v, readFrame_of rfl⟩

/-- A state that differs from `s` in `A`, `X`, `Y`, `S` and `P` only, and the cost, has touched no memory and no device. -/
theorem innerFrame_of {s t : State} (h : t = { s with a := t.a, x := t.x, y := t.y, sp := t.sp, p := t.p }) (n : Nat) :
    InnerFrame s (t.addCycles n) n := by
  rw [h]
  exact ⟨rfl, memoryUntouched_of rfl rfl rfl rfl rfl rfl, .refl s, rfl⟩

/-! Loads. -/

theorem readEffect_of_load {m : Mnemonic} (hm : m = .lda ∨ m = .ldx ∨ m = .ldy) (v : Byte) (u : State) :
    readEffect m v u = State.setNZ { u with
      a := if m = .lda then v else u.a, x := if m = .ldx then v else u.x, y := if m = .ldy then v else u.y } v := by
  obtain rfl | rfl | rfl := hm <;> rfl

/-- Settles O28: a load puts the operand in the one register its mnemonic names, and the operand's read leaves the others. -/
theorem loadResults : Obligations.LoadResults := by
  refine ⟨encodedAs_of_printsAs (by decide +kernel), encodedAs_of_printsAs (by decide +kernel),
    encodedAs_of_printsAs (by decide +kernel), fun i s hm => ?_⟩
  have hreads : i.mnemonic ∈ readingMnemonics := by
    obtain h | h | h := hm <;> simp [h, readingMnemonics]
  obtain ⟨o, hf⟩ := form_of_readingMnemonic hreads
  have hexec := exec_of_read s hf
  rw [readInstr, readEffect_of_load hm] at hexec
  have ho := only_readOperand s o
  exact ⟨o, _, hf, hexec, by simp [ho.a], by simp [ho.x], by simp [ho.y], setNZ_readFrame s o _ _ _ _ rfl⟩

/-! Stores. -/

/-- The register a storing instruction stores, by mnemonic (R153, R154, R155). -/
def storedByte (m : Mnemonic) (s : State) : Byte :=
  match m with
  | .sta => s.a
  | .stx => s.x
  | _ => s.y

theorem exec_eq_storeInstr {i : Instr} (s : State) {m : EaMode} (hf : i.form = .store m) :
    exec i s = storeInstr (storedByte i.mnemonic s) m s := by
  cases i <;> cases hf <;> rfl

/-- Settles O33: a store is one write of its register's byte at the effective address. -/
theorem storeResults : Obligations.StoreResults := by
  refine ⟨encodedAs_of_printsAs (by decide +kernel), encodedAs_of_printsAs (by decide +kernel),
    encodedAs_of_printsAs (by decide +kernel), fun i s hcanon hm => ?_⟩
  have hstores : i.mnemonic ∈ storingMnemonics := by
    obtain h | h | h := hm <;> simp [h, storingMnemonics]
  obtain ⟨m, hf⟩ := form_of_storingMnemonic hstores
  have hstored := storedAt_write hcanon (s.effAddr m).addr (storedByte i.mnemonic s)
  obtain ⟨hregs, hcyc⟩ := registers_write s (s.effAddr m).addr (storedByte i.mnemonic s)
  exact ⟨m, _, hf, exec_eq_storeInstr s hf, hstored.congr rfl rfl rfl rfl rfl rfl (.refl _), hregs,
    congrArg (· + storeCycles m) hcyc⟩

/-! Transfers. -/

/-- The byte a transfer to `A`, `X` or `Y` moves (R156 to R160). -/
def transferredByte (i : Instr) (s : State) : Byte :=
  match i with
  | .txa => s.x
  | .tya => s.y
  | .tsx => s.sp
  | _ => s.a

/-- The byte moved to the register the transfer names, N and Z apart (R156 to R160). -/
def transferred (i : Instr) (s : State) : State :=
  { s with
    a := if i = .txa then s.x else if i = .tya then s.y else s.a
    x := if i = .tax then s.a else if i = .tsx then s.sp else s.x
    y := if i = .tay then s.a else s.y }

theorem exec_of_transfer {i : Instr} (hi : i ∈ [Instr.tax, .tay, .txa, .tya, .tsx]) (s : State) :
    exec i s = complete 2 ((transferred i s).setNZ (transferredByte i s)) := by
  simp only [List.mem_cons, List.not_mem_nil, or_false] at hi
  obtain rfl | rfl | rfl | rfl | rfl := hi <;> rfl

/-- Settles O36: TXS writes `S` alone; the others move a byte to `A`, `X` or `Y` and set N and Z from it. -/
theorem transferResults : Obligations.TransferResults := by
  refine ⟨encodedAs_of_printsAs (by decide +kernel), encodedAs_of_printsAs (by decide +kernel),
    encodedAs_of_printsAs (by decide +kernel), encodedAs_of_printsAs (by decide +kernel),
    encodedAs_of_printsAs (by decide +kernel), encodedAs_of_printsAs (by decide +kernel), fun i s hi => ?_⟩
  by_cases htxs : i = .txs
  case pos =>
    subst htxs
    exact ⟨_, rfl, rfl, rfl, rfl, rfl, rfl, by simp, nofun, nofun, nofun, fun _ => rfl, fun _ _ => rfl, innerFrame_of rfl 2⟩
  case neg =>
    have hexec := exec_of_transfer (i := i) (by simpa [htxs] using hi) s
    have hnz := negativeZero_setNZ (transferred i s) (transferredByte i s)
    refine ⟨_, hexec, rfl, rfl, rfl, (if_neg htxs).symm, rfl, ?_, ?_, ?_, ?_, fun h => absurd h htxs, flagsKept_setNZ rfl _,
      innerFrame_of rfl 2⟩
    · rintro (rfl | rfl) <;> exact hnz
    · rintro rfl; exact hnz
    · rintro rfl; exact hnz
    · rintro rfl; exact hnz

end Sys2Proof.Machine
end
section
/-! Addition and subtraction (spec/42_arithmetic.md): the adder's result, carry and overflow as exact integers, and the frame of the
two instructions (R171, R172, R174, R175). -/

namespace Sys2Proof.Machine

/-- The complement added with the carry is a subtraction with the borrow `1 - c` (R172, R175). -/
theorem add8_complement_spec (a m : Byte) (c : Bool) :
    ((add8 a (complement m) c).result.toNat : Int) = ((a.toNat : Int) - m.toNat - (1 - c.toNat : Int)) % 256 ∧
    ((add8 a (complement m) c).carry = true ↔ 0 ≤ (a.toNat : Int) - m.toNat - (1 - c.toNat : Int)) ∧
    ((add8 a (complement m) c).overflow = true ↔ a.toInt - m.toInt - (1 - c.toNat : Int) < -128 ∨
      127 < a.toInt - m.toInt - (1 - c.toNat : Int)) := by
  obtain ⟨hresult, hcarry, hoverflow⟩ := add8_spec a (complement m) c
  obtain ⟨hnat, hint⟩ := complement_spec m
  have hm : m.toNat < 256 := m.isLt
  rw [hnat] at hresult hcarry
  rw [hint] at hoverflow
  refine ⟨?_, hcarry.trans ?_, hoverflow.trans ?_⟩ <;> omega

/-- What `addToA` does after the operand's read: the adder's result to `A`, its carry and overflow to C and V, N and Z from `A`. No
other flag is written, and of the flags C alone is read (R171, R172, R174). -/
theorem addToA_readFrame (s : State) (o : Operand) (v : Byte) {t : State}
    (ht : t = State.addCycles ((s.readOperand o).state.addToA v) (readCycles o (s.readOperand o).crossed)) :
    (t.a = (add8 s.a v (s.flag .c)).result ∧ t.flag .c = (add8 s.a v (s.flag .c)).carry ∧
      t.flag .v = (add8 s.a v (s.flag .c)).overflow) ∧
    NegativeZero t t.a ∧ FlagsKept s t [.n, .v, .z, .c] ∧ t.x = s.x ∧ t.y = s.y ∧ ReadFrame s t o := by
  subst ht
  have ho := only_readOperand s o
  rw [← ho.a, ← flag_congr .c ho.p]
  refine ⟨⟨rfl, ?_, ?_⟩, negativeZero_setNZ _ _, fun f hf => ?_, ho.x, ho.y, readFrame_of rfl⟩
  · simp [State.addToA, flag_setNZ]
  · simp [State.addToA, flag_setNZ]
  · exact (ho.changesOnly.trans (changesOnly_addToA _ v)) (.flag f) (by simp_all)

/-- The byte ADC or SBC adds to `A` with the carry, by mnemonic (R171, R172). -/
def addend (m : Mnemonic) (v : Byte) : Byte := if m = .sbc then complement v else v

theorem readEffect_of_addSubtract {m : Mnemonic} (hm : m = .adc ∨ m = .sbc) (v : Byte) (u : State) :
    readEffect m v u = u.addToA (addend m v) := by
  obtain rfl | rfl := hm <;> rfl

/-- Settles O29: both instructions are one addition to `A`; SBC's operand is complemented, which makes it the subtraction. -/
theorem addSubtractResults : Obligations.AddSubtractResults := by
  refine ⟨encodedAs_of_printsAs (by decide +kernel), encodedAs_of_printsAs (by decide +kernel), fun i s hm => ?_⟩
  have hreads : i.mnemonic ∈ readingMnemonics := by
    obtain h | h := hm <;> simp [h, readingMnemonics]
  obtain ⟨o, hf⟩ := form_of_readingMnemonic hreads
  have hexec := exec_of_read s hf
  rw [readInstr, readEffect_of_addSubtract hm] at hexec
  obtain ⟨⟨ha, hc, hv⟩, hnz, hkept, hx, hy, hframe⟩ := addToA_readFrame s o (addend i.mnemonic (s.readOperand o).value) rfl
  refine ⟨o, _, hf, hexec, hnz, hkept, hx, hy, hframe, fun hadc => ?_, fun hsbc => ?_⟩
  · rw [ha, hc, hv, hadc]
    exact add8_spec s.a (s.readOperand o).value (s.flag .c)
  · rw [ha, hc, hv, hsbc]
    exact add8_complement_spec s.a (s.readOperand o).value (s.flag .c)

end Sys2Proof.Machine
end
section
/-! Logical instructions (spec/43_logical.md): the byte ORA, AND and EOR leave in `A`, BIT's three flags, and the frame of each (R180,
R181, R182, R183). -/

namespace Sys2Proof.Machine

/-! ORA, AND, EOR. -/

/-- The byte ORA, AND or EOR leaves in `A`, by mnemonic (R180, R181, R182). -/
def logicalByte (m : Mnemonic) (a v : Byte) : Byte :=
  match m with
  | .ora => a ||| v
  | .and => a &&& v
  | _ => a ^^^ v

theorem readEffect_of_logical {m : Mnemonic} (hm : m = .ora ∨ m = .and ∨ m = .eor) (v : Byte) (u : State) :
    readEffect m v u = State.setNZ { u with a := logicalByte m u.a v } (logicalByte m u.a v) := by
  obtain rfl | rfl | rfl := hm <;> rfl

/-- Settles O30: all three put their byte in `A`, with N and Z from it; each bit of the byte is the operation on the bits of `A` and
the operand. -/
theorem logicalResults : Obligations.LogicalResults := by
  refine ⟨encodedAs_of_printsAs (by decide +kernel), encodedAs_of_printsAs (by decide +kernel),
    encodedAs_of_printsAs (by decide +kernel), fun i s hm => ?_⟩
  have hreads : i.mnemonic ∈ readingMnemonics := by
    obtain h | h | h := hm <;> simp [h, readingMnemonics]
  obtain ⟨o, hf⟩ := form_of_readingMnemonic hreads
  have ho := only_readOperand s o
  have hexec := exec_of_read s hf
  rw [readInstr, readEffect_of_logical hm, ho.a] at hexec
  refine ⟨o, _, hf, hexec, fun k _ => ?_, ho.x, ho.y, setNZ_readFrame s o _ _ _ _ rfl⟩
  obtain h | h | h := hm <;> rw [h]
  · exact BitVec.getLsbD_or
  · exact BitVec.getLsbD_and
  · exact BitVec.getLsbD_xor

/-! BIT. -/

/-- BIT's effect after the operand's read: Z from `a &&& v`, N and V from bits 7 and 6 of `v` (R183). -/
theorem bitFlags_spec (u : State) (v : Byte) :
    (readEffect .bit v u).flag .z = (u.a &&& v == 0) ∧ (readEffect .bit v u).flag .n = v.getLsbD 7 ∧
    (readEffect .bit v u).flag .v = v.getLsbD 6 ∧ FlagsKept u (readEffect .bit v u) [.n, .v, .z] := by
  refine ⟨by simp [readEffect], by simp [readEffect], by simp [readEffect], fun f hf => ?_⟩
  have hne : f ≠ .n ∧ f ≠ .v ∧ f ≠ .z := by simpa using hf
  simp [readEffect, hne]

/-- Settles O31: BIT writes three flags and nothing else; the operand's read leaves `A` and `P`, so they are the state's own. -/
theorem bitTestResults : Obligations.BitTestResults := by
  refine ⟨encodedAs_of_printsAs (by decide +kernel), fun i s hm => ?_⟩
  obtain ⟨o, hf⟩ := form_of_readingMnemonic (i := i) (by simp [hm, readingMnemonics])
  have ho := only_readOperand s o
  have hexec := exec_of_read s hf
  rw [readInstr, hm] at hexec
  obtain ⟨hz, hn, hv, hkept⟩ := bitFlags_spec (s.readOperand o).state (s.readOperand o).value
  rw [ho.a] at hz
  exact ⟨o, _, hf, hexec, ho.a, ho.x, ho.y, hz, hn, hv, fun f hmem => (hkept f hmem).trans (flag_congr f ho.p), readFrame_of rfl⟩

end Sys2Proof.Machine
end
section
/-! Shifts and rotates (spec/44_shift_rotate.md): the shape of every read-modify-write instruction, what the four mnemonics write back
and eject, and the frame (R190 to R194). -/

namespace Sys2Proof.Machine

/-! Read-modify-write: one write of the operand's place, then flags (R137, R138). -/

/-- The operand of a read-modify-write instruction replaced by `r`: the accumulator, or one read and then one write of the same
address (R137). -/
def State.replaceTarget (s : State) (r : Byte) : Target → State
  | .acc => { s with a := r }
  | .mem m => (s.afterRead (s.effAddr m.ea).addr).write (s.effAddr m.ea).addr r

theorem modifyInstr_eq (f : Byte → Byte) (flags : Byte → State → State) (g : Target) (s : State) :
    modifyInstr f flags g s =
      complete (modifyCycles g) (flags (s.targetValue g) (s.replaceTarget (f (s.targetValue g)) g)) := by
  cases g <;> rfl

theorem p_replaceTarget (s : State) (r : Byte) (g : Target) : (s.replaceTarget r g).p = s.p := by
  cases g with
  | acc => rfl
  | mem m => exact p_readWrite s _ r

/-- Replacing the operand and then changing `P` alone is framed as a read-modify-write. -/
theorem modified_replaceTarget {s t : State} (hcanon : s.MemoryCanonical) {r : Byte} {g : Target}
    (ht : t = { s.replaceTarget r g with p := t.p }) : Modified s (t.addCycles (modifyCycles g)) g r := by
  rw [ht]
  cases g with
  | acc => exact modified_acc r t.p rfl
  | mem m => exact modified_mem hcanon m r t.p rfl

/-! The four mnemonics. -/

/-- The mnemonics that move their operand by one bit position. -/
def shiftingMnemonics : List Mnemonic := [.asl, .lsr, .rol, .ror]

theorem form_of_shiftingMnemonic {i : Instr} (h : i.mnemonic ∈ shiftingMnemonics) : ∃ g, i.form = .modify g := by
  cases i <;> simp [shiftingMnemonics, Instr.mnemonic] at h <;> exact ⟨_, rfl⟩

/-- The result and the ejected bit, by mnemonic (R191 to R194). -/
def shifted (m : Mnemonic) (v : Byte) (cin : Bool) : Shifted :=
  match m with
  | .asl => shiftLeft v cin
  | .lsr => shiftRight v cin
  | .rol => rotateLeft v cin
  | _ => rotateRight v cin

theorem carry_shifted (m : Mnemonic) (v : Byte) (cin : Bool) :
    (shifted m v cin).carry = if m = .asl ∨ m = .rol then v.getLsbD 7 else v.getLsbD 0 := by
  cases m <;> rfl

/-- The flags after a shift or rotate: C the ejected bit, N and Z from the result (R190). -/
def State.setShiftFlags (s : State) (r : Shifted) : State := (s.setFlag .c r.carry).setNZ r.result

theorem setShiftFlags_spec {s u : State} (hp : u.p = s.p) (r : Shifted) :
    (u.setShiftFlags r).flag .c = r.carry ∧ NegativeZero (u.setShiftFlags r) r.result ∧
    FlagsKept s (u.setShiftFlags r) [.n, .z, .c] := by
  refine ⟨by simp [State.setShiftFlags, flag_setNZ], negativeZero_setNZ _ _, fun f hf => ?_⟩
  have hne : f ≠ .n ∧ f ≠ .z ∧ f ≠ .c := by simpa using hf
  simp [State.setShiftFlags, flag_setNZ, hne, flag_congr f hp]

theorem exec_of_shift {i : Instr} (hi : i.mnemonic ∈ shiftingMnemonics) (s : State) {g : Target} (hf : i.form = .modify g)
    {r : Shifted} (hr : r = shifted i.mnemonic (s.targetValue g) (s.flag .c)) :
    exec i s = complete (modifyCycles g) ((s.replaceTarget r.result g).setShiftFlags r) := by
  rw [(exec_of_modify s hf).2, modifyInstr_eq, hr]
  simp only [shiftingMnemonics, List.mem_cons, List.not_mem_nil, or_false] at hi
  obtain h | h | h | h := hi <;> rw [h] <;> rfl

/-- Settles O34: every form replaces its operand by the mnemonic's result and then sets C, N and Z, which leaves the frame of a
read-modify-write. -/
theorem shiftResults : Obligations.ShiftResults := by
  refine ⟨encodedAs_of_printsAs (by decide +kernel), encodedAs_of_printsAs (by decide +kernel),
    encodedAs_of_printsAs (by decide +kernel), encodedAs_of_printsAs (by decide +kernel), fun i s hcanon hm => ?_⟩
  have hshifts : i.mnemonic ∈ shiftingMnemonics := by simpa [shiftingMnemonics] using hm
  obtain ⟨g, hf⟩ := form_of_shiftingMnemonic hshifts
  obtain ⟨hasl, hlsr, hrol, hror⟩ := shift_spec (s.targetValue g) (s.flag .c)
  obtain ⟨hc, hnz, hkept⟩ :=
    setShiftFlags_spec (p_replaceTarget s _ g) (shifted i.mnemonic (s.targetValue g) (s.flag .c))
  refine ⟨g, _, _, hf, exec_of_shift hshifts s hf rfl, ?_, hc.trans (carry_shifted ..), hnz, hkept,
    modified_replaceTarget hcanon rfl⟩
  obtain h | h | h | h := hm <;> rw [h]
  · exact hasl
  · exact hlsr
  · exact hrol
  · exact hror

end Sys2Proof.Machine
end
section
/-! Compare instructions (spec/45_compare.md): C, Z and N as the unsigned comparison, the register each mnemonic compares, and the
frame (R200, R201, R202, R203). -/

namespace Sys2Proof.Machine

/-- The register CMP, CPX or CPY compares with its operand, by mnemonic (R201, R202, R203). -/
def comparedByte (m : Mnemonic) (s : State) : Byte :=
  match m with
  | .cmp => s.a
  | .cpx => s.x
  | _ => s.y

theorem readEffect_of_compare {m : Mnemonic} (hm : m = .cmp ∨ m = .cpx ∨ m = .cpy) (v : Byte) (u : State) :
    readEffect m v u = u.compare (comparedByte m u) v := by
  obtain rfl | rfl | rfl := hm <;> rfl

theorem OnlyDevices.comparedByte_eq {s t : State} (h : OnlyDevices s t) (m : Mnemonic) :
    comparedByte m t = comparedByte m s := by
  simp only [comparedByte, h.a, h.x, h.y]

/-- `Compare(reg, M)` sets C and Z by the unsigned comparison and N from the difference; it writes no other flag (R200). -/
theorem compareFlags_spec (u : State) (reg m : Byte) :
    ((u.compare reg m).flag .c = true ↔ m.toNat ≤ reg.toNat) ∧ ((u.compare reg m).flag .z = true ↔ reg = m) ∧
    (u.compare reg m).flag .n = decide (128 ≤ (reg.toNat + 256 - m.toNat) % 256) ∧
    FlagsKept u (u.compare reg m) [.n, .z, .c] := by
  obtain ⟨hc, hz, hn⟩ := compare_spec reg m
  have hcarry : (u.compare reg m).flag .c = (add8 reg (complement m) true).carry := by simp [State.compare, flag_setNZ]
  obtain ⟨hzero, hneg⟩ : NegativeZero (u.compare reg m) (add8 reg (complement m) true).result := negativeZero_setNZ _ _
  rw [hcarry, hzero, hneg]
  exact ⟨hc, hz, hn, fun f hf => changesOnly_compare u reg m (.flag f) (by simp_all)⟩

/-- Settles O32: each mnemonic compares its register with the operand and writes three flags alone; the operand's read leaves the
registers and `P`, so they are the state's own. -/
theorem compareResults : Obligations.CompareResults := by
  refine ⟨encodedAs_of_printsAs (by decide +kernel), encodedAs_of_printsAs (by decide +kernel),
    encodedAs_of_printsAs (by decide +kernel), fun i s hm => ?_⟩
  have hreads : i.mnemonic ∈ readingMnemonics := by
    obtain h | h | h := hm <;> simp [h, readingMnemonics]
  obtain ⟨o, hf⟩ := form_of_readingMnemonic hreads
  have ho := only_readOperand s o
  have hexec := exec_of_read s hf
  rw [readInstr, readEffect_of_compare hm, ho.comparedByte_eq] at hexec
  obtain ⟨hc, hz, hn, hkept⟩ :=
    compareFlags_spec (s.readOperand o).state (comparedByte i.mnemonic s) (s.readOperand o).value
  exact ⟨o, _, comparedByte i.mnemonic s, _, hf, hexec, rfl, rfl, hc, hz, hn, ho.a, ho.x, ho.y,
    fun f hmem => (hkept f hmem).trans (flag_congr f ho.p), readFrame_of rfl⟩

end Sys2Proof.Machine
end
section
/-! Stack and subroutine instructions (spec/46_stack_and_subroutine.md): what the pushing and the pulling instructions do whole, that
pulls take back what was pushed, and the frame of each (R140, R141, R210 to R215). -/

namespace Sys2Proof.Machine

/-! Pushing. -/

theorem pushed_push {s : State} (h : s.MemoryCanonical) (v : Byte) : Pushed s (s.push v) [v] :=
  (pushed_nil s).push h (by simp) v

/-- The stack pointer above all that was pushed is the one before the pushes, also when the stack wrapped (R140). -/
theorem Pushed.sp_add_length {s t : State} {bytes : List Byte} (h : Pushed s t bytes) :
    t.sp + BitVec.ofNat 8 bytes.length = s.sp := by
  rw [h.1, BitVec.sub_add_cancel]

/-- The pulls find the pushed bytes in the opposite order, the last one first (R140, R141). -/
theorem Pushed.stackByte {s t : State} {bytes : List Byte} (h : Pushed s t bytes) {n k : Nat} {v : Byte}
    (hv : bytes[k]? = some v) (hn : bytes.length = k + n) : t.stackByte n = v := by
  obtain ⟨hbelow, hbytes, -⟩ := h
  have hsp : t.sp + BitVec.ofNat 8 n = s.sp - BitVec.ofNat 8 k := by
    rw [hbelow, hn, BitVec.ofNat_add, sub_add_eq_sub_sub, BitVec.sub_add_cancel]
  rw [State.stackByte, hsp, byteAt_stack]
  exact hbytes k v hv

/-- The pushed copy of `P` has Break and Unused set (R210, R212). -/
theorem exec_push {i : Instr} (hi : i = .pha ∨ i = .php) (s : State) :
    exec i s = complete 3 (s.push (if i = .pha then s.a else s.p ||| 0x30#8)) := by
  obtain rfl | rfl := hi
  · rfl
  · change complete 3 (s.push (s.p ||| 0x10#8 ||| 0x20#8)) = _
    rw [BitVec.or_assoc]
    rfl

theorem exec_jsr (target : Addr) (s : State) :
    exec (.jsr target) s = complete 6 { s.pushWord (s.pc - 1) with pc := target } := rfl

/-! Pulling. -/

/-- `WriteP` whole: bit 5 forced, and the latch by the written I (R142, R274). -/
theorem writeP_eq (s : State) (v : Byte) :
    s.writeP v = { s with p := v ||| 0x20#8, irqPending := s.irqSources != 0 && !v.getLsbD 2 } := by
  simp [State.writeP, State.recomputeIrq, State.flag, statusGet, Flag.bit]

theorem exec_pla (s : State) :
    exec .pla s = complete 4 (State.setNZ { s with a := s.stackByte 1, sp := s.sp + 1 } (s.stackByte 1)) := by
  change complete 4 (State.setNZ { s.pull.2 with a := s.pull.1 } s.pull.1) = _
  rw [pull_stackByte]

theorem exec_plp (s : State) :
    exec .plp s = complete 4 { s with p := s.stackByte 1 ||| 0x20#8, sp := s.sp + 1
                                      irqPending := s.irqSources != 0 && !(s.stackByte 1).getLsbD 2 } := by
  change complete 4 (s.pull.2.writeP s.pull.1) = _
  rw [pull_stackByte, writeP_eq]

theorem exec_rts (s : State) :
    exec .rts s = complete 6 { s with sp := s.sp + 2, pc := word (s.stackByte 1) (s.stackByte 2) + 1 } := by
  change complete 6 { s.pullWord.2 with pc := s.pullWord.1 + 1 } = _
  rw [pullWord_stackBytes]

/-! The instructions. -/

/-- Settles O40: PHA and PHP are one push; PLA and PLP take the byte above the stack pointer, PLA as a result that sets N and Z, PLP
through `WriteP`. -/
theorem stackTransferResults : Obligations.StackTransferResults := by
  refine ⟨encodedAs_of_printsAs (by decide +kernel), encodedAs_of_printsAs (by decide +kernel),
    encodedAs_of_printsAs (by decide +kernel), encodedAs_of_printsAs (by decide +kernel), fun i s hcanon hi => ?push,
    fun s => ⟨?pla, ?plp⟩⟩
  case push =>
    refine ⟨_, exec_push hi s, (pushed_push hcanon _).congr rfl rfl rfl rfl rfl rfl rfl, ?_⟩
    rw [push_rest]
    exact ⟨rfl, rfl, rfl, rfl, rfl, rfl, .refl s, rfl⟩
  case pla =>
    exact ⟨_, exec_pla s, rfl, negativeZero_setNZ _ _, flagsKept_setNZ rfl _, rfl, rfl, rfl, rfl, innerFrame_of rfl 4⟩
  case plp =>
    exact ⟨_, exec_plp s, rfl, rfl, rfl, rfl, rfl, rfl, rfl, rfl, memoryUntouched_of rfl rfl rfl rfl rfl rfl,
      ⟨rfl, rfl, rfl, rfl, rfl, rfl⟩, rfl⟩

/-- Settles O41: JSR pushes a word and sets the pc; RTS sets it past the word it pulls. -/
theorem subroutineResults : Obligations.SubroutineResults := by
  refine ⟨encodedAs_of_printsAs (by decide +kernel), encodedAs_of_printsAs (by decide +kernel), fun s target hcanon => ?jsr,
    fun s => ?rts⟩
  case jsr =>
    refine ⟨_, exec_jsr target s, (pushed_pushWord hcanon (s.pc - 1)).congr rfl rfl rfl rfl rfl rfl rfl, ?_⟩
    rw [pushWord_rest]
    exact ⟨rfl, rfl, rfl, rfl, rfl, rfl, .refl s, rfl⟩
  case rts =>
    refine ⟨_, exec_rts s, ?_, rfl, rfl, rfl, rfl, rfl, rfl, memoryUntouched_of rfl rfl rfl rfl rfl rfl, .refl s, rfl⟩
    change (word (s.stackByte 1) (s.stackByte 2) + 1).toNat = _
    rw [BitVec.toNat_add, word_toNat]
    rfl

/-! The round trips. -/

/-- Settles O48: the first instruction is `Pushed`, so the second pulls the very bytes and leaves the stack pointer where it was. -/
theorem stackRoundTrips : Obligations.StackRoundTrips := by
  intro s t u hcanon
  refine ⟨fun hphp hplp => ?status, fun target hjsr hrts => ?call⟩
  case status =>
    obtain ⟨-, -, -, -, hpush, -⟩ := stackTransferResults
    obtain ⟨t', hphp', hpushed, ha, hx, hy, -⟩ := hpush .php s hcanon (.inr rfl)
    obtain rfl : t' = t := Host.Outcome.next.inj (hphp'.symm.trans hphp)
    obtain rfl := Host.Outcome.next.inj ((exec_plp t').symm.trans hplp)
    have hpulled : t'.stackByte 1 = s.p ||| 0x30#8 := hpushed.stackByte (k := 0) rfl rfl
    refine ⟨?_, hpushed.sp_add_length, ha, hx, hy⟩
    change t'.stackByte 1 ||| 0x20#8 = _
    rw [hpulled, BitVec.or_assoc]
    rfl
  case call =>
    obtain ⟨-, -, hcall, -⟩ := subroutineResults
    obtain ⟨t', hjsr', hpushed, -, -, -, -, hp, -⟩ := hcall s target hcanon
    obtain rfl : t' = t := Host.Outcome.next.inj (hjsr'.symm.trans hjsr)
    obtain rfl := Host.Outcome.next.inj ((exec_rts t').symm.trans hrts)
    have hlo : t'.stackByte 1 = loByte (s.pc - 1) := hpushed.stackByte (k := 1) rfl rfl
    have hhi : t'.stackByte 2 = hiByte (s.pc - 1) := hpushed.stackByte (k := 0) rfl rfl
    refine ⟨?_, hpushed.sp_add_length, hp⟩
    change word (t'.stackByte 1) (t'.stackByte 2) + 1 = _
    rw [hlo, hhi, word_loByte_hiByte, BitVec.sub_add_cancel]

end Sys2Proof.Machine
end

section
/-! Branches and jumps (spec/47_branch_and_jump.md): a branch's target and cost, and both readings of JMP indirect (R220 to R230). -/

namespace Sys2Proof.Machine

/-! Branches. -/

/-- A branch whole: the pc goes to the target when the condition holds, at the cost of 2 cycles and the mark (R220). -/
theorem exec_branch {i : Instr} {off : Byte} (hf : i.form = .relative off) (s : State) :
    exec i s = complete (2 + branchMark s i)
      { s with pc := if branchCondition s i.mnemonic then s.pc + signedOffset off else s.pc } := by
  have hcross := pageCrossed_iff (s.pc + signedOffset off) s.pc
  rw [branchTarget_eq] at hcross
  rw [exec_of_relative s hf, branchInstr, branchMark, hf]
  cases branchCondition s i.mnemonic with
  | false => rfl
  | true => by_cases hp : branchTarget s.pc off / 256 = s.pc.toNat / 256 <;> simp [hcross, hp]

/-- Settles O42: a branch writes the pc alone. -/
theorem branchResults : Obligations.BranchResults := by
  refine ⟨encodedAs_of_printsAs (by decide +kernel), encodedAs_of_printsAs (by decide +kernel),
    encodedAs_of_printsAs (by decide +kernel), encodedAs_of_printsAs (by decide +kernel),
    encodedAs_of_printsAs (by decide +kernel), encodedAs_of_printsAs (by decide +kernel),
    encodedAs_of_printsAs (by decide +kernel), encodedAs_of_printsAs (by decide +kernel), fun i s off hf => ?_⟩
  refine ⟨_, exec_branch hf s, ?_, rfl, rfl, rfl, rfl, rfl, rfl, memoryUntouched_of rfl rfl rfl rfl rfl rfl, .refl s, rfl⟩
  rw [← branchTarget_eq, ← apply_ite BitVec.toNat]
  rfl

/-! Jumps. -/

/-- The pointer's high byte lies behind its low byte, in the pointer's own page when `JMP_IND_WRAP` holds. The two readings differ only
at the end of a page (R230). -/
theorem pointerHighAddr_eq (ptr : Addr) :
    pointerHighAddr ptr = if Config.jmpIndWrap then word (loByte ptr + 1) (hiByte ptr) else ptr + 1 := by
  unfold pointerHighAddr
  cases Config.jmpIndWrap with
  | false => simp
  | true =>
    by_cases hend : loByte ptr = 0xFF#8
    · simp [hend]
    · have hlo : (loByte ptr).toNat ≠ 255 := fun h => hend (BitVec.eq_of_toNat_eq h)
      have hsame : ptr + 1#16 = word (loByte ptr + 1#8) (hiByte ptr) := by
        apply BitVec.eq_of_toNat_eq
        rw [loByte_toNat] at hlo
        rw [word_toNat, BitVec.toNat_add, BitVec.toNat_add, loByte_toNat, hiByte_toNat]
        have := ptr.isLt
        simp only [BitVec.toNat_ofNat]
        omega
      simp [hend, hsame]

theorem exec_jmpInd (ptr : Addr) (s : State) : exec (.jmpInd ptr) s = complete 5
    { (s.afterRead ptr).afterRead (pointerHighAddr ptr) with
      pc := word (s.byteAt ptr) ((s.afterRead ptr).byteAt (pointerHighAddr ptr)) } := rfl

/-- Settles O43: JMP writes the pc alone, but for what JMP indirect's two reads do to the devices. -/
theorem jumpResults : Obligations.JumpResults := by
  refine ⟨encodedAs_of_printsAs (by decide +kernel), fun s addr => ?absolute, fun s ptr => ?indirect⟩
  case absolute =>
    exact ⟨_, rfl, rfl, rfl, rfl, rfl, rfl, rfl, rfl, memoryUntouched_of rfl rfl rfl rfl rfl rfl, .refl s, rfl⟩
  case indirect =>
    have hreads : OnlyDevices s ((s.afterRead ptr).afterRead (pointerHighAddr ptr)) :=
      (only_afterRead ..).trans (only_afterRead ..)
    exact ⟨_, _, exec_jmpInd ptr s, pointerHighAddr_eq ptr, rfl, .refl _,
      memoryUntouched_of hreads.ram hreads.bankDdr hreads.bankPort hreads.romKernel hreads.romBasic hreads.romChar,
      hreads.a, hreads.x, hreads.y, hreads.sp, hreads.p, hreads.running, congrArg (· + 5) hreads.cycles⟩

end Sys2Proof.Machine
end

section
/-! Flag instructions, increments and decrements (spec/48_flag_and_incdec.md): one bit of `P`, the latch that follows I, and steps
modulo 256 with N and Z from the result (R240 to R255). -/

namespace Sys2Proof.Machine

/-! One flag. -/

theorem flagsKept_setFlag (s : State) (f : Flag) (b : Bool) : FlagsKept s (s.setFlag f b) [f] :=
  fun _ hg => flag_setFlag_ne s b (by simpa using hg)

/-- Settles O38: each is `setFlag` of its flag, which writes one bit of `P`. -/
theorem flagInstructionResults : Obligations.FlagInstructionResults := by
  refine ⟨encodedAs_of_printsAs (by decide +kernel), encodedAs_of_printsAs (by decide +kernel),
    encodedAs_of_printsAs (by decide +kernel), encodedAs_of_printsAs (by decide +kernel),
    encodedAs_of_printsAs (by decide +kernel), fun i s f b hi => ?_⟩
  have hexec : exec i s = complete 2 (s.setFlag f b) := by
    simp only [List.mem_cons, List.not_mem_nil, or_false, Prod.mk.injEq] at hi
    obtain ⟨rfl, rfl, rfl⟩ | ⟨rfl, rfl, rfl⟩ | ⟨rfl, rfl, rfl⟩ | ⟨rfl, rfl, rfl⟩ | ⟨rfl, rfl, rfl⟩ := hi <;> rfl
  exact ⟨_, hexec, flag_setFlag_same s f b, flagsKept_setFlag s f b, rfl, rfl, rfl, rfl, rfl, innerFrame_of rfl 2⟩

/-- Settles O39: both set I and recompute the latch, which is up when a source is asserted and I is clear. -/
theorem interruptMaskInstructions : Obligations.InterruptMaskInstructions := by
  refine ⟨encodedAs_of_printsAs (by decide +kernel), encodedAs_of_printsAs (by decide +kernel), fun i s hi => ?_⟩
  have hexec : exec i s = complete 2 (s.setInterruptDisable (decide (i = .sei))) := by
    obtain rfl | rfl := hi <;> rfl
  have hcli : i ≠ .sei ↔ i = .cli := by obtain rfl | rfl := hi <;> simp
  refine ⟨_, hexec, by simp, ?_, fun f hf => flag_setInterruptDisable_ne s _ (by simpa using hf),
    rfl, rfl, rfl, rfl, rfl, rfl, memoryUntouched_of rfl rfl rfl rfl rfl rfl, ⟨rfl, rfl, rfl, rfl, rfl, rfl⟩, rfl⟩
  simp [hcli, and_comm]

/-! Memory steps. -/

/-- The byte INC or DEC writes back, as an integer: one less is 255 more modulo 256 (R250, R251). -/
theorem modifyByte_step {m : Mnemonic} (hm : m = .inc ∨ m = .dec) (c : Bool) (v : Byte) :
    (modifyByte c m v).toNat = (v.toNat + (if m = .inc then 1 else 255)) % 256 := by
  obtain rfl | rfl := hm
  · exact BitVec.toNat_add ..
  · change (v - 1).toNat = _
    simp only [BitVec.toNat_sub, BitVec.ofNat_eq_ofNat, BitVec.toNat_ofNat, reduceCtorEq, if_false]
    omega

theorem modifyFlags_step {m : Mnemonic} (hm : m = .inc ∨ m = .dec) (c : Bool) (v : Byte) (u : State) :
    modifyFlags c m v u = u.setNZ (modifyByte c m v) := by
  obtain rfl | rfl := hm <;> rfl

theorem form_of_stepMnemonic {i : Instr} (h : i.mnemonic = .inc ∨ i.mnemonic = .dec) : ∃ m, i.form = .modify (.mem m) := by
  cases i <;> simp [Instr.mnemonic] at h <;> exact ⟨_, rfl⟩

/-- Settles O35: the byte one up or one down is written back at its own address, and N and Z are set from it. -/
theorem memoryStepResults : Obligations.MemoryStepResults := by
  refine ⟨encodedAs_of_printsAs (by decide +kernel), encodedAs_of_printsAs (by decide +kernel), fun i s hcanon hm => ?_⟩
  obtain ⟨m, hf⟩ := form_of_stepMnemonic hm
  have hexec := (exec_of_modify s hf).2
  rw [modifyInstr_eq, modifyFlags_step hm] at hexec
  exact ⟨m, _, _, hf, hexec, modifyByte_step hm .., negativeZero_setNZ _ _, flagsKept_setNZ (p_replaceTarget ..) _,
    modified_replaceTarget hcanon rfl⟩

/-! Index steps. -/

/-- The index register INX, INY, DEX or DEY names, one up or one down (R252 to R255). -/
def stepped (i : Instr) (s : State) : State :=
  { s with
    x := s.x + (if i = .inx then 1 else if i = .dex then 255 else 0)
    y := s.y + (if i = .iny then 1 else if i = .dey then 255 else 0) }

theorem exec_of_indexStep {i : Instr} (hi : i ∈ [Instr.inx, .iny, .dex, .dey]) (s : State) : exec i s =
    complete 2 ((stepped i s).setNZ (if i = .inx ∨ i = .dex then (stepped i s).x else (stepped i s).y)) := by
  have hdown : ∀ v : Byte, v - 1#8 = v + 255#8 := fun v => by rw [BitVec.sub_eq_add_neg]; rfl
  simp only [List.mem_cons, List.not_mem_nil, or_false] at hi
  obtain rfl | rfl | rfl | rfl := hi
  · simp [exec, execInx, stepped]
  · simp [exec, execIny, stepped]
  · simp [exec, execDex, stepped, hdown]
  · simp [exec, execDey, stepped, hdown]

theorem toNat_add_ite (v : Byte) (p q : Prop) [Decidable p] [Decidable q] :
    (v + (if p then 1 else if q then 255 else 0)).toNat = (v.toNat + (if p then 1 else if q then 255 else 0)) % 256 := by
  rw [BitVec.toNat_add]
  split
  · rfl
  · split <;> rfl

/-- Settles O37: one register steps modulo 256, and N and Z are set from it. -/
theorem indexStepResults : Obligations.IndexStepResults := by
  refine ⟨encodedAs_of_printsAs (by decide +kernel), encodedAs_of_printsAs (by decide +kernel),
    encodedAs_of_printsAs (by decide +kernel), encodedAs_of_printsAs (by decide +kernel), fun i s hi => ?_⟩
  exact ⟨_, exec_of_indexStep hi s, toNat_add_ite .., toNat_add_ite .., negativeZero_setNZ _ _, rfl, rfl, rfl,
    flagsKept_setNZ rfl _, innerFrame_of rfl 2⟩

end Sys2Proof.Machine
end

section
/-! System instructions and exceptions (spec/49_system.md, spec/60_exceptions.md): what taking an exception and returning from one do
whole, and that they undo each other (R260 to R262, R276, R279). -/

namespace Sys2Proof.Machine

/-- Settles O46: NOP is its cost alone. -/
theorem nopChangesNothing : Obligations.NopChangesNothing := ⟨encodedAs_of_printsAs (by decide +kernel), fun _ => rfl⟩

/-- What taking an exception leaves, at the cost of `n` cycles: three bytes pushed, I set, the latch down, the pc from the vector
(R260, R276). -/
def ExceptionTaken (s t : State) (ret : Addr) (status : Byte) (n : Nat) : Prop :=
  Pushed s t [hiByte ret, loByte ret, status] ∧ t.pc = word (s.byteAt 0xFFFE#16) (s.byteAt 0xFFFF#16) ∧
  t.flag .i = true ∧ FlagsKept s t [.i] ∧ t.irqPending = false ∧ SameChips s t ∧
  t.a = s.a ∧ t.x = s.x ∧ t.y = s.y ∧ t.running = s.running ∧ t.cycles = s.cycles + n

theorem takeException_taken {s : State} (h : s.MemoryCanonical) (ret : Addr) (status : Byte) (n : Nat) :
    ExceptionTaken s ((s.takeException ret status).addCycles n) ret status n := by
  have hpushed := (takeException_pushed h ret status).congr (u := (s.takeException ret status).addCycles n)
    rfl rfl rfl rfl rfl rfl rfl
  have hpc : ((s.takeException ret status).addCycles n).pc = _ := takeException_pc h ret status
  refine ⟨hpushed, hpc, ?_⟩
  rw [takeException_rest]
  exact ⟨statusGet_statusSet_same .., fun f hf => statusGet_statusSet_ne _ _ (by simpa using hf), rfl,
    ⟨rfl, rfl, rfl, rfl, rfl, rfl⟩, rfl, rfl, rfl, rfl, rfl⟩

/-- BRK's return address is two past its opcode, and its pushed status has Break and Unused set (R260). -/
theorem exec_brk (s : State) : exec .brk s = complete 7 (s.takeException (s.pc + 1) (s.p ||| 0x30#8)) := by
  change complete 7 (s.takeException (s.pc + 1) (s.p ||| 0x10#8 ||| 0x20#8)) = _
  rw [BitVec.or_assoc]
  rfl

/-- Settles O44: BRK takes the exception. -/
theorem breakTakesTheException : Obligations.BreakTakesTheException :=
  ⟨encodedAs_of_printsAs (by decide +kernel), fun s hcanon => ⟨_, exec_brk s, takeException_taken hcanon ..⟩⟩

/-- Settles O10: a latched interrupt with I clear is the second case of `Step`, which takes the exception. -/
theorem interruptIsTakenBeforeTheFetch : Obligations.InterruptIsTakenBeforeTheFetch := by
  intro s hcanon hrun hirq hi
  have hstep : stepProcessor s = complete 7 (s.takeException s.pc ((s.p &&& 0xEF#8) ||| 0x20#8)) := by
    rw [stepProcessor, hrun, hirq, hi]
    rfl
  have htaken := takeException_taken hcanon s.pc ((s.p &&& 0xEF#8) ||| 0x20#8) 7
  rw [ExceptionTaken, hrun] at htaken
  exact ⟨_, hstep, htaken⟩

theorem exec_rti (s : State) : exec .rti s = complete 6
    { s with p := s.stackByte 1 ||| 0x20#8, sp := s.sp + 3, pc := word (s.stackByte 2) (s.stackByte 3)
             irqPending := s.irqSources != 0 && !(s.stackByte 1).getLsbD 2 } :=
  congrArg (complete 6) (returnFromException_eq s)

/-- Settles O45: RTI returns from the exception. -/
theorem returnFromInterruptRestores : Obligations.ReturnFromInterruptRestores :=
  ⟨encodedAs_of_printsAs (by decide +kernel), fun s => ⟨_, exec_rti s, rfl, rfl, rfl, rfl, rfl, rfl, rfl, rfl,
    memoryUntouched_of rfl rfl rfl rfl rfl rfl, ⟨rfl, rfl, rfl, rfl, rfl, rfl⟩, rfl⟩⟩

/-- RTI pulls the very bytes an exception pushed (R261, R279). -/
theorem rti_of_pushed {s t u : State} {ret : Addr} {status : Byte} (h : Pushed s t [hiByte ret, loByte ret, status])
    (hrti : exec .rti t = .next u) : u.pc = ret ∧ u.sp = s.sp ∧ u.p = status ||| 0x20#8 := by
  obtain rfl := Host.Outcome.next.inj ((exec_rti t).symm.trans hrti)
  have hstatus : t.stackByte 1 = status := h.stackByte (k := 2) rfl rfl
  have hlo : t.stackByte 2 = loByte ret := h.stackByte (k := 1) rfl rfl
  have hhi : t.stackByte 3 = hiByte ret := h.stackByte (k := 0) rfl rfl
  refine ⟨?_, h.sp_add_length, congrArg (· ||| 0x20#8) hstatus⟩
  change word (t.stackByte 2) (t.stackByte 3) = _
  rw [hlo, hhi, word_loByte_hiByte]

/-- Settles O49: what was pushed already has bit 5 set, which RTI forces. -/
theorem exceptionReturnRoundTrip : Obligations.ExceptionReturnRoundTrip := by
  intro s u hcanon
  refine ⟨fun hrti => ?interrupt, fun t hbrk hrti => ?software⟩
  case interrupt =>
    obtain ⟨hpc, hsp, hp⟩ := rti_of_pushed (takeException_pushed hcanon s.pc s.statusForIrq) hrti
    refine ⟨hpc, hsp, hp.trans ?_⟩
    change (s.p &&& 0xEF#8) ||| 0x20#8 ||| 0x20#8 = _
    rw [BitVec.or_assoc]
    rfl
  case software =>
    obtain rfl := Host.Outcome.next.inj ((exec_brk s).symm.trans hbrk)
    obtain ⟨hpushed, -⟩ := takeException_taken hcanon (s.pc + 1) (s.p ||| 0x30#8) 7
    obtain ⟨hpc, hsp, hp⟩ := rti_of_pushed hpushed hrti
    refine ⟨hpc, hsp, hp.trans ?_⟩
    rw [BitVec.or_assoc]
    rfl

end Sys2Proof.Machine
end

section
/-! The TimerChip (spec/61_timer_chip.md): the interrupt register and the source it drives, counting and the cascade, arming, and the
register file (R273, R274, R310 to R332). -/

namespace Sys2Proof.Machine

/-! Interrupt requests. -/

theorem getLsbD_sourceMask (k : Fin 8) {j : Nat} (hj : j < 8) : (sourceMask k).getLsbD j = decide (j = k.val) := by
  revert k j
  decide

/-- Settles O50: a request or-s the source's bit in, a withdrawal masks it out, and both recompute the latch. -/
theorem requestLines : Obligations.RequestLines := by
  refine fun s k => ⟨fun j hj => ?_, fun j hj => ?_, latch_recomputeIrq _, latch_recomputeIrq _, rfl, rfl⟩
  · rw [requestIrq_irqSources, BitVec.getLsbD_or, getLsbD_sourceMask k hj, Bool.or_comm]
  · rw [unrequestIrq_irqSources, BitVec.getLsbD_and, BitVec.getLsbD_not, getLsbD_sourceMask k hj, Bool.and_comm,
      decide_eq_true hj, Bool.true_and]

/-- The sources and the latch do not depend on the chips. -/
theorem requestIrq_setChip (s : State) (k : ChipId) (c : TimerChip) (i : Fin 8) :
    (s.setChip k c).requestIrq i = (s.requestIrq i).setChip k c := by cases k <;> rfl

theorem unrequestIrq_setChip (s : State) (k : ChipId) (c : TimerChip) (i : Fin 8) :
    (s.setChip k c).unrequestIrq i = (s.unrequestIrq i).setChip k c := by cases k <;> rfl

/-! The interrupt output (R330). -/

section
variable (s : State) (k : ChipId) (f m : BitVec 5)

/-- A chip with its interrupt registers set. -/
def TimerChip.withIcr (c : TimerChip) (f m : BitVec 5) : TimerChip := { c with icrFlags := f, icrMask := m }

theorem chip_setIcr_same : (s.setIcr k f m).chip k = (s.chip k).withIcr f m := by
  rw [chip_setIcr, if_pos rfl, TimerChip.withIcr]

theorem setIcr_of_rise (hdown : (s.chip k).line = false) (hup : ((s.chip k).withIcr f m).line = true) :
    s.setIcr k f m = (s.requestIrq k.source).setChip k ((s.chip k).withIcr f m) := by
  rw [← requestIrq_setChip]
  exact if_pos (by rw [hdown]; exact Bool.and_eq_true_iff.2 ⟨hup, rfl⟩)

theorem setIcr_of_fall (hup : (s.chip k).line = true) (hdown : ((s.chip k).withIcr f m).line = false) :
    s.setIcr k f m = (s.unrequestIrq k.source).setChip k ((s.chip k).withIcr f m) := by
  rw [← unrequestIrq_setChip]
  unfold TimerChip.withIcr at *
  simp [State.setIcr, hup, hdown]

theorem setIcr_of_same (h : ((s.chip k).withIcr f m).line = (s.chip k).line) :
    s.setIcr k f m = s.setChip k ((s.chip k).withIcr f m) := by
  unfold TimerChip.withIcr at *
  simp [State.setIcr, h]

@[simp] theorem draws_setIcr : (s.setIcr k f m).draws = s.draws := by
  unfold State.setIcr
  simp only
  split
  · simp
  · split <;> simp

end

/-- Settles O51: the output rises, falls or stays, and `SetIcr` requests, withdraws or does neither. -/
theorem chipOutputDrivesItsSource : Obligations.ChipOutputDrivesItsSource := by
  intro s k f m
  refine ⟨chip_setIcr_same s k f m, fun j hj => by rw [chip_setIcr, if_neg hj], fun hdown hup => ?rise,
    fun hup hdown => ?fall, fun hsame => ?same, only_setIcr .., queue_setIcr .., draws_setIcr .., outputs_setIcr ..⟩
  case rise =>
    rw [chip_setIcr_same] at hup
    simp [setIcr_of_rise s k f m hdown hup]
  case fall =>
    rw [chip_setIcr_same] at hdown
    simp [setIcr_of_fall s k f m hup hdown]
  case same =>
    rw [chip_setIcr_same] at hsame
    simp [setIcr_of_same s k f m hsame]

/-! Register 13 (R316, R317). -/

theorem getLsbD_icrByte (c : TimerChip) {j : Nat} (hj : j < 8) :
    c.icrByte.getLsbD j = if j = 7 then c.line else c.icrFlags.getLsbD j := by
  have hbit : (0x80#8).getLsbD j = decide (j = 7) := by
    revert j
    decide
  rw [TimerChip.icrByte, BitVec.getLsbD_or, BitVec.getLsbD_setWidth, decide_eq_true hj, Bool.true_and]
  by_cases h7 : j = 7
  · have hhigh : c.icrFlags.getLsbD j = false := BitVec.getLsbD_of_ge _ _ (by omega)
    rw [hhigh]
    cases c.line <;> simp [h7]
  · cases c.line <;> simp [h7, hbit]

theorem getLsbD_maskAfterWrite (mask : BitVec 5) (v : Byte) {j : Nat} (hj : j < 5) :
    (maskAfterWrite mask v).getLsbD j = if v.getLsbD j then v.getLsbD 7 else mask.getLsbD j := by
  unfold maskAfterWrite
  cases v.getLsbD 7 <;> cases hv : v.getLsbD j <;> simp [hj, hv]

/-- Settles O52: `icrByte` and `maskAfterWrite`, bit by bit. -/
theorem interruptRegister : Obligations.InterruptRegister := by
  intro s k v
  have hbit : ∀ {j}, j < 8 → (s.readReg k .icr).1.getLsbD j = if j = 7 then (s.chip k).line else (s.chip k).icrFlags.getLsbD j :=
    getLsbD_icrByte (s.chip k)
  refine ⟨fun j hj => ?_, ?_, ?_, hbit (by decide), rfl, _, rfl, fun j hj => getLsbD_maskAfterWrite _ v hj⟩
  · rw [hbit (by omega), if_neg (by omega)]
  · rw [hbit (by decide), if_neg (by decide), BitVec.getLsbD_of_ge _ _ (by decide)]
  · rw [hbit (by decide), if_neg (by decide), BitVec.getLsbD_of_ge _ _ (by decide)]

/-! Counting (R322, R323). -/

/-- Settles O53: the three things counts can do to a timer. -/
theorem timerAdvance : Obligations.TimerAdvance := by
  refine fun tm n => ⟨fun hle => ?within, fun hlt hos => ?stops, fun hlt hos => ?reloads, advance_latch .., advance_last ..⟩
  case within =>
    rw [advance_within tm n hle]
    exact ⟨toNat_ofNat_sub .., rfl, rfl⟩
  case stops =>
    have hs : tm.stops n := ⟨hos, hlt⟩
    refine ⟨by rw [advance_of_stops hs], by rw [advance_of_stops hs], started_of_stops hs, fun j hj h0 => ?_⟩
    exact advance_cr tm n j h0 hj
  case reloads =>
    rw [advance_continuous hos hlt]
    exact ⟨toNat_ofNat_sub .., rfl, rfl⟩

theorem advance_underflows_iff (tm : Timer) (n : Nat) : (tm.advance n).2 ≠ 0 ↔ tm.counter.toNat < n := by
  rcases stops_or_within_or_reloads tm n with hs | hle | ⟨hos, hlt⟩
  · have hlt := hs.2
    simp [advance_of_stops hs, hlt]
  · simp [advance_within tm n hle, hle]
  · simp [advance_continuous hos hlt, hlt]

/-! The cascade on a chip (R322, R332). -/

theorem getLsbD_raised (f b : BitVec 5) (u j : Nat) :
    (raised f b u).getLsbD j = true ↔ f.getLsbD j = true ∨ (u ≠ 0 ∧ b.getLsbD j = true) := by
  unfold raised
  by_cases h : u = 0 <;> simp [h]

/-- Each timer's flag is one bit (R305). -/
theorem getLsbD_timerFlag (t : TimerId) {j : Nat} (hj : j < 5) :
    t.flag.getLsbD j = true ↔ j = if t = .a then 0 else 1 := by
  revert j
  cases t <;> decide

section
variable (c : TimerChip) (t : TimerId) (n : Nat)

/-- Timer B counts the underflows of the advanced timer, which is A (R321). -/
def TimerChip.cascades (c : TimerChip) (t : TimerId) : Prop := t = .a ∧ c.bCountsA = true

theorem chipAdvance_of_cascades {c : TimerChip} (h : c.cascades .a) :
    c.advance .a n = (c.take .a (c.ta.advance n)).take .b (c.tb.advance (c.ta.advance n).2) := by
  rw [chipAdvance_a, if_pos h.2]

theorem chipAdvance_of_not_cascades {c : TimerChip} {t : TimerId} (h : ¬c.cascades t) :
    c.advance t n = c.take t ((c.timer t).advance n) := by
  cases t with
  | a => rw [chipAdvance_a, if_neg fun hb => h ⟨rfl, hb⟩]; rfl
  | b => rfl

theorem timer_chipAdvance_other {c : TimerChip} {t v : TimerId} (hv : v ≠ t) (h : ¬c.cascades t) :
    (c.advance t n).timer v = c.timer v := by
  rw [chipAdvance_of_not_cascades n h]
  cases t <;> cases v <;> first | rfl | exact absurd rfl hv

/-- The flags an underflow raises: the timer's own, and timer B's when the forwarded underflows bring it to its own. -/
theorem getLsbD_icrFlags_chipAdvance (h : (c.timer t).counter.toNat < n) {j : Nat} (hj : j < 5) :
    (c.advance t n).icrFlags.getLsbD j = true ↔ c.icrFlags.getLsbD j = true ∨ j = (if t = .a then 0 else 1) ∨
      (j = 1 ∧ c.cascades t ∧ c.tb.counter.toNat < (c.ta.advance n).2) := by
  have hunder := (advance_underflows_iff (c.timer t) n).2 h
  by_cases hc : c.cascades t
  · obtain ⟨rfl, -⟩ := id hc
    change (c.ta.advance n).2 ≠ 0 at hunder
    rw [chipAdvance_of_cascades n hc]
    change (raised (raised _ _ _) _ _).getLsbD j = true ↔ _
    rw [getLsbD_raised, getLsbD_raised, getLsbD_timerFlag .a hj, getLsbD_timerFlag .b hj, advance_underflows_iff c.tb]
    simp [hunder, hc, or_assoc, and_comm]
  · rw [chipAdvance_of_not_cascades n hc]
    change (raised _ _ _).getLsbD j = true ↔ _
    rw [getLsbD_raised, getLsbD_timerFlag t hj]
    simp [hunder, hc]

/-- An advance changes the timers and the flags of a chip, and nothing else. -/
theorem chipAdvance_rest : { c.advance t n with ta := c.ta, tb := c.tb, icrFlags := c.icrFlags } = c := by
  cases t with
  | a => rw [chipAdvance_a]; split <;> rfl
  | b => rfl

end

/-! The block with an advanced chip. -/

section
variable (s : State) (k : ChipId) (c : TimerChip)

theorem putChip_of_rise (hdown : (s.chip k).line = false) (hup : c.line = true) :
    s.putChip k c = (s.requestIrq k.source).setChip k c := by
  rw [← requestIrq_setChip, State.putChip, hdown, hup]
  rfl

theorem only_putChip : OnlyDevices s (s.putChip k c) := by
  unfold State.putChip
  split
  · exact (only_setChip ..).trans (only_requestIrq ..)
  · exact only_setChip ..

@[simp] theorem queue_putChip : (s.putChip k c).queue = s.queue := by unfold State.putChip; split <;> simp

@[simp] theorem draws_putChip : (s.putChip k c).draws = s.draws := by unfold State.putChip; split <;> simp

@[simp] theorem outputs_putChip : (s.putChip k c).outputs = s.outputs := by unfold State.putChip; split <;> simp

end

/-- Settles O55: the advanced chip is put in the place of the old one, and its output can only rise. -/
theorem underflowRaisesAndForwards : Obligations.UnderflowRaisesAndForwards := by
  intro s k t n
  refine ⟨fun hle => by rw [advanceTimer_within s k t hle, advance_within _ _ hle], fun hlt => ?_⟩
  simp only [advanceTimer_put, timer_putChip, chip_putChip]
  refine ⟨timer_chipAdvance .., fun hc => ?cascade, fun v hv hc => timer_chipAdvance_other n hv hc,
    fun j hj => getLsbD_icrFlags_chipAdvance _ t n hlt hj, chipAdvance_rest .., fun j hj => chip_putChip_ne _ _ _ hj,
    only_putChip .., queue_putChip .., draws_putChip .., outputs_putChip .., line_advance _ _ _, fun hsame => ?same,
    fun hdown hup => ?rise⟩
  case cascade =>
    obtain ⟨rfl, hb⟩ := hc
    rw [chipAdvance_of_cascades n ⟨rfl, hb⟩]
    rfl
  case same => simp [putChip_of_line s k _ hsame.symm]
  case rise => simp [putChip_of_rise s k _ hdown hup]

/-! Arming (R325). -/

/-- Settles O56: the timer's entry is removed, and one is inserted when it counts the clock. -/
theorem startTimerArms : Obligations.StartTimerArms := by
  intro s k t
  refine ⟨fun hc => ⟨?_, fun n => ?_⟩, fun hc => ⟨?_, ?_⟩, fun e he => ?_⟩
  · rw [timer_startTimer, if_pos ⟨rfl, rfl, hc⟩]
  · rw [queue_startTimer, if_pos hc, mem_queueInsert, mem_queueRemove]
    simp
  · rw [timer_startTimer, if_neg (by simp [hc])]
  · rw [not_queued_iff, queue_startTimer, if_neg (by simp [hc])]
    exact fun e he => (mem_queueRemove.1 he).2
  · have hne : ∀ n, e ≠ (n, (⟨k, t⟩ : Request)) := fun n h => he (by rw [h])
    rw [queue_startTimer]
    split
    · simp [mem_queueInsert, mem_queueRemove, he, hne]
    · simp [mem_queueRemove, he]

/-! Timer registers (R314, R315, R318, R319). -/

theorem getLsbD_controlStored (v : Byte) {j : Nat} (hj : j < 8) : (v &&& 0xEF#8).getLsbD j = (v.getLsbD j && j != 4) := by
  have hbit : (0xEF#8).getLsbD j = (j != 4) := by
    revert j
    decide
  rw [BitVec.getLsbD_and, hbit]

/-- A write of the high byte, as one record (R315). -/
theorem writeHigh_eq (tm : Timer) (v : Byte) : tm.writeHigh v =
    { tm with latch := word (loByte tm.latch) v
              counter := if tm.started then tm.counter else word (loByte tm.latch) v } := by
  unfold Timer.writeHigh
  cases tm.started <;> rfl

/-- A write of a control register, as one record (R319). -/
theorem writeControl_eq (tm : Timer) (v : Byte) : tm.writeControl v =
    { tm with cr := v &&& 0xEF#8, counter := if v.getLsbD 4 then tm.latch else tm.counter } := by
  unfold Timer.writeControl
  cases v.getLsbD 4 <;> rfl

/-- Settles O58: every access updates the timer first, and then reads it or replaces it. -/
theorem timerRegisters : Obligations.TimerRegisters := by
  intro s k t v u
  refine ⟨rfl, rfl, rfl, ⟨_, rfl, loByte_word .., hiByte_word .., rfl, rfl, rfl⟩, ⟨_, rfl, ?high⟩, ⟨_, rfl, ?control⟩⟩
  case high =>
    rw [writeHigh_eq]
    exact ⟨hiByte_word .., loByte_word .., rfl, rfl, rfl⟩
  case control =>
    rw [writeControl_eq]
    exact ⟨fun j hj => getLsbD_controlStored v hj, rfl, rfl, rfl⟩

/-! Ports (R310, R311). -/

theorem getLsbD_mixPort (pr ddr pins : Byte) {j : Nat} (hj : j < 8) :
    (mixPort pr ddr pins).getLsbD j = if ddr.getLsbD j then pr.getLsbD j else pins.getLsbD j := by
  unfold mixPort
  rw [BitVec.getLsbD_or, BitVec.getLsbD_and, BitVec.getLsbD_and, BitVec.getLsbD_not, decide_eq_true hj]
  cases ddr.getLsbD j <;> simp

theorem ofIndex_unimplemented {r : Nat} (h8 : 8 ≤ r) (h12 : r ≤ 12) : ChipReg.ofIndex r = .unimplemented := by
  obtain rfl | rfl | rfl | rfl | rfl : r = 8 ∨ r = 9 ∨ r = 10 ∨ r = 11 ∨ r = 12 := by omega
  all_goals rfl

section
variable (s : State) (k : ChipId)

/-- A read of port A or B samples the pins after the hook and mixes (R310). -/
theorem readPort_of_level (pr ddr pins : Byte) {input : PinInput} (h : input = .level pins) :
    ((s.preReadHook k).samplePins input).2 = s.preReadHook k ∧
    ∀ j < 8, (mixPort pr ddr ((s.preReadHook k).samplePins input).1).getLsbD j =
      if ddr.getLsbD j then pr.getLsbD j else pins.getLsbD j := by
  subst h
  exact ⟨rfl, fun j hj => getLsbD_mixPort pr ddr pins hj⟩

theorem readPort_of_drawn (pr ddr : Byte) {input : PinInput} (h : input = .drawn) :
    ((s.preReadHook k).samplePins input).2 = { s.preReadHook k with draws := s.draws + 1 } ∧
    ∀ j < 8, ddr.getLsbD j = true →
      (mixPort pr ddr ((s.preReadHook k).samplePins input).1).getLsbD j = pr.getLsbD j := by
  subst h
  refine ⟨rfl, fun j hj hd => ?_⟩
  rw [getLsbD_mixPort pr ddr _ hj, if_pos hd]

end

/-- Settles O59: a port read is the hook, the sampling of the pins and the mixing; a port write is said by `writePort_eq`. -/
theorem portRegisters : Obligations.PortRegisters := by
  intro s k v c asked
  refine ⟨fun _ => readPort_of_level s k c.pra c.ddra _, fun _ => readPort_of_level s k c.prb c.ddrb _,
    readPort_of_drawn s k c.pra c.ddra, readPort_of_drawn s k c.prb c.ddrb, writePort_eq .., writePort_eq ..,
    rfl, rfl, rfl, rfl, fun r h8 h12 => ?_⟩
  rw [ofIndex_unimplemented h8 h12]
  exact ⟨rfl, rfl⟩

end Sys2Proof.Machine
end

section
/-! The EventScheduler (spec/62_scheduler_and_orchestrator.md): where `Queue` places an entry, and the servicing of due callbacks, one
entry at a time (R350 to R354, R326, R331). -/

namespace Sys2Proof.Machine

/-! The queue (R351 to R353). -/

/-- In an ordered queue an entry is inserted after every target less or equal and before every greater one (R352). -/
theorem queueInsert_position (n : Nat) (r : Request) {q : List (Nat × Request)} (h : Ordered q) :
    ∃ before after, queueInsert n r q = before ++ (n, r) :: after ∧ before ++ after = q ∧
      (∀ e ∈ before, e.1 ≤ n) ∧ (∀ e ∈ after, n < e.1) := by
  induction q with
  | nil => exact ⟨[], [], rfl, rfl, by simp, by simp⟩
  | cons d q ih =>
    obtain ⟨hd, hq⟩ := List.pairwise_cons.1 h
    by_cases hle : d.1 ≤ n
    · obtain ⟨before, after, hinsert, rfl, hbefore, hafter⟩ := ih hq
      exact ⟨d :: before, after, by rw [queueInsert, if_pos hle, hinsert]; rfl, rfl,
        List.forall_mem_cons.2 ⟨hle, hbefore⟩, hafter⟩
    · have hlater : ∀ e ∈ q, n < e.1 := fun e he => by have := (hd e he).1; omega
      exact ⟨[], d :: q, by rw [queueInsert, if_neg hle]; rfl, rfl, by simp,
        List.forall_mem_cons.2 ⟨by omega, hlater⟩⟩

theorem queueRemove_eq_filter (r : Request) (q : List (Nat × Request)) : queueRemove r q = q.filter (fun e => e.2 ≠ r) := by
  refine List.filter_congr fun e _ => ?_
  by_cases h : e.2 = r <;> simp [h]

/-- Settles O57: `Queue` is an insertion at its position in the queue that `Cancel` leaves. -/
theorem queuePosition : Obligations.QueuePosition := by
  intro s target r h
  rw [← queueRemove_eq_filter]
  refine ⟨queueInsert_position target r (ordered_queueRemove h), ordered_enqueue target r h,
    queued_iff.2 ⟨target, mem_enqueue.2 (.inl rfl)⟩, rfl, not_queued_iff.2 fun e he => (mem_cancel.1 he).2⟩

/-- A request without an entry is not there to remove. -/
theorem queueRemove_of_absent {r : Request} {q : List (Nat × Request)} (h : ∀ e ∈ q, e.2 ≠ r) : queueRemove r q = q :=
  List.filter_eq_self.2 (by simpa using h)

/-! One callback (R326). -/

section
variable (s : State) (k : ChipId) (t : TimerId)

@[simp] theorem draws_updateTimer : (s.updateTimer k t).draws = s.draws := by rw [updateTimer_put, draws_putChip]

@[simp] theorem draws_startTimer : (s.startTimer k t).draws = s.draws := by
  unfold State.startTimer
  simp only
  split <;> simp

theorem draws_timerCallback (r : Request) : (s.timerCallback r).draws = s.draws :=
  (draws_startTimer ..).trans (draws_updateTimer ..)

theorem outputs_timerCallback (r : Request) : (s.timerCallback r).outputs = s.outputs :=
  (outputs_startTimer ..).trans (outputs_updateTimer ..)

theorem icrFlags_setLast (c : TimerChip) (x : Nat) : (c.setLast t x).icrFlags = c.icrFlags := by cases t <;> rfl

/-- Arming a timer sets no flag. -/
theorem icrFlags_startTimer (j : ChipId) : ((s.startTimer k t).chip j).icrFlags = (s.chip j).icrFlags := by
  unfold State.startTimer
  simp only
  split
  · cases k <;> cases j <;> cases t <;> rfl
  · simp

/-- The callback of a timer that counts the clock leaves it advanced to the present (R320, R326). -/
theorem timer_timerCallback (r : Request) (hc : counting r.timer (s.timer r.chip r.timer) = true) :
    (s.timerCallback r).timer r.chip r.timer = { ((s.timer r.chip r.timer).advance
      (s.cycles - (s.timer r.chip r.timer).last)).1 with last := s.cycles } := by
  have hown := updateTimer_own s r.chip r.timer hc
  rw [advance_last_set] at hown
  rw [State.timerCallback, timer_startTimer, hown, cycles_updateTimer]
  split <;> rfl

/-- The callback of a timer that counts the clock raises its flag when the counts are an underflow (R322, R326). -/
theorem flag_timerCallback (r : Request) (hc : counting r.timer (s.timer r.chip r.timer) = true)
    (hlt : (s.timer r.chip r.timer).counter.toNat < s.cycles - (s.timer r.chip r.timer).last) :
    ((s.timerCallback r).chip r.chip).icrFlags.getLsbD (if r.timer = .a then 0 else 1) = true := by
  have hflags := (getLsbD_icrFlags_chipAdvance (s.chip r.chip) r.timer _ hlt (j := if r.timer = .a then 0 else 1)
    (by split <;> decide)).2 (.inr (.inl rfl))
  rw [State.timerCallback, icrFlags_startTimer, updateTimer_put, chip_putChip, update_of_counting hc, icrFlags_setLast]
  exact hflags

end

/-- The callback of a request without an entry whose timer does not count the clock does nothing. -/
theorem timerCallback_of_not_counting {s : State} {r : Request} (hc : counting r.timer (s.timer r.chip r.timer) = false)
    (habsent : ∀ e ∈ s.queue, e.2 ≠ r) : s.timerCallback r = s := by
  rw [State.timerCallback, updateTimer_of_not_counting s _ _ hc, State.startTimer, hc]
  change { s with queue := queueRemove r s.queue } = s
  rw [queueRemove_of_absent habsent]

/-! Popping the head and running its callback. -/

section
variable {s : State} {target : Nat} {r : Request} {q : List (Nat × Request)}

/-- What the callback of a popped entry leaves in the queue: the other entries, and perhaps the request's own, in the future. -/
theorem queue_callback (q : List (Nat × Request)) :
    (∀ e ∈ (State.timerCallback { s with queue := q } r).queue, e.2 = r → s.cycles < e.1) ∧
    ∀ e : Nat × Request, e.2 ≠ r → (e ∈ (State.timerCallback { s with queue := q } r).queue ↔ e ∈ q) := by
  obtain ⟨-, -, hothers⟩ := startTimerArms (State.updateTimer { s with queue := q } r.chip r.timer) r.chip r.timer
  have hcyc := cycles_updateTimer { s with queue := q } r.chip r.timer
  have hqueue := queue_updateTimer { s with queue := q } r.chip r.timer
  refine ⟨fun e he her => ?_, fun e her => (hothers e her).trans (by rw [hqueue])⟩
  rw [State.timerCallback, queue_startTimer, hcyc] at he
  split at he
  · rcases mem_queueInsert.1 he with rfl | he
    · simp only; omega
    · exact absurd her (mem_queueRemove.1 he).2
  · exact absurd her (mem_queueRemove.1 he).2

theorem ordered_callback (h : Ordered q) : Ordered (State.timerCallback { s with queue := q } r).queue := by
  rw [State.timerCallback, queue_startTimer, queue_updateTimer]
  split
  · exact ordered_queueInsert (ordered_queueRemove h) fun e he => (mem_queueRemove.1 he).2
  · exact ordered_queueRemove h

end

/-! Servicing (R354, R360). -/

/-- Servicing is draining with any fuel that covers the due entries. -/
theorem serviceDue_eq_drainDue {s : State} {fuel : Nat} (h : dueCount s ≤ fuel) : s.serviceDue = drainDue s.cycles fuel s := by
  have hfuel : ∀ {n}, dueCount s ≤ n → drainDue s.cycles n s = drainDue s.cycles (dueCount s) s := fun {n} hn => by
    obtain ⟨more, rfl⟩ := Nat.exists_eq_add_of_le hn
    exact drainDue_fuel (dueCount s) more s (Nat.le_refl _)
  have hlen : dueCount s ≤ s.queue.length := List.length_filter_le ..
  unfold State.serviceDue
  split
  · exact (hfuel hlen).trans (hfuel h).symm
  · rename_i hdeadline
    cases fuel with
    | zero => rfl
    | succ fuel =>
      unfold drainDue
      unfold State.nextDeadline at hdeadline
      cases hq : s.queue with
      | nil => rfl
      | cons e q =>
        rw [hq] at hdeadline
        exact (if_neg hdeadline).symm

theorem dueCount_of_noneDue {s : State} (h : NoneDue s) : dueCount s = 0 := by
  have hnone : s.queue.filter (fun e => e.1 ≤ s.cycles) = [] := by
    rw [List.filter_eq_nil_iff]
    exact fun e he => by simpa using h e he
  rw [dueCount, hnone]
  rfl

theorem serviceDue_of_noneDue {s : State} (h : NoneDue s) : s.serviceDue = s :=
  serviceDue_eq_drainDue (dueCount_of_noneDue h).le

/-- With the head due, servicing takes it off, runs its callback and goes on from there (R354). -/
theorem serviceDue_of_due {s : State} {target : Nat} {r : Request} {q : List (Nat × Request)} (hq : s.queue = (target, r) :: q)
    (hdue : target ≤ s.cycles) : s.serviceDue = (State.timerCallback { s with queue := q } r).serviceDue := by
  have hcyc : (State.timerCallback { s with queue := q } r).cycles = s.cycles := (only_timerCallback _ r).cycles
  have hfewer := dueCount_callback hq hdue
  obtain ⟨fuel, hfuel⟩ := Nat.exists_eq_succ_of_ne_zero (Nat.ne_zero_of_lt hfewer)
  rw [serviceDue_eq_drainDue hfuel.le, serviceDue_eq_drainDue (fuel := fuel) (by omega), hcyc, drainDue, hq]
  exact if_pos hdue

/-- Either nothing is due, or the head is. -/
theorem noneDue_or_head {s : State} (h : s.QueueOrdered) :
    NoneDue s ∨ ∃ target r q, s.queue = (target, r) :: q ∧ target ≤ s.cycles := by
  by_cases hdeadline : s.nextDeadline ≤ s.cycles
  · unfold State.nextDeadline at hdeadline
    cases hq : s.queue with
    | nil => exact .inl (by simp [NoneDue, hq])
    | cons e q =>
      rw [hq] at hdeadline
      exact .inr ⟨e.1, e.2, q, rfl, hdeadline⟩
  · exact .inl fun e he => by have := nextDeadline_le h he; omega

/-- What servicing an ordered queue ends in: no due entry, and every entry of the future still there. The due entries get fewer with
every callback. -/
theorem serviceDue_ends (s : State) (h : s.QueueOrdered) : s.serviceDue.QueueOrdered ∧
    (∀ e ∈ s.serviceDue.queue, s.cycles < e.1) ∧
    ∀ e ∈ s.queue, s.cycles < e.1 → e ∈ s.serviceDue.queue := by
  rcases noneDue_or_head h with hnone | ⟨target, r, q, hq, hdue⟩
  · rw [serviceDue_of_noneDue hnone]
    exact ⟨h, hnone, fun e he _ => he⟩
  · have hord : Ordered ((target, r) :: q) := hq ▸ h
    obtain ⟨hhead, htail⟩ := List.pairwise_cons.1 hord
    have hcyc : (State.timerCallback { s with queue := q } r).cycles = s.cycles := (only_timerCallback _ r).cycles
    obtain ⟨hordered, hnone, hkept⟩ := serviceDue_ends (State.timerCallback { s with queue := q } r) (ordered_callback htail)
    rw [hcyc] at hnone hkept
    rw [serviceDue_of_due hq hdue]
    refine ⟨hordered, hnone, fun e he hlt => ?_⟩
    rw [hq] at he
    rcases List.mem_cons.1 he with rfl | he
    · exact absurd hlt (Nat.not_lt.2 hdue)
    · exact hkept e (((queue_callback q).2 e (hhead e he).2.symm).2 he) hlt
termination_by dueCount s
decreasing_by exact dueCount_callback hq hdue

/-- Settles O18: servicing is one callback after another, each of which leaves one due entry less. -/
theorem dueCallbacksAllRun : Obligations.DueCallbacksAllRun := by
  refine fun s h => ⟨serviceDue_of_noneDue, fun target r q hq hdue => ?_, serviceDue_ends s h⟩
  intro u tm
  have hord : Ordered ((target, r) :: q) := hq ▸ h
  obtain ⟨hhead, htail⟩ := List.pairwise_cons.1 hord
  obtain ⟨hown, hothers⟩ := queue_callback (s := s) (r := r) q
  exact ⟨serviceDue_of_due hq hdue, rfl, ordered_callback htail, (only_pop s q).trans (only_timerCallback _ r),
    draws_timerCallback _ r, outputs_timerCallback _ r, hown, hothers,
    fun hc => ⟨timer_timerCallback _ r hc, flag_timerCallback { s with queue := q } r hc⟩,
    fun hc => timerCallback_of_not_counting hc fun e he => (hhead e he).2.symm⟩

/-- Settles O19: after the due callbacks the block is `Quiet`. -/
theorem noUnderflowInsideAnInstruction : Obligations.NoUnderflowInsideAnInstruction := by
  intro s k t hs hc
  rw [← (only_serviceDue s).cycles]
  exact (quiet_serviceDue hs).within hc

end Sys2Proof.Machine
end

section
/-! The block's step and its run (spec/40_step_and_addressing.md, spec/60_exceptions.md, spec/62_scheduler_and_orchestrator.md): what a
step of a running or a halted Processor answers, where `RunCycles` ends, a warm reset, and the placed word (R120, R263, R293, R360,
R361, R382, R401; log 3). -/

namespace Sys2Proof.Machine

/-! An unassigned opcode (R263). -/

theorem fetch8_eq (s : State) : s.fetch8 = (s.byteAt s.pc, { s.afterRead s.pc with pc := s.pc + 1 }) := by
  rw [State.fetch8, read_eq, (only_afterRead s s.pc).pc]

/-- An unassigned opcode is fetched alone (R107, R263). -/
theorem fetchInstr_of_unassigned {s : State} (h : s.byteAt s.pc ∈ unassignedOpcodes) :
    s.fetchInstr = (.illegal (s.byteAt s.pc), { s.afterRead s.pc with pc := s.pc + 1 }) := by
  simp [State.fetchInstr, fetch8_eq, rowOf_unassigned h]

/-- Settles O9: the halting fetch is the third case of `Step`, and the run loop notifies no one of a halt. -/
theorem unassignedOpcodeHalts : Obligations.UnassignedOpcodeHalts := by
  refine ⟨fun op s => rfl, fun s hrun hirq hop => ?_⟩
  rw [step, stepProcessor_fetch hrun hirq, fetchInstr_of_unassigned hop]
  rfl

/-! A running and a halted Processor. -/

theorem keptByInstr_true : KeptByInstr (fun _ => True) := by constructor <;> intros <;> trivial

/-- A running Processor's `Step` runs on at a cost of 2 to 7 cycles, or halts at none (R120, R395). -/
theorem stepProcessor_running {s : State} (hrun : s.running = true) : ∃ u, stepProcessor s = .next u ∧
    ((u.running = true ∧ s.cycles + 2 ≤ u.cycles ∧ u.cycles ≤ s.cycles + 7) ∨ (u.running = false ∧ u.cycles = s.cycles)) := by
  obtain ⟨u, hu⟩ := stepProcessor_next hrun
  obtain ⟨v, ⟨-, hcyc, hvrun⟩, ⟨n, h2, h7, rfl⟩ | rfl⟩ :=
    stepProcessor_keeps (keptByInstr_true.and_cycles_running s.cycles) ⟨trivial, rfl, hrun⟩ hu
  · exact ⟨_, hu, .inl ⟨hvrun, by rw [addCycles_cycles]; omega, by rw [addCycles_cycles]; omega⟩⟩
  · exact ⟨_, hu, .inr ⟨rfl, hcyc⟩⟩

/-- Settles O15: the callbacks leave `running` and `cycles`, and `notifyVideo` follows the step that runs on. -/
theorem everyRunningStepCompletes : Obligations.EveryRunningStepCompletes := by
  intro s hrun
  have ho := only_serviceDue s
  obtain ⟨u, hu, hcases⟩ := stepProcessor_running (ho.running.trans hrun)
  rw [ho.cycles] at hcases
  refine ⟨u, hu, hcases.imp (fun ⟨hrun', h2, h7⟩ => ⟨hrun', h2, h7, ?_⟩) (fun ⟨hhalt, hcyc⟩ => ⟨hhalt, hcyc, ?_⟩)⟩
  · simp [step, hu, notifyVideo, hrun', ho.cycles, State.emit]
  · simp [step, hu, notifyVideo, hhalt]

theorem step_of_halted {s : State} (h : s.running = false) : step s = .fault .halted := by
  have hserved : s.serviceDue.running = false := (only_serviceDue s).running.trans h
  rw [step, stepProcessor, hserved]
  rfl

/-- A run of a halted machine is one pass at most, in which the due callbacks run and the `Step` fails (R360, R401). -/
theorem runCycles_of_halted {s : State} (h : s.running = false) (n : Nat) : s.runCycles n = s ∨ s.runCycles n = s.serviceDue := by
  cases n with
  | zero => exact .inl rfl
  | succ n =>
    refine .inr ?_
    rw [State.runCycles, runLoop, if_pos (by omega), step_of_halted h]

/-- Settles O8: the callbacks of the one pass change devices only and drive nothing outward. -/
theorem haltedMachineStops : Obligations.HaltedMachineStops := by
  refine fun s h => ⟨step_of_halted h, fun n => ?_⟩
  rcases runCycles_of_halted h n with hrun | hrun <;> rw [hrun]
  · exact ⟨.refl s, rfl, rfl⟩
  · exact ⟨only_serviceDue s, (only_serviceDue s).cycles, outputs_serviceDue s⟩

/-! `RunCycles` (R361). -/

/-- A step of a running machine that goes on costs 2 to 7 cycles. -/
theorem step_running {s : State} (hrun : s.running = true) : ∃ t, step s = .next t ∧
    (t.running = true → s.cycles + 2 ≤ t.cycles ∧ t.cycles ≤ s.cycles + 7) := by
  obtain ⟨u, -, ⟨hurun, h2, h7, hstep⟩ | ⟨hhalt, -, hstep⟩⟩ := everyRunningStepCompletes s hrun
  · exact ⟨_, hstep, fun _ => ⟨h2, h7⟩⟩
  · exact ⟨u, hstep, fun hu => absurd (hhalt.symm.trans hu) Bool.false_ne_true⟩

/-- The loop ends at its target: the last pass begins below it, and there is fuel for every pass. -/
theorem runLoop_reaches {target : Nat} : ∀ (fuel : Nat) (s : State), target ≤ s.cycles + fuel → s.cycles < target + 7 →
    (runLoop target fuel s).running = true →
    target ≤ (runLoop target fuel s).cycles ∧ (runLoop target fuel s).cycles < target + 7 := by
  intro fuel
  induction fuel with
  | zero => exact fun s hfuel hlt _ => ⟨hfuel, hlt⟩
  | succ fuel ih =>
    intro s hfuel hlt
    unfold runLoop
    by_cases hbelow : s.cycles < target
    · rw [if_pos hbelow]
      cases hrun : s.running with
      | false =>
        rw [step_of_halted hrun]
        exact fun h => absurd ((only_serviceDue s).running.symm.trans h) (by simp [hrun])
      | true =>
        obtain ⟨t, hstep, hcost⟩ := step_running hrun
        rw [hstep]
        cases htrun : t.running with
        | false => simp [htrun]
        | true =>
          obtain ⟨h2, h7⟩ := hcost htrun
          simpa [htrun] using ih t (by omega) (by omega)
    · rw [if_neg hbelow]
      exact fun _ => ⟨by omega, hlt⟩

/-- Settles O17: a run of `n` cycles has fuel for `n` passes. -/
theorem runCyclesReachesItsTarget : Obligations.RunCyclesReachesItsTarget :=
  fun s n => runLoop_reaches n s (Nat.le_refl _) (by omega)

/-! A warm reset (R382). -/

theorem resetDefined_iff (s : State) : s.resetDefined = true ↔ s.queue = [] ∧ s.chip0.line = false ∧ s.chip1.line = false := by
  simp [State.resetDefined, and_assoc]

/-- A reset leaves the chips and the storage, so the invariant stays when nothing is queued or requested: an armed timer would have an
entry, and a line that is up a source. -/
theorem resetProcessor_inv {s : State} (hq : s.queue = []) (h0 : s.chip0.line = false) (h1 : s.chip1.line = false) (h : s.Inv) :
    s.resetProcessor.Inv where
  memory := h.memory
  unused := show statusGet Config.pReset .u = true by decide
  forceLoad := h.forceLoad
  latch := rfl
  lines k := by
    cases k with
    | zero => exact BitVec.getLsbD_zero.trans h0.symm
    | one => exact BitVec.getLsbD_zero.trans h1.symm
  queue := h.queue
  armed k t := by
    have hs := h.armed k t
    rw [hq] at hs
    change if counting t (s.timer k t) then _ else _
    split
    case isTrue hc =>
      rw [if_pos hc] at hs
      exact absurd hs.2 List.not_mem_nil
    case isFalse hc =>
      rw [if_neg hc] at hs
      exact hs

/-- Settles O14: the condition of a warm reset is what its invariant needs. -/
theorem warmResetKeepsInvariant : Obligations.WarmResetKeepsInvariant := by
  refine fun s => ⟨fun hq h0 h1 => ⟨?_, resetProcessor_inv hq h0 h1⟩, fun hno => ?_⟩
  · exact if_pos ((resetDefined_iff s).2 ⟨hq, h0, h1⟩)
  · exact if_neg fun h => hno ((resetDefined_iff s).1 h)

/-! The placed word (log 3). -/

/-- These bytes stand at the pc, in RAM as the banks stand. -/
def StandsInRam (s : State) (bytes : List Byte) : Prop :=
  ∀ n v, bytes[n]? = some v →
    s.source (s.pc + BitVec.ofNat 16 n) = .ram ∧ s.ram.read (s.pc + BitVec.ofNat 16 n).toNat = v

theorem StandsInRam.of_append {s : State} {bytes rest : List Byte} (h : StandsInRam s (bytes ++ rest)) : StandsInRam s bytes :=
  fun n v hv => by
    obtain ⟨hlt, -⟩ := List.getElem?_eq_some_iff.1 hv
    exact h n v (by rw [List.getElem?_append_left hlt, hv])

/-- Bytes in RAM are fetched as they stand, without an effect but on the pc (R66, R121). -/
theorem fetchBytes_of_standsInRam {bytes : List Byte} : ∀ {s : State}, StandsInRam s bytes →
    s.fetchBytes bytes.length = (bytes, { s with pc := s.pc + BitVec.ofNat 16 bytes.length }) := by
  induction bytes with
  | nil => intro s _; simp [State.fetchBytes]
  | cons b bytes ih =>
    intro s h
    have hpc : ∀ n, s.pc + 1 + BitVec.ofNat 16 n = s.pc + BitVec.ofNat 16 (n + 1) := fun n => by
      rw [Nat.add_comm n, BitVec.ofNat_add, BitVec.add_assoc]; rfl
    obtain ⟨hsource, hbyte⟩ := h 0 b rfl
    rw [BitVec.add_zero] at hsource hbyte
    have hfetch : s.fetch8 = (b, { s with pc := s.pc + 1 }) := by
      rw [fetch8_eq, afterRead_eq (by simp [hsource]), State.byteAt, State.read, hsource, hbyte]
    have htail : StandsInRam { s with pc := s.pc + 1 } bytes := fun n v hv => by
      have := h (n + 1) v hv
      rw [← hpc] at this
      exact this
    rw [List.length_cons, State.fetchBytes, hfetch, ih htail, ← hpc]

theorem inRam_iff (s : State) (a : Addr) :
    s.inRam a = true ↔ s.source a = .ram ∧ s.source (a + 1) = .ram ∧ s.source (a + 2) = .ram := by
  simp [State.inRam, and_assoc]

/-- A word is placed where the pc reaches RAM: where it was, or at `loadAddr` (R384). -/
theorem inRam_placeInstr (s : State) (b0 b1 b2 : Byte) : s.inRam (s.placeInstr b0 b1 b2).pc = true := by
  change s.inRam (if s.inRam s.pc then s.pc else loadAddr) = true
  split
  case isTrue h => exact h
  case isFalse =>
    exact (inRam_iff ..).2 ⟨source_c000 (by decide) (by decide), source_c000 (by decide) (by decide),
      source_c000 (by decide) (by decide)⟩

/-- Three bytes written at successive addresses are read back; the addresses differ, also when they wrap. -/
theorem read_three_writes {m : Memory} (h : Memory.wf 65536 m) (a : Addr) (b0 b1 b2 : Byte) :
    let written := ((m.write a.toNat b0).write (a + 1).toNat b1).write (a + 2).toNat b2
    written.read a.toNat = b0 ∧ written.read (a + 1).toNat = b1 ∧ written.read (a + 2).toNat = b2 := by
  have h1 : (a + 1).toNat = (a.toNat + 1) % 65536 := BitVec.toNat_add ..
  have h2 : (a + 2).toNat = (a.toNat + 2) % 65536 := BitVec.toNat_add ..
  have hwf0 := Memory.wf_write b0 a.isLt h
  have hwf1 := Memory.wf_write b1 (a + 1).isLt hwf0
  refine ⟨?_, ?_, Memory.read_write_same _ _ hwf1⟩
  · rw [Memory.read_write_ne _ (by omega), Memory.read_write_ne _ (by omega), Memory.read_write_same _ _ h]
  · rw [Memory.read_write_ne _ (by omega), Memory.read_write_same _ _ hwf0]

theorem standsInRam_placeInstr {s : State} (h : s.MemoryCanonical) (b0 b1 b2 : Byte) :
    StandsInRam (s.placeInstr b0 b1 b2) [b0, b1, b2] := by
  obtain ⟨hs0, hs1, hs2⟩ := (inRam_iff ..).1 (inRam_placeInstr s b0 b1 b2)
  obtain ⟨hr0, hr1, hr2⟩ := read_three_writes h.1 (s.placeInstr b0 b1 b2).pc b0 b1 b2
  have hsource : ∀ a, (s.placeInstr b0 b1 b2).source a = s.source a := source_congr rfl rfl
  intro n v hv
  rw [hsource]
  match n, hv with
  | 0, rfl => rw [BitVec.add_zero]; exact ⟨hs0, hr0⟩
  | 1, rfl => exact ⟨hs1, hr1⟩
  | 2, rfl => exact ⟨hs2, hr2⟩

theorem decode_of_decodeTableWord {nbits w : Nat} {i : Instr} (h : decodeTableWord nbits w = some i) :
    ∃ rest, decode [tableByte nbits w 0, tableByte nbits w 1, tableByte nbits w 2] = .ok (i, rest) := by
  unfold decodeTableWord at h
  split at h
  case h_1 rest hdecode => cases h; exact ⟨rest, hdecode⟩
  case h_2 => cases h

/-- Settles O7: the placed bytes are fetched as they stand, and no callback or interrupt comes before the fetch. -/
theorem placedWordRunsNext : Obligations.PlacedWordRunsNext := by
  intro s nbits w i hcanon hword
  obtain ⟨rest, hdecode⟩ := decode_of_decodeTableWord hword
  obtain ⟨hwf, hbytes⟩ := (decode_eq_ok_iff ..).1 hdecode
  have hnone : NoneDue (s.withFetchWord nbits w) := fun e he => of_decide_eq_true (List.mem_filter.1 he).2
  have hserved := serviceDue_of_noneDue hnone
  have hstands : StandsInRam (s.withFetchWord nbits w) (encode i ++ rest) := hbytes ▸ standsInRam_placeInstr hcanon _ _ _
  have hfetch : (s.withFetchWord nbits w).fetchBytes i.length = _ := fetchBytes_of_standsInRam hstands.of_append
  obtain ⟨hstep, -⟩ := stepRunsTheFetchedInstruction (s.withFetchWord nbits w) i (by rw [hserved]; rfl) (by rw [hserved]; rfl) hwf
    (by rw [hserved, hfetch])
  rw [hserved, hfetch] at hstep
  exact hstep

end Sys2Proof.Machine
end

section
/-! Words of the spec's examples (spec/30_encoding.md section 3). -/

namespace Sys2Proof

theorem decode_encode {i : Instr} (hwf : i.wf = true) : decode (encode i) = .ok (i, []) :=
  (decode_eq_ok_iff ..).2 ⟨hwf, (List.append_nil _).symm⟩

/-- Settles O5: each word is the encoding of the instruction it stands for. -/
theorem manualWordsDecode : Obligations.ManualWordsDecode :=
  ⟨decode_encode (i := .ldaImm 0x80) rfl, decode_encode (i := .staAbs 0xC000) rfl, decode_encode (i := .adcImm 0x50) rfl,
    decode_encode (i := .bitZp 0x20) rfl, decode_encode (i := .lsrZp 0x10) rfl, decode_encode (i := .cpxImm 0x0A) rfl,
    decode_encode (i := .jsr 0xC100) rfl, decode_encode (i := .bne 0xFB) rfl, decode_encode (i := .decAbs 0xC000) rfl,
    decode_encode (i := .rti) rfl, decode_encode (i := .jmpInd 0x0310) rfl, decode_encode (i := .illegal 0xFF) rfl⟩

end Sys2Proof
end
